-- ==== Sys2Proof/Word.lean ====
section
/-! DEFINITION. The word types of BNX-MAU: the 32-bit word and limb (R5, R8), the 16-bit immediate (R82), the byte lane of a
word (R62) and the 4-bit register number (R84). Arithmetic on values stands in Machine/Limbs.lean. -/

namespace Sys2Proof

/-- A 32-bit word: a register, an LM word, a limb, a command word (R5, R8, R80). -/
abbrev Word := BitVec 32

/-- A 16-bit half word: imm16, a descriptor's base or length (R64, R82). -/
abbrev Half := BitVec 16

/-- One byte lane of a word (R62). -/
abbrev Byte := BitVec 8

/-- A 4-bit unsigned register number, selecting x0 to x15 (R84). -/
abbrev Reg := BitVec 4

end Sys2Proof
end

