-- ==== Sys2Proof/Machine/Limbs.lean ====
section
/-! DEFINITION. The value functions of R10: bit length, limb count, leading-zero count, sign, and the exact shifts of R181,
R182 and R184. Values are unbounded natural numbers and integers, as R8 has them. -/

namespace Sys2Proof.Machine

/-- `bitlen(v)`: 0 for 0, otherwise the least k with v < 2^k (R10). -/
def bitlen (v : Nat) : Nat := if v = 0 then 0 else Nat.log2 v + 1

/-- `limbs(v) = ceil(bitlen(v) / 32)`: the limbs of the trimmed form (R10). -/
def limbs (v : Nat) : Nat := (bitlen v + 31) / 32

/-- `clz32(w) = 32 - bitlen(w)`, 32 for 0 (R10, R170). -/
def clz32 (w : Word) : Nat := 32 - bitlen w.toNat

/-- `s32(v)`: the two's-complement reading of a word (R8). -/
def s32 (w : Word) : Int := w.toInt

/-- The low 32 bits of `sgn(w)`: 1, 0 or 0xFFFFFFFF (R184). -/
def signWord (w : Int) : Word := BitVec.ofInt 32 w.sign

/-- `v * 2^k` (R8), with 0 shifted at no cost for any k. -/
def shiftLeft (v k : Nat) : Nat := if v = 0 then 0 else v <<< k

/-- `limbs(v * 2^k)`, from the bit length and k alone, without forming the shifted value (R181, log 16). -/
def shiftLeftLimbs (v k : Nat) : Nat := if v = 0 then 0 else (bitlen v + k + 31) / 32

end Sys2Proof.Machine
end

