-- ==== Sys2Proof/Syntax.lean ====
section
/-! DEFINITION. The 15 commands of BNX-MAU1 version 1, one constructor for each row of spec/opcode_table.json (R86). Operands
stand in the field order rd, ra, rb, rc of R92. -/

namespace Sys2Proof

/-- A command (R80 to R86). Every register field is a 4-bit number and every immediate 16 bits, so each term has exactly
one command word. -/
inductive Instr where
  /-- R105: no operation. -/
  | nop
  /-- R106: stop the command stream. -/
  | halt
  /-- R107: load the low half. -/
  | lil (rd : Reg) (imm : Half)
  /-- R108: load the high half. -/
  | lih (rd : Reg) (imm : Half)
  /-- R109: copy a register. -/
  | mov (rd ra : Reg)
  /-- R121: full product of two arrays. -/
  | mul (rd ra rb : Reg)
  /-- R126: multiply an array by one word and add one word, in place. -/
  | muladd1 (rd ra rb rc : Reg)
  /-- R142: quotient and remainder of two arrays. -/
  | divmod (rd ra rb rc : Reg)
  /-- R150: divide an array by one word, in place. -/
  | divrem1 (rd ra rb : Reg)
  /-- R175: fixed-width normalize. -/
  | norm (rd ra rb : Reg)
  /-- R181: left shift of a magnitude by a signed amount. -/
  | shl (rd ra rb : Reg)
  /-- R182: right shift of a magnitude by a signed amount. -/
  | shr (rd ra rb : Reg)
  /-- R184: arithmetic shift of a signed value held as sign and magnitude. -/
  | sar (rd ra rb rc : Reg)
  /-- R171: leading zeros of one word. -/
  | clz (rd ra : Reg)
  /-- R173: leading zeros of an array. -/
  | lzca (rd ra : Reg)
  deriving DecidableEq, Repr

end Sys2Proof
end

