-- ==== Sys2Proof/WellFormed.lean ====
section
/-! DEFINITION. Which command words are well formed, from the format rules R81 to R83 and the three causes of R89. The ranges
of operands are carried by the types of Syntax.lean (a register number is 4 bits, an immediate 16), so every term of Instr is
well formed and what can be ill formed is a WORD: its opcode unassigned (R89), an unused register field nonzero (R87), a
reserved bit set (R88). This file is written from those three rules and never from the match and mask columns of R86, which
Decode.lean follows; that the two agree is an obligation. -/

namespace Sys2Proof

/-- The three formats (R81, R82, R83). -/
inductive Format where
  | register
  | immediate
  | bare
  deriving DecidableEq, Repr

/-- Why a word is illegal, in the order of R89's list. -/
inductive Illegal where
  /-- The opcode is unassigned (R89). -/
  | unassignedOp
  /-- A register field the command does not use is nonzero (R87). -/
  | unusedField
  /-- A reserved bit is set (R88). -/
  | reservedBits
  deriving DecidableEq, Repr

/-- Bits [31:26] of a word (R81). -/
def opField (w : Word) : BitVec 6 := w.extractLsb' 26 6

/-- The format column of R86; none for the opcodes R89 lists as unassigned. -/
def formatOf (op : BitVec 6) : Option Format :=
  if op = 0x01#6 ∨ op = 0x02#6 then some .bare
  else if op = 0x04#6 ∨ op = 0x05#6 then some .immediate
  else if op = 0x06#6 ∨ op = 0x10#6 ∨ op = 0x11#6 ∨ op = 0x18#6 ∨ op = 0x19#6 ∨ (0x20#6 ≤ op ∧ op ≤ 0x25#6) then
    some .register
  else none

/-- The register commands whose rb column of R86 is a dash: MOV, CLZ and LZCA. -/
def rbUnused (op : BitVec 6) : Bool := op = 0x06#6 ∨ op = 0x24#6 ∨ op = 0x25#6

/-- The register commands whose rc column of R86 is a dash: all but MULADD1, DIVMOD and SAR. -/
def rcUnused (op : BitVec 6) : Bool := ¬ (op = 0x11#6 ∨ op = 0x18#6 ∨ op = 0x23#6)

/-- First check: the opcode is assigned (R89). -/
def opAssigned (w : Word) : Bool := (formatOf (opField w)).isSome

/-- Second check, for format R: the fields R86 marks with a dash are 0 (R87). -/
def unusedFieldsZero (w : Word) : Bool :=
  formatOf (opField w) = some .register →
    (rbUnused (opField w) → w.extractLsb' 14 4 = 0#4) ∧ (rcUnused (opField w) → w.extractLsb' 10 4 = 0#4)

/-- Third check: bits [9:0] in format R, [21:16] in format I, [25:0] in format N are 0 (R88). -/
def reservedBitsZero (w : Word) : Bool :=
  match formatOf (opField w) with
  | some .register => w.extractLsb' 0 10 = 0#10
  | some .immediate => w.extractLsb' 16 6 = 0#6
  | some .bare => w.extractLsb' 0 26 = 0#26
  | none => true

/-- A word that passes the three checks of R89. -/
def wordWellFormed (w : Word) : Bool := opAssigned w && unusedFieldsZero w && reservedBitsZero w

/-- The first check of R89's list that an illegal word fails. -/
def illegalReason (w : Word) : Illegal :=
  if opAssigned w = false then .unassignedOp
  else if unusedFieldsZero w = false then .unusedField
  else .reservedBits

end Sys2Proof
end

