-- ==== Sys2Proof/Decode.lean ====
section
/-! DEFINITION. Decoding a command word by the rows of R86, as R91 does it, and encoding a command by the formats R81 to R83.
Decoding is total: a word no row matches is rejected under the name of the check of R89 it fails. -/

namespace Sys2Proof

/-- Bits [25:22] (R81, R82). -/
def rdField (w : Word) : Reg := w.extractLsb' 22 4
/-- Bits [21:18] (R81). -/
def raField (w : Word) : Reg := w.extractLsb' 18 4
/-- Bits [17:14] (R81). -/
def rbField (w : Word) : Reg := w.extractLsb' 14 4
/-- Bits [13:10] (R81). -/
def rcField (w : Word) : Reg := w.extractLsb' 10 4
/-- Bits [15:0], unsigned, never extended or scaled (R85). -/
def immField (w : Word) : Half := w.extractLsb' 0 16

/-- A row of R86: its mask, its match, and the command it reads from a word's fields. -/
structure OpcodeRow where
  mask : Word
  pattern : Word
  build : Word → Instr

/-- The table of R86, in its order (NOP .. LZCA). -/
def opcodeRows : List OpcodeRow := [
  { mask := 0xFFFFFFFF#32, pattern := 0x04000000#32, build := fun _ => .nop },
  { mask := 0xFFFFFFFF#32, pattern := 0x08000000#32, build := fun _ => .halt },
  { mask := 0xFC3F0000#32, pattern := 0x10000000#32, build := fun w => .lil (rdField w) (immField w) },
  { mask := 0xFC3F0000#32, pattern := 0x14000000#32, build := fun w => .lih (rdField w) (immField w) },
  { mask := 0xFC03FFFF#32, pattern := 0x18000000#32, build := fun w => .mov (rdField w) (raField w) },
  { mask := 0xFC003FFF#32, pattern := 0x40000000#32, build := fun w => .mul (rdField w) (raField w) (rbField w) },
  { mask := 0xFC0003FF#32, pattern := 0x44000000#32,
    build := fun w => .muladd1 (rdField w) (raField w) (rbField w) (rcField w) },
  { mask := 0xFC0003FF#32, pattern := 0x60000000#32,
    build := fun w => .divmod (rdField w) (raField w) (rbField w) (rcField w) },
  { mask := 0xFC003FFF#32, pattern := 0x64000000#32, build := fun w => .divrem1 (rdField w) (raField w) (rbField w) },
  { mask := 0xFC003FFF#32, pattern := 0x80000000#32, build := fun w => .norm (rdField w) (raField w) (rbField w) },
  { mask := 0xFC003FFF#32, pattern := 0x84000000#32, build := fun w => .shl (rdField w) (raField w) (rbField w) },
  { mask := 0xFC003FFF#32, pattern := 0x88000000#32, build := fun w => .shr (rdField w) (raField w) (rbField w) },
  { mask := 0xFC0003FF#32, pattern := 0x8C000000#32,
    build := fun w => .sar (rdField w) (raField w) (rbField w) (rcField w) },
  { mask := 0xFC03FFFF#32, pattern := 0x90000000#32, build := fun w => .clz (rdField w) (raField w) },
  { mask := 0xFC03FFFF#32, pattern := 0x94000000#32, build := fun w => .lzca (rdField w) (raField w) }]

/-- A word matches a row when its masked bits are the row's match (R86). -/
def OpcodeRow.matchesWord (r : OpcodeRow) (w : Word) : Bool := w &&& r.mask == r.pattern

/-- R91: the command of the first row the word matches; otherwise ILLEGAL, with the check of R89 that fails. -/
def decode (w : Word) : Except Illegal Instr :=
  match opcodeRows.find? (fun r => r.matchesWord w) with
  | some r => .ok (r.build w)
  | none => .error (illegalReason w)

/-- Format R (R81): op, rd, ra, rb, rc and ten reserved zeros. -/
def formatR (op : BitVec 6) (rd ra rb rc : Reg) : Word := op ++ rd ++ ra ++ rb ++ rc ++ 0#10

/-- Format I (R82): op, rd, six reserved zeros and imm16. -/
def formatI (op : BitVec 6) (rd : Reg) (imm : Half) : Word := op ++ rd ++ 0#6 ++ imm

/-- Format N (R83): op and 26 reserved zeros. -/
def formatN (op : BitVec 6) : Word := op ++ 0#26

/-- The command word of a command: its opcode and format by R86, unused fields and reserved bits 0 (R87, R88). -/
def encode (i : Instr) : Word :=
  match i with
  | .nop => formatN 0x01#6
  | .halt => formatN 0x02#6
  | .lil rd imm => formatI 0x04#6 rd imm
  | .lih rd imm => formatI 0x05#6 rd imm
  | .mov rd ra => formatR 0x06#6 rd ra 0#4 0#4
  | .mul rd ra rb => formatR 0x10#6 rd ra rb 0#4
  | .muladd1 rd ra rb rc => formatR 0x11#6 rd ra rb rc
  | .divmod rd ra rb rc => formatR 0x18#6 rd ra rb rc
  | .divrem1 rd ra rb => formatR 0x19#6 rd ra rb 0#4
  | .norm rd ra rb => formatR 0x20#6 rd ra rb 0#4
  | .shl rd ra rb => formatR 0x21#6 rd ra rb 0#4
  | .shr rd ra rb => formatR 0x22#6 rd ra rb 0#4
  | .sar rd ra rb rc => formatR 0x23#6 rd ra rb rc
  | .clz rd ra => formatR 0x24#6 rd ra 0#4 0#4
  | .lzca rd ra => formatR 0x25#6 rd ra 0#4 0#4

/-- What `decode` reads from the bits w of a row of spec/opcode_table.json; bits from nbits up are 0. A command is one whole
32-bit word, so there is no byte order to lay out (R62, R80). -/
def decodeTableWord (nbits w : Nat) : Option Instr := (decode (BitVec.ofNat 32 (w % 2 ^ nbits))).toOption

end Sys2Proof
end

