-- ==== Sys2Proof/Config.lean ====
section
/-! DEFINITION. What an implementation fixes, and the one free value of the model. `LM_DEPTH` itself is carried in State (its
field lmDepth), so that every statement holds for every depth; here stands the value it has after reset. -/

namespace Sys2Proof

/-- The identification value: the ASCII bytes BNX and the version byte 1 (R2, R31). -/
def Config.id : Word := 0x424E5801#32

/-- DESIGN CHOICE (log 1): the LM_DEPTH of the machine after power-on reset, the spec's reference value (R6, D3). -/
def Config.lmDepth : Nat := 4096

/-- The free value of I1, R22 and R46: what the n-th host read of an LM word unwritten since power-on returns. It has no
body, so nothing can be proved of it (log 4). -/
opaque Config.freeWord : Nat → Word

end Sys2Proof
end

