-- ==== Sys2Proof/Machine/State.lean ====
section
/-! DEFINITION. The state of BNX-MAU (R49), the ways a step can stop, and the state after power-on reset (R50). Every
operation on it stands in the other files of Machine/. -/

namespace Sys2Proof.Machine

/-- LM as plain data: the bytes written since power-on, by rising byte address, byte k of word a at 4*a+k (R21, R62, log 2).
An address that is not listed holds no value: it is unwritten since power-on (R22). -/
abbrev Memory := List Host.Cell

/-- The architectural fault codes of R211. Taking one is a NEXT state (R216), never the end of a run of the model. -/
inductive FaultCode where
  /-- Code 1: the fetched word matches no encoding (R212). -/
  | illegal
  /-- Code 2: PC ≥ LM_DEPTH at fetch (R213). -/
  | fetch
  /-- Code 3: a descriptor's window passes the end of LM (R214). -/
  | bounds
  /-- Code 4: divisor value 0 (R215). -/
  | divzero
  /-- Code 5: a result does not fit its destination window (R215). -/
  | capacity
  /-- Code 6: NORM at equal lengths shifts a 1 bit off the left end (R215). -/
  | invalidop
  /-- Code 7: NORM shift amount of 32 or more (R215). -/
  | outofrange
  /-- Code 8: NORM destination length neither the source's nor one more (R215). -/
  | badlen
  /-- Code 9: SAR sign not in -1, 0, +1, or not consistent with the magnitude (R215). -/
  | badsign
  /-- Code 10: DIVMOD's quotient and remainder windows intersect (R215). -/
  | overlap
  deriving DecidableEq, Repr

/-- The model's own errors (R222): the machine's behaviour there is unspecified, so the model stops and names the address. -/
inductive Fault where
  /-- Raised by the fetch of an LM word that is unwritten since power-on (R101, I2). Safe: hardware reads some value and goes
  on, the model proves nothing of it. -/
  | fetchUnwritten (address : Nat)
  /-- Raised by MUL, MULADD1, DIVMOD, DIVREM1, NORM, SHL, SHR, SAR and LZCA when a source window holds a word that is unwritten
  since power-on (R22, R222, I1). Safe: hardware reads some value and goes on, the model proves nothing of it. -/
  | readUnwritten (address : Nat)
  deriving DecidableEq, Repr

/-- Why the model gives no meaning. No arm of exec answers with it: every command of R86 has its meaning. -/
inductive Refusal where
  /-- Raised by an arm of exec for a command that has no meaning yet; no arm does. Safe. -/
  | notModelled (mnemonic : String)
  deriving DecidableEq, Repr

/-- How a command ends before it commits: by an architectural fault (R216), or by one of the model's own errors (R222). -/
inductive Stop where
  | trap (code : FaultCode)
  | model (fault : Fault)
  deriving DecidableEq, Repr

/-- One move of the host agent (R20). Offsets are those of the 0x50000-byte aperture (R63); a width is in bytes, and only
4 is performed (R67). -/
inductive HostMove where
  /-- The host makes no access while the engine takes its next step (DESIGN CHOICE, log 5). -/
  | pass
  /-- The host reads `bytes` bytes at a byte offset. -/
  | read (offset : Fin 0x50000) (bytes : Nat)
  /-- The host writes a value of `bytes` bytes at a byte offset. -/
  | write (offset : Fin 0x50000) (bytes : Nat) (value : Word)
  /-- Power-on reset (R250). -/
  | powerOn
  deriving DecidableEq, Repr

/-- The architectural state of R49, the constant PARAM shows (R32), and the host agent's side (log 4, log 5, log 6). -/
structure State where
  /-- LM: which bytes have been written, and their values (R21, R22). -/
  lm : Memory
  /-- x0 to x15 (R23). -/
  x : Vector Word 16
  /-- PC, the LM word address of the next command (R25). -/
  pc : Word
  /-- CTRL.IE_DONE (R36). -/
  ieDone : Bool
  /-- CTRL.IE_ERR (R36). -/
  ieErr : Bool
  /-- STATUS.BUSY (R38). -/
  busy : Bool
  /-- STATUS.DONE (R39). -/
  done : Bool
  /-- STATUS.ERR (R40). -/
  err : Bool
  /-- STATUS.HACC (R41). -/
  hacc : Bool
  /-- STATUS.ECODE (R211). -/
  ecode : BitVec 8
  /-- EINFO (R44). -/
  einfo : Word
  /-- LM_DEPTH, which PARAM reads: a constant of the configuration that no step changes (R6, R32). -/
  lmDepth : Nat
  /-- The model's own: the host's moves still to come, the next one first (R20). -/
  hostMoves : List HostMove
  /-- The model's own: the value the last host read returned (R62). -/
  hostData : Word
  /-- The model's own: how many free values host reads have drawn (R22). -/
  draws : Nat
  deriving DecidableEq, Repr

/-- The state after power-on reset (R50, R250): every register 0, LM unwritten, idle until the host writes START (R254). -/
def State.reset : State where
  lm := []
  x := Vector.replicate 16 0#32
  pc := 0#32
  ieDone := false
  ieErr := false
  busy := false
  done := false
  err := false
  hacc := false
  ecode := 0#8
  einfo := 0#32
  lmDepth := Config.lmDepth
  hostMoves := []
  hostData := 0#32
  draws := 0

end Sys2Proof.Machine
end

