-- ==== Sys2Proof/Machine/Flags.lean ====
section
/-! DEFINITION. BNX-MAU has no condition codes or flags (R27): what a processor would put in flags goes to a register or to
STATUS. Here stand the status bits as the host sees them: the fault codes of R211, the STATUS and CTRL words, and the
interrupt output. -/

namespace Sys2Proof.Machine

/-- The ECODE of a fault (R211). -/
def FaultCode.ecode (c : FaultCode) : BitVec 8 :=
  match c with
  | .illegal => 1#8
  | .fetch => 2#8
  | .bounds => 3#8
  | .divzero => 4#8
  | .capacity => 5#8
  | .invalidop => 6#8
  | .outofrange => 7#8
  | .badlen => 8#8
  | .badsign => 9#8
  | .overlap => 10#8

/-- One bit as a one-bit vector. -/
def bit (b : Bool) : BitVec 1 := BitVec.ofBool b

/-- STATUS as the host reads it (R37): BUSY 0, DONE 1, ERR 2, HACC 3, ECODE 15:8, every other bit 0. -/
def statusWord (s : State) : Word := 0#16 ++ s.ecode ++ 0#4 ++ bit s.hacc ++ bit s.err ++ bit s.done ++ bit s.busy

/-- CTRL as the host reads it (R33): START and SRST read 0, IE_DONE 2, IE_ERR 3, every other bit 0. -/
def ctrlWord (s : State) : Word := 0#28 ++ bit s.ieErr ++ bit s.ieDone ++ 0#2

/-- The interrupt output, a function of the state (R225). -/
def irq (s : State) : Bool := (s.done && s.ieDone) || (s.err && s.ieErr)

end Sys2Proof.Machine
end

