-- ==== Sys2Proof/Machine/Ops.lean ====
section
/-! DEFINITION. The named operations every command and every host access is written with: LM by bytes, words and windows
(R9, R10, R62), the registers (R10, R23), committing (R103), TAKING A FAULT (R216) and, beside it, the START that returns
from one (R34, R220), and the two resets (R250, R252). -/

namespace Sys2Proof.Machine

/-! ### LM -/

/-- The byte at a byte address, none when it is unwritten since power-on (R22). -/
def Memory.readByte (m : Memory) (a : Nat) : Option Byte :=
  match m with
  | [] => none
  | (k, b) :: rest => if k = a then some b else Memory.readByte rest a

/-- Write one byte, keeping the cells in rising order of address. -/
def Memory.writeByte (m : Memory) (a : Nat) (v : Byte) : Memory :=
  match m with
  | [] => [(a, v)]
  | (k, b) :: rest =>
    if a < k then (a, v) :: (k, b) :: rest
    else if a = k then (a, v) :: rest
    else (k, b) :: Memory.writeByte rest a v

/-- The canonical form: addresses strictly rising. No cell can equal what an unlisted address reads as, since that is no
value at all. -/
abbrev Memory.wf (m : Memory) : Prop := m.Pairwise (fun p q => p.1 < q.1)

/-- `LM[a]`: the 32-bit word at word address a, none when it is unwritten since power-on (R10, R22). Byte k is bits
[8k+7:8k] (R62). -/
def Memory.readWord (m : Memory) (a : Nat) : Option Word :=
  match Memory.readByte m (4 * a), Memory.readByte m (4 * a + 1), Memory.readByte m (4 * a + 2),
    Memory.readByte m (4 * a + 3) with
  | some b0, some b1, some b2, some b3 => some (b3 ++ b2 ++ b1 ++ b0)
  | _, _, _, _ => none

/-- `LM[a] <- w`: write the four bytes of a word, which marks it written (R46, R62). -/
def Memory.writeWord (m : Memory) (a : Nat) (w : Word) : Memory :=
  Memory.writeByte (Memory.writeByte (Memory.writeByte (Memory.writeByte m (4 * a) (w.extractLsb' 0 8))
    (4 * a + 1) (w.extractLsb' 8 8)) (4 * a + 2) (w.extractLsb' 16 8)) (4 * a + 3) (w.extractLsb' 24 8)

/-- `MemRead(a, n)`: the value of the n-word window at a, most significant limb first (R9, R10). An unwritten word stops the
model with the first such address (R22, R222). -/
def memRead (m : Memory) (a n : Nat) : Except Stop Nat :=
  match n with
  | 0 => .ok 0
  | n + 1 =>
    match Memory.readWord m a with
    | none => .error (.model (.readUnwritten a))
    | some w =>
      match memRead m (a + 1) n with
      | .error e => .error e
      | .ok v => .ok (w.toNat * 2 ^ (32 * n) + v)

/-- `MemWrite(a, n, v)`: the n-limb big-endian form of v, `LM[a+i] <- (v >> (32*(n-1-i)))[31:0]` (R10). -/
def memWrite (m : Memory) (a n v : Nat) : Memory :=
  match n with
  | 0 => m
  | n + 1 => memWrite (Memory.writeWord m a (BitVec.ofNat 32 (v >>> (32 * n)))) (a + 1) n v

/-- The state with another LM. -/
def setLm (s : State) (m : Memory) : State := { s with lm := m }

/-! ### Registers -/

/-- `x[i]`: every register is an ordinary one, x0 included (R10, R23). -/
def getReg (s : State) (r : Reg) : Word := s.x[r.toNat]'r.isLt

/-- `x[i] <- v` (R10, R23). -/
def setReg (s : State) (r : Reg) (v : Word) : State := { s with x := s.x.set r.toNat v r.isLt }

/-! ### Committing, taking a fault, and returning from one -/

/-- The last part of a commit: `pc <- PC + 1` (R103). -/
def advance (s : State) : State := { s with pc := s.pc + 1#32 }

/-- HALT's status update: BUSY falls and DONE rises (R106, R39). -/
def haltStatus (s : State) : State := { s with busy := false, done := true }

/-- TAKING A FAULT (R216): no LM word and no register is written, PC stays at the faulting command, BUSY falls, ERR and ECODE
are set, and EINFO holds the command word, 0 for FETCH. DONE, HACC and CTRL are unchanged. -/
def takeFault (c : FaultCode) (w : Word) (s : State) : State :=
  { s with busy := false, err := true, ecode := c.ecode, einfo := if c = .fetch then 0#32 else w }

/-- The effect of a START accepted while idle (R34), which is also the return from a fault (R220): status is cleared and the
engine runs from PC. -/
def start (s : State) : State :=
  { s with busy := true, done := false, err := false, ecode := 0#8, einfo := 0#32 }

/-- The end of one command's execution (R103, R216, R222): commit, take the fault with the command's own word in EINFO, or
stop on an error of the model. A command has exactly one command word (R86), which is its encoding (log 8). -/
def finish (i : Instr) (s : State) (body : Except Stop State) : Host.Outcome State Fault Refusal :=
  match body with
  | .ok t => .next (advance t)
  | .error (.trap c) => .next (takeFault c (encode i) s)
  | .error (.model f) => .fault f

/-- One check of a command's rule: the fault is raised when the condition fails (R103). -/
def need (p : Prop) [Decidable p] (c : FaultCode) : Except Stop Unit :=
  if p then .ok () else .error (.trap c)

/-! ### Reset -/

/-- Soft reset, when it takes effect (R252): everything but LM to the soft-reset column of R50. -/
def softReset (s : State) : State :=
  { s with
    x := Vector.replicate 16 0#32, pc := 0#32, ieDone := false, ieErr := false, busy := false, done := false,
    err := false, hacc := false, ecode := 0#8, einfo := 0#32 }

/-- Power-on reset (R250): the power-on column of R50, every LM word unwritten. -/
def powerOnReset (s : State) : State := setLm (softReset s) []

end Sys2Proof.Machine
end

