-- ==== Sys2Proof/Machine/Operands.lean ====
section
/-! DEFINITION. The operand forms: descriptors (R64), their bounds check (R65), source values (R66), and the canonical
destination write (R69). A raw-width operand (R70) is `memRead` and `memWrite` at the descriptor's own length; a scalar
operand is the register's value. -/

namespace Sys2Proof.Machine

/-- `base(d) = d[15:0]`, an LM word address (R64). -/
def base (d : Word) : Nat := (d.extractLsb' 0 16).toNat

/-- `len(d) = d[31:16]`, a length in limbs (R64). -/
def len (d : Word) : Nat := (d.extractLsb' 16 16).toNat

/-- The descriptor `{L[15:0], base(d)[15:0]}` of a result of length L at d's base (R69). -/
def resultDesc (d : Word) (l : Nat) : Word := BitVec.ofNat 16 l ++ d.extractLsb' 0 16

/-- `base(d) + len(d) ≤ LM_DEPTH`, without wrap-around, for a zero length too (R65). -/
abbrev InBounds (s : State) (d : Word) : Prop := base d + len d ≤ s.lmDepth

/-- The bounds check of one descriptor (R65, R214). -/
def checkBounds (s : State) (d : Word) : Except Stop Unit := need (InBounds s d) .bounds

/-- `MemRead(base(d), len(d))`: a window's value at raw width, and `Val(d)` of a source (R66, R70). `EffLen(d)` is its
`limbs`. -/
def val (s : State) (d : Word) : Except Stop Nat := memRead s.lm (base d) (len d)

/-- LM after the canonical write of v through d: the trimmed result at the base, zeros in the rest of the capacity (R69). -/
def writeCanonMem (m : Memory) (d : Word) (v : Nat) : Memory :=
  memWrite (memWrite m (base d) (limbs v) v) (base d + limbs v) (len d - limbs v) 0

/-- `WriteCanon(d, v)`: the state after the write; the descriptor it returns is `canonDesc d v` (R69). -/
def writeCanon (s : State) (d : Word) (v : Nat) : State := setLm s (writeCanonMem s.lm d v)

/-- The descriptor `WriteCanon(d, v)` returns (R69). -/
def canonDesc (d : Word) (v : Nat) : Word := resultDesc d (limbs v)

/-- Write v over a window at its raw width (R70). -/
def writeRaw (s : State) (d : Word) (v : Nat) : State := setLm s (memWrite s.lm (base d) (len d) v)

/-- Two windows share a word: both nonempty and each begins before the other ends (R142). -/
abbrev Overlap (q r : Word) : Prop := 0 < len q ∧ 0 < len r ∧ base q < base r + len r ∧ base r < base q + len q

end Sys2Proof.Machine
end

