-- ==== Sys2Proof/Machine/Divide.lean ====
section
/-! DEFINITION. The divider commands DIVMOD and DIVREM1 (42_divide.md R142, R150). Quotients and remainders are exact; the
algorithm is not architectural (R141, R145). Every operand is read from the state before the command (R11). -/

namespace Sys2Proof.Machine

/-- The quotient capacity DIVMOD needs for effective lengths Lx and Ly (R142, R143). -/
def quotientNeed (lx ly : Nat) : Nat := if ly ≤ lx then lx - ly + 1 else 0

/-- The remainder capacity DIVMOD needs (R142, R143). -/
def remainderNeed (lx ly : Nat) : Nat := min lx ly

/-- The rule of DIVMOD (R142): bounds of X, Y, Q, R; OVERLAP; DIVZERO; CAPACITY; then the quotient window, the remainder
window, x[rd], and x[rc] last (R148). -/
def divmodBody (rd ra rb rc : Reg) (s : State) : Except Stop State := do
  let X := getReg s ra
  let Y := getReg s rb
  let Q := getReg s rd
  let R := getReg s rc
  checkBounds s X
  checkBounds s Y
  checkBounds s Q
  checkBounds s R
  need (¬ Overlap Q R) .overlap
  let u ← val s X
  let v ← val s Y
  need (limbs v ≠ 0) .divzero
  need (quotientNeed (limbs u) (limbs v) ≤ len Q ∧ remainderNeed (limbs u) (limbs v) ≤ len R) .capacity
  let q := u / v
  let r := u % v
  .ok (setReg (setReg (writeCanon (writeCanon s Q q) R r) rd (canonDesc Q q)) rc (canonDesc R r))

/-- DIVMOD rd, ra, rb, rc (R142). -/
def execDivmod (rd ra rb rc : Reg) (s : State) : Host.Outcome State Fault Refusal :=
  finish (.divmod rd ra rb rc) s (divmodBody rd ra rb rc s)

/-- The rule of DIVREM1 (R150): the quotient in place at D's width, never trimmed; the remainder in rd. -/
def divrem1Body (rd ra rb : Reg) (s : State) : Except Stop State := do
  let D := getReg s ra
  let v := (getReg s rb).toNat
  checkBounds s D
  need (v ≠ 0) .divzero
  let u ← val s D
  .ok (setReg (writeRaw s D (u / v)) rd (BitVec.ofNat 32 (u % v)))

/-- DIVREM1 rd, ra, rb (R150). -/
def execDivrem1 (rd ra rb : Reg) (s : State) : Host.Outcome State Fault Refusal :=
  finish (.divrem1 rd ra rb) s (divrem1Body rd ra rb s)

end Sys2Proof.Machine
end

