-- ==== Sys2Proof/Machine/Multiply.lean ====
section
/-! DEFINITION. The multiplier commands MUL and MULADD1 (41_multiply.md R121, R126). Products are exact; the algorithm is not
architectural (R120, R124). Every operand is read from the state before the command (R11). -/

namespace Sys2Proof.Machine

/-- The rule of MUL (R121): bounds of X, Y, Z; the capacity for EffLen(X) + EffLen(Y); the canonical product (R122, R123). -/
def mulBody (rd ra rb : Reg) (s : State) : Except Stop State := do
  let X := getReg s ra
  let Y := getReg s rb
  let Z := getReg s rd
  checkBounds s X
  checkBounds s Y
  checkBounds s Z
  let a ← val s X
  let b ← val s Y
  need (limbs a + limbs b ≤ len Z) .capacity
  let p := a * b
  .ok (setReg (writeCanon s Z p) rd (canonDesc Z p))

/-- MUL rd, ra, rb (R121). -/
def execMul (rd ra rb : Reg) (s : State) : Host.Outcome State Fault Refusal :=
  finish (.mul rd ra rb) s (mulBody rd ra rb s)

/-- The rule of MULADD1 (R126): D*mult + addend, its low limbs in place at D's width, its carry-out in rd (R127). -/
def muladd1Body (rd ra rb rc : Reg) (s : State) : Except Stop State := do
  let D := getReg s ra
  let mult := (getReg s rb).toNat
  let addend := (getReg s rc).toNat
  checkBounds s D
  let d ← val s D
  let t := d * mult + addend
  .ok (setReg (writeRaw s D (t % 2 ^ (32 * len D))) rd (BitVec.ofNat 32 (t >>> (32 * len D))))

/-- MULADD1 rd, ra, rb, rc (R126). -/
def execMuladd1 (rd ra rb rc : Reg) (s : State) : Host.Outcome State Fault Refusal :=
  finish (.muladd1 rd ra rb rc) s (muladd1Body rd ra rb rc s)

end Sys2Proof.Machine
end

