-- ==== Sys2Proof/Machine/Sequencer.lean ====
section
/-! DEFINITION. The sequencing commands NOP, HALT, LIL, LIH and MOV (40_sequencer.md R105 to R109). None of them checks
anything, so each always commits. -/

namespace Sys2Proof.Machine

/-- NOP (R105): the commit alone. -/
def execNop (s : State) : Host.Outcome State Fault Refusal := finish .nop s (.ok s)

/-- HALT (R106): commit, BUSY falls, DONE rises. -/
def execHalt (s : State) : Host.Outcome State Fault Refusal := finish .halt s (.ok (haltStatus s))

/-- LIL (R107): `x[rd] <- {x[rd][31:16], imm16}`. -/
def execLil (rd : Reg) (imm : Half) (s : State) : Host.Outcome State Fault Refusal :=
  finish (.lil rd imm) s (.ok (setReg s rd ((getReg s rd).extractLsb' 16 16 ++ imm)))

/-- LIH (R108): `x[rd] <- {imm16, x[rd][15:0]}`. -/
def execLih (rd : Reg) (imm : Half) (s : State) : Host.Outcome State Fault Refusal :=
  finish (.lih rd imm) s (.ok (setReg s rd (imm ++ (getReg s rd).extractLsb' 0 16)))

/-- MOV (R109): `x[rd] <- x[ra]`. -/
def execMov (rd ra : Reg) (s : State) : Host.Outcome State Fault Refusal :=
  finish (.mov rd ra) s (.ok (setReg s rd (getReg s ra)))

end Sys2Proof.Machine
end

