-- ==== Sys2Proof/Machine/Shift.lean ====
section
/-! DEFINITION. The shifter and leading-zero counter commands NORM, SHL, SHR, SAR, CLZ and LZCA (43_shift_lzc.md R171 to
R185). Every operand is read from the state before the command (R11). -/

namespace Sys2Proof.Machine

/-- The rule of NORM (R175): bounds of S, T; shift below 32; the two lengths of R176; no bit off the left end; the shifted
value at T's raw width. No register is written. -/
def normBody (rd ra rb : Reg) (s : State) : Except Stop State := do
  let S := getReg s ra
  let T := getReg s rd
  let k := (getReg s rb).toNat
  checkBounds s S
  checkBounds s T
  need (k < 32) .outofrange
  need (len T = len S ∨ len T = len S + 1) .badlen
  let m ← val s S
  let v := shiftLeft m k
  need (v < 2 ^ (32 * len T)) .invalidop
  .ok (writeRaw s T v)

/-- NORM rd, ra, rb (R175). -/
def execNorm (rd ra rb : Reg) (s : State) : Host.Outcome State Fault Refusal :=
  finish (.norm rd ra rb) s (normBody rd ra rb s)

/-- `m * 2^k` for k ≥ 0 and `floor(m / 2^-k)` for k < 0, when it has at most `cap` limbs; CAPACITY otherwise (R180, R181). -/
def shiftMagnitude (m : Nat) (k : Int) (cap : Nat) : Except Stop Nat := do
  if 0 ≤ k then
    need (shiftLeftLimbs m k.toNat ≤ cap) .capacity
    .ok (shiftLeft m k.toNat)
  else
    let v := m >>> (-k).toNat
    need (limbs v ≤ cap) .capacity
    .ok v

/-- The common rule of SHL and SHR (R181, R182): bounds of X, Z; capacity for the exact result; the canonical write. The
amount is a left shift by k. -/
def shiftBody (rd ra : Reg) (k : Int) (s : State) : Except Stop State := do
  let X := getReg s ra
  let Z := getReg s rd
  checkBounds s X
  checkBounds s Z
  let m ← val s X
  let v ← shiftMagnitude m k (len Z)
  .ok (setReg (writeCanon s Z v) rd (canonDesc Z v))

/-- SHL rd, ra, rb (R181): the amount is `s32(x[rb])` (R180). -/
def execShl (rd ra rb : Reg) (s : State) : Host.Outcome State Fault Refusal :=
  finish (.shl rd ra rb) s (shiftBody rd ra (s32 (getReg s rb)) s)

/-- SHR rd, ra, rb (R182): a left shift by the exact negative of `s32(x[rb])` (R180). -/
def execShr (rd ra rb : Reg) (s : State) : Host.Outcome State Fault Refusal :=
  finish (.shr rd ra rb) s (shiftBody rd ra (- s32 (getReg s rb)) s)

/-- `floor(σm / 2^k)` for k ≥ 0 and `σm * 2^-k` for k < 0, when its magnitude has at most `cap` limbs; CAPACITY otherwise
(R184, R185). -/
def shiftSigned (σ : Int) (m : Nat) (k : Int) (cap : Nat) : Except Stop Int := do
  if 0 ≤ k then
    let w := (σ * m) >>> k.toNat
    need (limbs w.natAbs ≤ cap) .capacity
    .ok w
  else
    need (shiftLeftLimbs m (-k).toNat ≤ cap) .capacity
    .ok (σ * (shiftLeft m (-k).toNat : Nat))

/-- The sign register of SAR is a valid sign of the magnitude m (R184, R215). -/
abbrev GoodSign (σ : Int) (m : Nat) : Prop := (σ = -1 ∨ σ = 0 ∨ σ = 1) ∧ (σ = 0 ↔ m = 0)

/-- The rule of SAR (R184): bounds of X, Z; BADSIGN; CAPACITY; the canonical magnitude, x[rd], and the sign to x[rc] last. -/
def sarBody (rd ra rb rc : Reg) (s : State) : Except Stop State := do
  let X := getReg s ra
  let k := s32 (getReg s rb)
  let σ := s32 (getReg s rc)
  let Z := getReg s rd
  checkBounds s X
  checkBounds s Z
  let m ← val s X
  need (GoodSign σ m) .badsign
  let w ← shiftSigned σ m k (len Z)
  .ok (setReg (setReg (writeCanon s Z w.natAbs) rd (canonDesc Z w.natAbs)) rc (signWord w))

/-- SAR rd, ra, rb, rc (R184). -/
def execSar (rd ra rb rc : Reg) (s : State) : Host.Outcome State Fault Refusal :=
  finish (.sar rd ra rb rc) s (sarBody rd ra rb rc s)

/-- CLZ rd, ra (R171): it never faults. -/
def execClz (rd ra : Reg) (s : State) : Host.Outcome State Fault Refusal :=
  finish (.clz rd ra) s (.ok (setReg s rd (BitVec.ofNat 32 (clz32 (getReg s ra)))))

/-- The rule of LZCA (R173): bounds of A; `32*n - bitlen` over the raw window. -/
def lzcaBody (rd ra : Reg) (s : State) : Except Stop State := do
  let A := getReg s ra
  checkBounds s A
  let v ← val s A
  .ok (setReg s rd (BitVec.ofNat 32 (32 * len A - bitlen v)))

/-- LZCA rd, ra (R173). -/
def execLzca (rd ra : Reg) (s : State) : Host.Outcome State Fault Refusal :=
  finish (.lzca rd ra) s (lzcaBody rd ra s)

end Sys2Proof.Machine
end

