-- ==== Sys2Proof/Machine/Dispatch.lean ====
section
/-! DEFINITION. The meaning of each command: one arm per constructor of Instr (R86). -/

namespace Sys2Proof.Machine

def exec (i : Instr) (s : State) : Host.Outcome State Fault Refusal :=
  match i with
  -- 40_sequencer.md
  | .nop => Sys2Proof.Machine.execNop s
  | .halt => Sys2Proof.Machine.execHalt s
  | .lil rd imm => Sys2Proof.Machine.execLil rd imm s
  | .lih rd imm => Sys2Proof.Machine.execLih rd imm s
  | .mov rd ra => Sys2Proof.Machine.execMov rd ra s
  -- 41_multiply.md
  | .mul rd ra rb => Sys2Proof.Machine.execMul rd ra rb s
  | .muladd1 rd ra rb rc => Sys2Proof.Machine.execMuladd1 rd ra rb rc s
  -- 42_divide.md
  | .divmod rd ra rb rc => Sys2Proof.Machine.execDivmod rd ra rb rc s
  | .divrem1 rd ra rb => Sys2Proof.Machine.execDivrem1 rd ra rb s
  -- 43_shift_lzc.md
  | .norm rd ra rb => Sys2Proof.Machine.execNorm rd ra rb s
  | .shl rd ra rb => Sys2Proof.Machine.execShl rd ra rb s
  | .shr rd ra rb => Sys2Proof.Machine.execShr rd ra rb s
  | .sar rd ra rb rc => Sys2Proof.Machine.execSar rd ra rb rc s
  | .clz rd ra => Sys2Proof.Machine.execClz rd ra s
  | .lzca rd ra => Sys2Proof.Machine.execLzca rd ra s

end Sys2Proof.Machine
end

