-- ==== Sys2Proof/Machine/HostPort.lean ====
section
/-! DEFINITION. The host agent's accesses: the register block and the LM window behind the 0x50000-byte aperture (R29 to R46,
R63, R67), and power-on reset (R250). An access takes place between commands (R35, R71). -/

namespace Sys2Proof.Machine

/-- The register or LM word an offset names (R29). -/
inductive HostTarget where
  | id
  | ctrl
  | status
  | pc
  | einfo
  | param
  | x (r : Reg)
  | lm (address : Nat)
  | reserved
  deriving DecidableEq, Repr

/-- The map of R29: the target of a word-aligned byte offset, for the given LM_DEPTH. -/
def hostTarget (lmDepth : Nat) (offset : Nat) : HostTarget :=
  if offset = 0x000 then .id
  else if offset = 0x004 then .ctrl
  else if offset = 0x008 then .status
  else if offset = 0x00C then .pc
  else if offset = 0x010 then .einfo
  else if offset = 0x014 then .param
  else if 0x040 ≤ offset ∧ offset < 0x080 then .x (BitVec.ofNat 4 ((offset - 0x040) / 4))
  else if 0x10000 ≤ offset ∧ offset < 0x10000 + 4 * lmDepth then .lm ((offset - 0x10000) / 4)
  else .reserved

/-- The access is 32 bits wide at a multiple of 4, the only form performed (R67). -/
def wholeWord (offset bytes : Nat) : Bool := bytes = 4 ∧ offset % 4 = 0

/-- HACC rises: an access was not performed as addressed (R41). -/
def refuseAccess (s : State) : State := { s with hacc := true }

/-- A CTRL write (R33): SRST alone, at once between commands (R35); otherwise the IE bits, then START (R34). -/
def writeCtrl (s : State) (v : Word) : State :=
  if v.getLsbD 1 then softReset s
  else
    let t := { s with ieDone := v.getLsbD 2, ieErr := v.getLsbD 3 }
    if v.getLsbD 0 then (if s.busy then refuseAccess t else start t) else t

/-- A STATUS write (R42): clear each of DONE, ERR and HACC whose bit is 1; clearing ERR clears ECODE too (R40). -/
def writeStatus (s : State) (v : Word) : State :=
  { s with
    done := s.done && !v.getLsbD 1
    err := s.err && !v.getLsbD 2
    hacc := s.hacc && !v.getLsbD 3
    ecode := if v.getLsbD 2 then 0#8 else s.ecode }

/-- A host write (R29, R30, R41): what is not performed is dropped and sets HACC. -/
def hostWrite (s : State) (offset bytes : Nat) (v : Word) : State :=
  if wholeWord offset bytes then
    match hostTarget s.lmDepth offset with
    | .ctrl => writeCtrl s v
    | .status => writeStatus s v
    | .pc => if s.busy then refuseAccess s else { s with pc := v }
    | .x r => if s.busy then refuseAccess s else setReg s r v
    | .lm a => if s.busy then refuseAccess s else setLm s (Memory.writeWord s.lm a v)
    | .id => refuseAccess s
    | .einfo => refuseAccess s
    | .param => refuseAccess s
    | .reserved => refuseAccess s
  else refuseAccess s

/-- The state with the value a host read returned. -/
def returnData (s : State) (v : Word) : State := { s with hostData := v }

/-- A host read of an LM word: its value, or the next free value when it is unwritten since power-on (R22, R46, I1). -/
def readLm (s : State) (a : Nat) : State :=
  match Memory.readWord s.lm a with
  | some w => returnData s w
  | none => { returnData s (Config.freeWord s.draws) with draws := s.draws + 1 }

/-- A host read (R29, R30, R41): what is not performed returns 0 and sets HACC. No other read has a side effect (R71). -/
def hostRead (s : State) (offset bytes : Nat) : State :=
  if wholeWord offset bytes then
    match hostTarget s.lmDepth offset with
    | .id => returnData s Config.id
    | .ctrl => returnData s (ctrlWord s)
    | .status => returnData s (statusWord s)
    | .einfo => returnData s s.einfo
    | .param => returnData s (BitVec.ofNat 32 s.lmDepth)
    | .pc => if s.busy then returnData (refuseAccess s) 0#32 else returnData s s.pc
    | .x r => if s.busy then returnData (refuseAccess s) 0#32 else returnData s (getReg s r)
    | .lm a => if s.busy then returnData (refuseAccess s) 0#32 else readLm s a
    | .reserved => returnData (refuseAccess s) 0#32
  else returnData (refuseAccess s) 0#32

/-- One move of the host, in a state whose list of moves it has left already. `pass` is no access; the engine's step that it
lets through is taken by `issue`. -/
def hostMove (m : HostMove) (s : State) : State :=
  match m with
  | .pass => s
  | .read offset bytes => hostRead s offset.val bytes
  | .write offset bytes v => hostWrite s offset.val bytes v
  | .powerOn => powerOnReset s

end Sys2Proof.Machine
end

