-- ==== Sys2Proof/Machine/Fetch.lean ====
section
/-! DEFINITION. Who moves next, and the fetch and decode of a command (R100 to R102). Step.lean only joins this to exec. -/

namespace Sys2Proof.Machine

/-- What a step has come to before execution: a command to execute and the state it executes in, or the step's outcome. -/
inductive Issue where
  | command (i : Instr) (s : State)
  | done (o : Host.Outcome State Fault Refusal)

/-- The fetch (R101): FETCH when PC ≥ LM_DEPTH, an error of the model when the word is unwritten (I2), else the word. -/
def fetch (s : State) : Except Stop Word :=
  if s.lmDepth ≤ s.pc.toNat then .error (.trap .fetch)
  else
    match Memory.readWord s.lm s.pc.toNat with
    | some w => .ok w
    | none => .error (.model (.fetchUnwritten s.pc.toNat))

/-- The engine's turn: nothing while idle (R100, R254); otherwise fetch and decode, with FETCH and ILLEGAL taken here
(R102, R212, R213). -/
def engineTurn (s : State) : Issue :=
  if s.busy then
    match fetch s with
    | .error (.trap c) => .done (.next (takeFault c 0#32 s))
    | .error (.model f) => .done (.fault f)
    | .ok w =>
      match decode w with
      | .ok i => .command i s
      | .error _ => .done (.next (takeFault .illegal w s))
  else .done (.next s)

/-- The next mover (log 5): the host's next access when there is one due, else the engine. -/
def issue (s : State) : Issue :=
  match s.hostMoves with
  | [] => engineTurn s
  | .pass :: rest => engineTurn { s with hostMoves := rest }
  | .read offset bytes :: rest => .done (.next (hostMove (.read offset bytes) { s with hostMoves := rest }))
  | .write offset bytes v :: rest => .done (.next (hostMove (.write offset bytes v) { s with hostMoves := rest }))
  | .powerOn :: rest => .done (.next (hostMove .powerOn { s with hostMoves := rest }))

/-- The state with a word at PC, written and started by the host's START (R255), the engine moving next (log 11). -/
def placeCommand (s : State) (w : Word) : State :=
  start { s with
    lm := Memory.writeWord s.lm s.pc.toNat w
    hostMoves := if s.hostMoves = [] then [] else .pass :: s.hostMoves }

end Sys2Proof.Machine
end

