-- ==== Sys2Proof/Machine/Step.lean ====
section
/-! DEFINITION. One step of the machine: one access of the host, or one whole command of the engine (R100, R103, R104). -/

namespace Sys2Proof.Machine

/-- One step (R100): what the next mover issues, executed when it is a command. -/
def step (s : State) : Host.Outcome State Fault Refusal :=
  match issue s with
  | .command i t => exec i t
  | .done o => o

/-- The state with the command word w (its bits from nbits up 0) at PC and the engine started, so that the next step fetches
and runs it (log 11). -/
def State.withFetchWord (s : State) (nbits w : Nat) : State := placeCommand s (BitVec.ofNat 32 (w % 2 ^ nbits))

end Sys2Proof.Machine
end

