-- ==== Sys2Proof/Machine/Algorithms.lean ====
section
/-! DEFINITION. The four informative algorithms of the spec, on arrays of limbs with index 0 most significant: the
schoolbook product (R125), Knuth's Algorithm D (R145), the short division (R151) and the one-pass Normalize (R177). No command
is defined by them: R121, R126, R142, R150 and R175 are (R124, R141). That they compute those rules' values is stated as
obligations. -/

namespace Sys2Proof.Machine

/-- The value of an array of limbs (R9). -/
def limbsValue (a : List Word) : Nat :=
  match a with
  | [] => 0
  | w :: rest => w.toNat * 2 ^ (32 * rest.length) + limbsValue rest

/-- Element i of an array, 0 past its end (never read there). -/
def limbAt (a : List Word) (i : Nat) : Nat := (a.getD i 0#32).toNat

/-- Drop the leading zero limbs. -/
def trimLimbs (a : List Word) : List Word := a.dropWhile (· = 0#32)

/-- The n-limb form of v, most significant first (R10's MemWrite). -/
def toLimbs (n v : Nat) : List Word :=
  match n with
  | 0 => []
  | n + 1 => BitVec.ofNat 32 (v >>> (32 * n)) :: toLimbs n v

/-- The inner loop of R125, for one digit of x at index i: j runs from the given count down to 0, then `z[i] = carry`. -/
def schoolbookRow (xi : Nat) (y : List Word) (i j carry : Nat) (z : List Word) : List Word :=
  match j with
  | 0 => z.set i (BitVec.ofNat 32 carry)
  | j + 1 =>
    let k := i + j + 1
    let product := xi * limbAt y j + limbAt z k + carry
    schoolbookRow xi y i j (product / 2 ^ 32) (z.set k (BitVec.ofNat 32 product))

/-- The outer loop of R125: i runs from the given count down to 0. -/
def schoolbookLoop (x y : List Word) (i : Nat) (z : List Word) : List Word :=
  match i with
  | 0 => z
  | i + 1 => schoolbookLoop x y i (schoolbookRow (limbAt x i) y i y.length 0 z)

/-- R125: the schoolbook product, trimmed. -/
def schoolbook (x y : List Word) : List Word :=
  trimLimbs (schoolbookLoop x y x.length (List.replicate (x.length + y.length) 0#32))

/-- R151: one word divided into an array, most significant limb first, from a running remainder; the quotient's limbs and
the last remainder. -/
def shortDivide (v rem : Nat) (data : List Word) : List Word × Nat :=
  match data with
  | [] => ([], rem)
  | d :: rest =>
    let cur := rem * 2 ^ 32 + d.toNat
    let next := shortDivide v (cur % v) rest
    (BitVec.ofNat 32 (cur / v) :: next.1, next.2)

/-- The loop of R177, from the least significant limb up: the limbs shifted left by s, and the last carry. -/
def normalizeLoop (s : Nat) (src : List Word) : List Word × Nat :=
  match src with
  | [] => ([], 0)
  | d :: rest =>
    let low := normalizeLoop s rest
    (BitVec.ofNat 32 ((d.toNat <<< s) ||| low.2) :: low.1, if s = 0 then 0 else d.toNat >>> (32 - s))

/-- R177 for `dn = sn + 1`: the last carry is the spillover digit in front. -/
def normalizeWide (s : Nat) (src : List Word) : List Word :=
  let low := normalizeLoop s src
  BitVec.ofNat 32 low.2 :: low.1

/-- The correction loop of R145 step 3: qhat and rhat, corrected down while `qhat = 2^32` or `qhat*yn[1] > rhat*2^32 + x2`,
leaving once `rhat ≥ 2^32` (R146). Each pass adds yn[0] ≥ 2^31 to rhat, so two passes always leave it. -/
def correctQhat (y0 y1 x2 : Nat) (passes qhat rhat : Nat) : Nat :=
  match passes with
  | 0 => qhat
  | passes + 1 =>
    if qhat = 2 ^ 32 ∨ rhat * 2 ^ 32 + x2 < qhat * y1 then
      let rhat' := rhat + y0
      if 2 ^ 32 ≤ rhat' then qhat - 1 else correctQhat y0 y1 x2 passes (qhat - 1) rhat'
    else qhat

/-- One digit of R145 step 3: the quotient digit at j and the window of t+1 limbs with its multiple of yn subtracted, one yn
added back when the result went negative. -/
def knuthDigit (yn window : List Word) : Nat × List Word :=
  let num := limbAt window 0 * 2 ^ 32 + limbAt window 1
  let qhat := correctQhat (limbAt yn 0) (limbAt yn 1) (limbAt window 2) 2 (num / limbAt yn 0) (num % limbAt yn 0)
  let w : Int := (limbsValue window : Int) - qhat * limbsValue yn
  if w < 0 then (qhat - 1, toLimbs (yn.length + 1) (w + limbsValue yn).toNat)
  else (qhat, toLimbs (yn.length + 1) w.toNat)

/-- The loop of R145 step 3 over the digits of xn: `high` is the window's first t limbs and `low` the limbs not yet taken. The
quotient's digits, and the last t limbs. -/
def knuthLoop (yn high low : List Word) : List Word × List Word :=
  match low with
  | [] => ([], high)
  | d :: rest =>
    let digit := knuthDigit yn (high ++ [d])
    let next := knuthLoop yn digit.2.tail rest
    (BitVec.ofNat 32 digit.1 :: next.1, next.2)

/-- R145: quotient and remainder of trimmed u by trimmed v of at least two limbs: normalize by v's leading zeros (x into a
buffer one limb longer), the digit loop, unnormalize the remainder. -/
def knuthDivide (u v : List Word) : Nat × Nat :=
  let s := clz32 (v.getD 0 0#32)
  let yn := toLimbs v.length (limbsValue v <<< s)
  let xn := toLimbs (u.length + 1) (limbsValue u <<< s)
  let digits := knuthLoop yn (xn.take v.length) (xn.drop v.length)
  (limbsValue digits.1, limbsValue digits.2 >>> s)

end Sys2Proof.Machine
end

