-- ==== Sys2Proof/Machine/Assembler.lean ====
section
/-! DEFINITION. The assembler syntax of R92 and the pseudo-instructions of R93. Assembling is done on the host's side and no
step depends on it; it says which words a program text stands for. Text is a list of characters. What R92 leaves
open (the case and the characters of labels, a label with no word after it, a word placed twice) is in log 20. -/

namespace Sys2Proof.Machine

/-- `LI xd, imm32`: LIL of the low half, then LIH of the high half; always both (R93). -/
def expandLi (rd : Reg) (imm : Word) : List Instr := [.lil rd (imm.extractLsb' 0 16), .lih rd (imm.extractLsb' 16 16)]

/-- `DESC xd, base, len`: LI of the descriptor (R93, R64). -/
def expandDesc (rd : Reg) (base len : Half) : List Instr := expandLi rd (len ++ base)

/-- `CLR xd`: LI of 0 (R93). -/
def expandClr (rd : Reg) : List Instr := expandLi rd 0#32

/-- A value operand of LI and DESC: a number, or a label that names an LM address (R92). -/
inductive AsmValue where
  | number (n : Nat)
  | label (name : List Char)
  deriving DecidableEq, Repr

/-- One item of a program (R92, R93). -/
inductive AsmItem where
  | command (i : Instr)
  | li (rd : Reg) (v : AsmValue)
  | desc (rd : Reg) (base len : AsmValue)
  | label (name : List Char)
  | word (v : Nat)
  | org (a : Nat)
  deriving DecidableEq, Repr

/-- The operand list of a mnemonic, in field order (R92). -/
inductive AsmShape where
  | bare (i : Instr)
  | regImm (f : Reg → Half → Instr)
  | reg2 (f : Reg → Reg → Instr)
  | reg3 (f : Reg → Reg → Reg → Instr)
  | reg4 (f : Reg → Reg → Reg → Reg → Instr)

/-- The mnemonics of R92, in lower case, with their operands. -/
def asmShapes : List (List Char × AsmShape) := [
  (['n', 'o', 'p'], .bare .nop), (['h', 'a', 'l', 't'], .bare .halt),
  (['l', 'i', 'l'], .regImm .lil), (['l', 'i', 'h'], .regImm .lih), (['m', 'o', 'v'], .reg2 .mov),
  (['m', 'u', 'l'], .reg3 .mul), (['m', 'u', 'l', 'a', 'd', 'd', '1'], .reg4 .muladd1),
  (['d', 'i', 'v', 'm', 'o', 'd'], .reg4 .divmod), (['d', 'i', 'v', 'r', 'e', 'm', '1'], .reg3 .divrem1),
  (['n', 'o', 'r', 'm'], .reg3 .norm), (['s', 'h', 'l'], .reg3 .shl), (['s', 'h', 'r'], .reg3 .shr),
  (['s', 'a', 'r'], .reg4 .sar), (['c', 'l', 'z'], .reg2 .clz), (['l', 'z', 'c', 'a'], .reg2 .lzca)]

/-- The value of one digit, of at most 16. -/
def digitValue (c : Char) : Option Nat :=
  let n := c.toLower.toNat
  if 48 ≤ n ∧ n ≤ 57 then some (n - 48) else if 97 ≤ n ∧ n ≤ 102 then some (n - 87) else none

/-- Digits in a radix, after a value read so far. -/
def parseDigits (radix : Nat) (ds : List Char) (acc : Nat) : Option Nat :=
  match ds with
  | [] => some acc
  | c :: cs =>
    match digitValue c with
    | some d => if d < radix then parseDigits radix cs (acc * radix + d) else none
    | none => none

/-- A number: decimal, or hexadecimal after 0x (R92). -/
def parseNumber (t : List Char) : Option Nat :=
  match t with
  | '0' :: 'x' :: d :: ds => parseDigits 16 (d :: ds) 0
  | d :: ds => parseDigits 10 (d :: ds) 0
  | [] => none

/-- A register name, in either case: one of the sixteen spellings x0 to x15, so that x07 names none (R92, log 20). -/
def parseReg (t : List Char) : Option Reg :=
  match t with
  | [c, d] => if c.toLower = 'x' then (parseDigits 10 [d] 0).map (BitVec.ofNat 4) else none
  | [c, '1', d] =>
    if c.toLower = 'x' then
      match parseDigits 10 [d] 1 with
      | some n => if n < 16 then some (BitVec.ofNat 4 n) else none
      | none => none
    else none
  | _ => none

/-- An immediate, in 0 .. 65535 (R92). -/
def parseImm (t : List Char) : Option Half :=
  match parseNumber t with
  | some n => if n < 2 ^ 16 then some (BitVec.ofNat 16 n) else none
  | none => none

/-- A value of LI or DESC: a number when it reads as one, else a label. -/
def parseValue (t : List Char) : Option AsmValue :=
  match parseNumber t with
  | some n => some (.number n)
  | none => if t = [] then none else some (.label t)

/-- Blanks around a token dropped. -/
def trimBlanks (t : List Char) : List Char :=
  ((t.dropWhile Char.isWhitespace).reverse.dropWhile Char.isWhitespace).reverse

/-- A mnemonic's command from its operands. -/
def parseCommand (shape : AsmShape) (ops : List (List Char)) : Option Instr :=
  match shape, ops with
  | .bare i, [] => some i
  | .regImm f, [d, v] => do some (f (← parseReg d) (← parseImm v))
  | .reg2 f, [d, a] => do some (f (← parseReg d) (← parseReg a))
  | .reg3 f, [d, a, b] => do some (f (← parseReg d) (← parseReg a) (← parseReg b))
  | .reg4 f, [d, a, b, c] => do some (f (← parseReg d) (← parseReg a) (← parseReg b) (← parseReg c))
  | _, _ => none

/-- A statement: a mnemonic or directive in lower case, with its operands (R92, R93). -/
def parseStatement (name : List Char) (ops : List (List Char)) : Option AsmItem :=
  match asmShapes.find? (fun p => p.1 = name) with
  | some (_, shape) => (parseCommand shape ops).map .command
  | none =>
    match ops with
    | [d] =>
      if name = ['c', 'l', 'r'] then (parseReg d).map (fun r => .li r (.number 0))
      else if name = ['.', 'w', 'o', 'r', 'd'] then (parseNumber d).map .word
      else if name = ['.', 'o', 'r', 'g'] then (parseNumber d).map .org
      else none
    | [d, v] => if name = ['l', 'i'] then do some (.li (← parseReg d) (← parseValue v)) else none
    | [d, b, l] =>
      if name = ['d', 'e', 's', 'c'] then do some (.desc (← parseReg d) (← parseValue b) (← parseValue l)) else none
    | _ => none

/-- The statement of a line, if it has one. The name is read in any case: R92 says so of mnemonics, and for the directives
`.word` and `.org` it is the model's choice (DESIGN CHOICE, log 20). -/
def parseBody (t : List Char) : Option (List AsmItem) :=
  match trimBlanks t with
  | [] => some []
  | c :: cs =>
    let name := ((c :: cs).takeWhile (fun k => ! k.isWhitespace)).map Char.toLower
    let rest := trimBlanks ((c :: cs).dropWhile (fun k => ! k.isWhitespace))
    let ops := if rest = [] then [] else (rest.splitOn ',').map trimBlanks
    (parseStatement name ops).map (fun i => [i])

/-- One line: an optional `label:`, an optional statement, an optional comment from `;` on (R92). -/
def parseLine (line : List Char) : Option (List AsmItem) :=
  let t := line.takeWhile (· ≠ ';')
  if ':' ∈ t then
    (parseBody ((t.dropWhile (· ≠ ':')).drop 1)).map (fun is => .label (trimBlanks (t.takeWhile (· ≠ ':'))) :: is)
  else parseBody t

/-- The items of a program text (R92). -/
def parseProgram (text : List Char) : Option (List AsmItem) := ((text.splitOn '\n').mapM parseLine).map List.flatten

/-- The address after an item placed at an address (R92, R93). R92 gives the address of an `.org` no range: any number is
taken, also past LM_DEPTH (DESIGN CHOICE, log 20). -/
def nextAddress (i : AsmItem) (a : Nat) : Nat :=
  match i with
  | .command _ => a + 1
  | .li _ _ => a + 2
  | .desc _ _ _ => a + 2
  | .label _ => a
  | .word _ => a + 1
  | .org b => b

/-- The address of the next word the items place, from an address on: each `.org` on the way to it sets it (R92). With no
word left it is the address one would get (log 20). -/
def nextWordAddress (items : List AsmItem) (a : Nat) : Nat :=
  match items with
  | .label _ :: rest => nextWordAddress rest a
  | .org b :: rest => nextWordAddress rest b
  | _ => a

/-- The labels of a program, each with the address of the next word, beyond any `.org` before that word (R92, log 20). -/
def asmLabels (items : List AsmItem) (a : Nat) : List (List Char × Nat) :=
  match items with
  | [] => []
  | .label n :: rest => (n, nextWordAddress rest a) :: asmLabels rest a
  | i :: rest => asmLabels rest (nextAddress i a)

/-- The number a value stands for. -/
def valueOf (labels : List (List Char × Nat)) (v : AsmValue) : Option Nat :=
  match v with
  | .number n => some n
  | .label n => (labels.find? (fun p => p.1 = n)).map Prod.snd

/-- The words of one item, when its numbers are in range (R92, R93). -/
def itemWords (labels : List (List Char × Nat)) (i : AsmItem) : Option (List Word) :=
  match i with
  | .command c => some [encode c]
  | .li rd v => do
    let n ← valueOf labels v
    if n < 2 ^ 32 then some ((expandLi rd (BitVec.ofNat 32 n)).map encode) else none
  | .desc rd b l => do
    let m ← valueOf labels b
    let n ← valueOf labels l
    if m < 2 ^ 16 ∧ n < 2 ^ 16 then
      some ((expandDesc rd (BitVec.ofNat 16 m) (BitVec.ofNat 16 n)).map encode)
    else none
  | .label _ => some []
  | .word v => if v < 2 ^ 32 then some [BitVec.ofNat 32 v] else none
  | .org _ => some []

/-- Words placed at consecutive addresses. -/
def placeAt (a : Nat) (ws : List Word) : List (Nat × Word) :=
  match ws with
  | [] => []
  | w :: rest => (a, w) :: placeAt (a + 1) rest

/-- The words of a program and their LM addresses, from an address on (R92, R93). -/
def asmWords (labels : List (List Char × Nat)) (items : List AsmItem) (a : Nat) : Option (List (Nat × Word)) :=
  match items with
  | [] => some []
  | i :: rest => do
    let ws ← itemWords labels i
    let more ← asmWords labels rest (nextAddress i a)
    some (placeAt a ws ++ more)

/-- The LM words a program text stands for, from address 0 (R92); none when it is not of the syntax. -/
def assemble (text : List Char) : Option (List (Nat × Word)) := do
  let items ← parseProgram text
  asmWords (asmLabels items 0) items 0

end Sys2Proof.Machine
end

