-- ==== Sys2Proof/Safety.lean ====
section
/-! DEFINITION. The terms claims are made in: the invariant every step keeps, what a commit and a fault leave unchanged, and
what a result window holds. -/

namespace Sys2Proof.Machine

/-! ### The invariant -/

/-- Every listed byte belongs to a word that is wholly written: LM words are written or unwritten as wholes (R22). -/
abbrev WholeWords (m : Memory) : Prop := ∀ c ∈ m, (Memory.readWord m (c.1 / 4)).isSome

/-- Every listed byte lies in LM (R21). -/
abbrev InsideLm (m : Memory) (depth : Nat) : Prop := ∀ c ∈ m, c.1 < 4 * depth

/-- STATUS is consistent: BUSY excludes DONE and ERR (R38); ECODE is a code of R211 while ERR = 1, else 0 (R37). -/
abbrev StatusConsistent (s : State) : Prop :=
  (s.busy = true → s.done = false ∧ s.err = false) ∧ (s.done = true → s.err = false) ∧
    (s.err = false → s.ecode = 0#8) ∧ (s.err = true → 1 ≤ s.ecode.toNat ∧ s.ecode.toNat ≤ 10)

/-- LM_DEPTH is in its range (R6). -/
abbrev DepthInRange (s : State) : Prop := 1 ≤ s.lmDepth ∧ s.lmDepth ≤ 65536

/-- The invariant: LM is canonical, of whole words and inside its depth, STATUS is consistent, LM_DEPTH in range. -/
abbrev StateInv (s : State) : Prop :=
  Memory.wf s.lm ∧ WholeWords s.lm ∧ InsideLm s.lm s.lmDepth ∧ StatusConsistent s ∧ DepthInRange s

/-! ### Runs -/

/-- A run of k steps, stopping at the first stop of the model. -/
def run (k : Nat) (s : State) : Host.Outcome State Fault Refusal := Host.Core.run core k s

/-! ### What a command leaves -/

/-- The engine moves next: no access of the host is due, or the host lets this step pass (log 5); u is the state it moves
in. -/
def EngineMoves (s u : State) : Prop :=
  (s.hostMoves = [] ∧ u = s) ∨ ∃ rest, s.hostMoves = .pass :: rest ∧ u = { s with hostMoves := rest }

/-- The state fault entry leaves (R216): only BUSY, ERR, ECODE and EINFO differ. -/
def faulted (s : State) (code : BitVec 8) (w : Word) : State :=
  { s with busy := false, err := true, ecode := code, einfo := w }

/-- Every register but the listed ones reads as before. -/
def RegsKept (s t : State) (written : List Reg) : Prop := ∀ r, r ∉ written → getReg t r = getReg s r

/-- Every byte of LM reads as before. -/
def LmKept (s t : State) : Prop := ∀ k, Memory.readByte t.lm k = Memory.readByte s.lm k

/-- Every byte of LM outside the window of descriptor d reads as before. -/
def LmKeptOutside (s t : State) (d : Word) : Prop :=
  ∀ k, k < 4 * base d ∨ 4 * (base d + len d) ≤ k → Memory.readByte t.lm k = Memory.readByte s.lm k

/-- A commit (R103): nothing but LM, the registers and PC differs, and PC is one more. -/
def Commits (s t : State) : Prop := t = { s with lm := t.lm, x := t.x, pc := s.pc + 1#32 }

/-- How a command that answers a next state leaves everything that is neither LM nor a register: a commit, or a fault with
one of R211's codes that left LM and registers alone. -/
def CommitsOrFaults (i : Instr) (s t : State) : Prop :=
  Commits s t ∨ ∃ c : FaultCode, t = faulted s c.ecode (encode i)

/-- The window of d holds v as the canonical write leaves it (R69): the trimmed value at the base, zeros in the rest. -/
def HoldsCanon (t : State) (d : Word) (v : Nat) : Prop :=
  memRead t.lm (base d) (limbs v) = .ok v ∧
    ∀ a, base d + limbs v ≤ a → a < base d + len d → Memory.readWord t.lm a = some 0#32

/-- A register holds the descriptor of a canonical result v written through d (R69): d's base, the trimmed length. -/
def IsResultOf (r d : Word) (v : Nat) : Prop := base r = base d ∧ len r = limbs v

/-- The leading-zero count n of a w-bit field of value v (R170): v fits in w - n bits and in no fewer; n is w for 0. -/
def IsLeadingZeros (n w v : Nat) : Prop :=
  n ≤ w ∧ v < 2 ^ (w - n) ∧ (v ≠ 0 → 2 ^ (w - n) ≤ 2 * v) ∧ (v = 0 → n = w)

/-- The lowest word of d's window that is unwritten since power-on stands at address a (R22). -/
def FirstUnwritten (s : State) (d : Word) (a : Nat) : Prop :=
  base d ≤ a ∧ a < base d + len d ∧ Memory.readWord s.lm a = none ∧
    ∀ b, base d ≤ b → b < a → (Memory.readWord s.lm b).isSome

end Sys2Proof.Machine
end

