-- ==== Sys2Proof/Certificates/Slice0/Obligations.lean ====
section
/-! DEFINITION. The statements for the provers, from the numbered rules of spec/. Each holds for every LM_DEPTH a state may
carry. Values of descriptors, windows and fault codes are written out here; `val`, `memRead`, `base`, `len`, `limbs` and
`getReg` are the model's reads. -/

open Sys2Proof Sys2Proof.Machine

/-! ### Encoding -/

/-- One command word of each family, written out bit by bit from R81 to R83 and R86, decodes to its command. -/
def Obligations.SpecWordsDecode : Prop :=
  decode 0b00000100000000000000000000000000#32 = .ok .nop ∧
  decode 0b00010000010000001011111011101111#32 = .ok (.lil 1#4 0xBEEF#16) ∧
  decode 0b01000100010001010001010000000000#32 = .ok (.muladd1 1#4 1#4 4#4 5#4) ∧
  decode 0b01100000110001001001000000000000#32 = .ok (.divmod 3#4 1#4 2#4 4#4) ∧
  decode 0b10001100100001001101000000000000#32 = .ok (.sar 2#4 1#4 3#4 4#4) ∧
  decode 0b10010100110010000000000000000000#32 = .ok (.lzca 3#4 2#4) ∧
  decode 0b00000000000000000000000000000000#32 = .error .unassignedOp ∧
  decode 0b01000000110001001000010000000000#32 = .error .unusedField ∧
  decode 0b00000100000000000000000000000001#32 = .error .reservedBits

/-- Decoding the word of any command, with any operands, gives that command back (R81 to R86, R91). -/
def Obligations.DecodeOfEncode : Prop := ∀ i : Instr, decode (encode i) = .ok i

/-- A word that decodes to a command is that command's only word (R86): EINFO of a fault is determined by the command. -/
def Obligations.EncodeOfDecode : Prop := ∀ (w : Word) (i : Instr), decode w = .ok i → encode i = w

/-- The words that decode are exactly those whose opcode is assigned, whose unused fields are 0 (R87) and whose reserved
bits are 0 (R88), which R89 lists as the legal ones. -/
def Obligations.LegalWordsAreWellFormed : Prop :=
  ∀ w : Word, (∃ i, decode w = .ok i) ↔ opAssigned w = true ∧ unusedFieldsZero w = true ∧ reservedBitsZero w = true

/-- At most one row of R86 matches any word. -/
def Obligations.AtMostOneRowMatches : Prop :=
  ∀ w : Word, (opcodeRows.filter (fun r => r.matchesWord w)).length ≤ 1

/-! ### The step -/

/-- A busy engine that moves next, at a PC inside LM whose word decodes to i: the step is exec of i, and nothing is added
around it (R100 to R103) but that a `pass` of the host is taken off its list (log 5). -/
def Obligations.StepRunsTheDecodedCommand : Prop :=
  ∀ (s u : State) (w : Word) (i : Instr), EngineMoves s u → s.busy = true → s.pc.toNat < s.lmDepth →
    Memory.readWord s.lm s.pc.toNat = some w → decode w = .ok i → step s = exec i u

/-- R213: a fetch at PC ≥ LM_DEPTH takes FETCH, code 2, with EINFO 0 and no word read, whether or not the host has later
accesses (log 5). -/
def Obligations.FetchOutsideLmFaults : Prop :=
  ∀ s u : State, EngineMoves s u → s.busy = true → s.lmDepth ≤ s.pc.toNat → step s = .next (faulted u 2#8 0#32)

/-- R212: an illegal word takes ILLEGAL, code 1, and EINFO receives the word, whether or not the host has later accesses
(log 5). -/
def Obligations.IllegalWordFaults : Prop :=
  ∀ (s u : State) (w : Word), EngineMoves s u → s.busy = true → s.pc.toNat < s.lmDepth →
    Memory.readWord s.lm s.pc.toNat = some w →
    ¬ (opAssigned w = true ∧ unusedFieldsZero w = true ∧ reservedBitsZero w = true) →
    step s = .next (faulted u 1#8 w)

/-- A fetch of a word unwritten since power-on stops the model, naming the address, whether or not the host has later
accesses (log 5); the rule is the spec's, that the stop is a Fault of the model is log 3. -/
def Obligations.UnwrittenFetchStops : Prop :=
  ∀ s u : State, EngineMoves s u → s.busy = true → s.pc.toNat < s.lmDepth →
    Memory.readWord s.lm s.pc.toNat = none → step s = .fault (.fetchUnwritten s.pc.toNat)

/-- While BUSY = 0 the engine takes no step: with no host access due the state stays as it is (log 7). -/
def Obligations.IdleEngineTakesNoStep : Prop :=
  ∀ s : State, s.busy = false → (s.hostMoves = [] → step s = .next s) ∧
    (∀ rest, s.hostMoves = .pass :: rest → step s = .next { s with hostMoves := rest })

/-- A command that answers a next state either commits, PC one more and only HALT moving a status bit, or faults with PC,
LM and every register as before. -/
def Obligations.CommandCommitsOrFaultsWhole : Prop :=
  ∀ (i : Instr) (s t : State), exec i s = .next t →
    (i ≠ .halt → CommitsOrFaults i s t) ∧
    (i = .halt → t = { s with pc := s.pc + 1#32, busy := false, done := true })

/-- No command is refused, and a command stops the model only at a word of LM that is unwritten since power-on, which it
names (R222's model error). -/
def Obligations.CommandsStopOnlyAtUnwrittenWords : Prop :=
  ∀ (i : Instr) (s : State), (∀ r, exec i s ≠ .refused r) ∧
    ∀ f, exec i s = .fault f → ∃ a, f = .readUnwritten a ∧ a < s.lmDepth ∧ Memory.readWord s.lm a = none

/-- No engine step moves PC but by one: when the engine moves next, whether or not the host has later accesses (log 5), PC
stays (a fault, or idle) or is one more (a commit). -/
def Obligations.EngineMovesPcByAtMostOne : Prop :=
  ∀ s u t : State, EngineMoves s u → step s = .next t → t.pc = s.pc ∨ t.pc = s.pc + 1#32

/-! ### Sequencing commands -/

/-- R105, whole: NOP's word, and that it always commits, changing PC alone. -/
def Obligations.NopRule : Prop :=
  encode .nop = 0x04000000#32 ∧ ∀ s : State, exec .nop s = .next { s with pc := s.pc + 1#32 }

/-- R106, whole: HALT's word; it commits, BUSY falls, DONE rises, PC is the word after; with IE_DONE the interrupt line is
raised; a START then continues from there. -/
def Obligations.HaltRule : Prop :=
  encode .halt = 0x08000000#32 ∧
  ∀ s : State, exec .halt s = .next { s with pc := s.pc + 1#32, busy := false, done := true } ∧
    (s.ieDone = true → irq { s with pc := s.pc + 1#32, busy := false, done := true } = true) ∧
    (start { s with pc := s.pc + 1#32, busy := false, done := true }).pc = s.pc + 1#32

/-- R107, whole: LIL's match and mask; it always commits; bits [15:0] of x[rd] become imm16 and bits [31:16] are kept. -/
def Obligations.LilRule : Prop :=
  ∀ (rd : Reg) (imm : Half), encode (.lil rd imm) &&& 0xFC3F0000#32 = 0x10000000#32 ∧
    ∀ s : State, ∃ t, exec (.lil rd imm) s = .next t ∧ Commits s t ∧ t.lm = s.lm ∧ RegsKept s t [rd] ∧
      (getReg t rd).extractLsb' 0 16 = imm ∧ (getReg t rd).extractLsb' 16 16 = (getReg s rd).extractLsb' 16 16

/-- R108, whole: LIH's match and mask; it always commits; bits [31:16] of x[rd] become imm16 and bits [15:0] are kept. -/
def Obligations.LihRule : Prop :=
  ∀ (rd : Reg) (imm : Half), encode (.lih rd imm) &&& 0xFC3F0000#32 = 0x14000000#32 ∧
    ∀ s : State, ∃ t, exec (.lih rd imm) s = .next t ∧ Commits s t ∧ t.lm = s.lm ∧ RegsKept s t [rd] ∧
      (getReg t rd).extractLsb' 16 16 = imm ∧ (getReg t rd).extractLsb' 0 16 = (getReg s rd).extractLsb' 0 16

/-- R109, whole: MOV's match and mask; it always commits; x[rd] becomes x[ra], also when rd = ra. -/
def Obligations.MovRule : Prop :=
  ∀ rd ra : Reg, encode (.mov rd ra) &&& 0xFC03FFFF#32 = 0x18000000#32 ∧
    ∀ s : State, ∃ t, exec (.mov rd ra) s = .next t ∧ Commits s t ∧ t.lm = s.lm ∧ RegsKept s t [rd] ∧
      getReg t rd = getReg s ra

/-- The pseudo-instruction LI loads any 32-bit value: its two commands always commit, leave that value in xd, every other
register as before, and PC two more. -/
def Obligations.LiLoadsAnyWord : Prop :=
  ∀ (s : State) (rd : Reg) (v : Word), ∃ t u i j, expandLi rd v = [i, j] ∧ exec i s = .next t ∧ exec j t = .next u ∧
    getReg u rd = v ∧ RegsKept s u [rd] ∧ u = { s with x := u.x, pc := s.pc + 2#32 }

/-! ### Multiplier -/

/-- R121, whole: MUL's match and mask; BOUNDS when X, Y or Z passes LM; CAPACITY when Z is shorter than the two effective
lengths together; otherwise Z's window holds the exact product canonically, x[rd] its descriptor, nothing else changed. -/
def Obligations.MulRule : Prop :=
  ∀ rd ra rb : Reg, encode (.mul rd ra rb) &&& 0xFC003FFF#32 = 0x40000000#32 ∧
    ∀ s : State,
      let X := getReg s ra; let Y := getReg s rb; let Z := getReg s rd
      (¬ (base X + len X ≤ s.lmDepth ∧ base Y + len Y ≤ s.lmDepth ∧ base Z + len Z ≤ s.lmDepth) →
        exec (.mul rd ra rb) s = .next (faulted s 3#8 (encode (.mul rd ra rb)))) ∧
      (base X + len X ≤ s.lmDepth → base Y + len Y ≤ s.lmDepth → base Z + len Z ≤ s.lmDepth →
        ∀ a b, val s X = .ok a → val s Y = .ok b →
          (len Z < limbs a + limbs b →
            exec (.mul rd ra rb) s = .next (faulted s 5#8 (encode (.mul rd ra rb)))) ∧
          (limbs a + limbs b ≤ len Z → ∃ t, exec (.mul rd ra rb) s = .next t ∧ Commits s t ∧
            RegsKept s t [rd] ∧ LmKeptOutside s t Z ∧ HoldsCanon t Z (a * b) ∧
            IsResultOf (getReg t rd) Z (a * b)))

/-- R126, whole: MULADD1's match and mask; BOUNDS when D passes LM; otherwise D's window holds the low 32n bits of
D*mult + addend at its own width, x[rd] the rest, nothing else changed. -/
def Obligations.Muladd1Rule : Prop :=
  ∀ rd ra rb rc : Reg, encode (.muladd1 rd ra rb rc) &&& 0xFC0003FF#32 = 0x44000000#32 ∧
    ∀ s : State,
      let D := getReg s ra
      (¬ base D + len D ≤ s.lmDepth →
        exec (.muladd1 rd ra rb rc) s = .next (faulted s 3#8 (encode (.muladd1 rd ra rb rc)))) ∧
      (base D + len D ≤ s.lmDepth → ∀ d, val s D = .ok d →
        let p := d * (getReg s rb).toNat + (getReg s rc).toNat
        ∃ t, exec (.muladd1 rd ra rb rc) s = .next t ∧ Commits s t ∧ RegsKept s t [rd] ∧ LmKeptOutside s t D ∧
          memRead t.lm (base D) (len D) = .ok (p % 2 ^ (32 * len D)) ∧
          (getReg t rd).toNat = p / 2 ^ (32 * len D))

/-- MULADD1 loses nothing: carry*2^(32n) + D' = D*mult + addend, whenever it commits from a state whose engine is running. -/
def Obligations.Muladd1LosesNothing : Prop :=
  ∀ (s t : State) (rd ra rb rc : Reg) (d : Nat), val s (getReg s ra) = .ok d → s.err = false → t.err = false →
    exec (.muladd1 rd ra rb rc) s = .next t →
    ∃ d', memRead t.lm (base (getReg s ra)) (len (getReg s ra)) = .ok d' ∧
      (getReg t rd).toNat * 2 ^ (32 * len (getReg s ra)) + d' = d * (getReg s rb).toNat + (getReg s rc).toNat

/-- MUL is commutative: exchanging its sources gives the same LM, registers and PC. -/
def Obligations.MulCommutes : Prop :=
  ∀ (s t : State) (rd ra rb : Reg), exec (.mul rd ra rb) s = .next t →
    ∃ u, exec (.mul rd rb ra) s = .next u ∧ u.lm = t.lm ∧ u.x = t.x ∧ u.pc = t.pc ∧ u.ecode = t.ecode

/-! ### Divider -/

/-- R142, whole: DIVMOD's match and mask; BOUNDS, OVERLAP when the destination windows share a word, DIVZERO when Val(Y) = 0,
CAPACITY, in that order; otherwise Q's window holds the quotient and R's the remainder canonically, x[rd] and x[rc] their
descriptors with x[rc] written last, nothing else changed. -/
def Obligations.DivmodRule : Prop :=
  ∀ rd ra rb rc : Reg, encode (.divmod rd ra rb rc) &&& 0xFC0003FF#32 = 0x60000000#32 ∧
    ∀ s : State,
      let X := getReg s ra; let Y := getReg s rb; let Q := getReg s rd; let R := getReg s rc
      let share := ∃ a, base Q ≤ a ∧ a < base Q + len Q ∧ base R ≤ a ∧ a < base R + len R
      let faults := fun code => exec (.divmod rd ra rb rc) s = .next (faulted s code (encode (.divmod rd ra rb rc)))
      (¬ (base X + len X ≤ s.lmDepth ∧ base Y + len Y ≤ s.lmDepth ∧ base Q + len Q ≤ s.lmDepth ∧
          base R + len R ≤ s.lmDepth) → faults 3#8) ∧
      (base X + len X ≤ s.lmDepth → base Y + len Y ≤ s.lmDepth → base Q + len Q ≤ s.lmDepth →
        base R + len R ≤ s.lmDepth →
        (share → faults 10#8) ∧
        (¬ share → ∀ u v, val s X = .ok u → val s Y = .ok v →
          let qneed := if limbs v ≤ limbs u then limbs u - limbs v + 1 else 0
          let rneed := min (limbs u) (limbs v)
          (v = 0 → faults 4#8) ∧
          (v ≠ 0 → len Q < qneed ∨ len R < rneed → faults 5#8) ∧
          (v ≠ 0 → qneed ≤ len Q → rneed ≤ len R →
            ∃ t, exec (.divmod rd ra rb rc) s = .next t ∧ Commits s t ∧ RegsKept s t [rd, rc] ∧
              (∀ k, (k < 4 * base Q ∨ 4 * (base Q + len Q) ≤ k) → (k < 4 * base R ∨ 4 * (base R + len R) ≤ k) →
                Memory.readByte t.lm k = Memory.readByte s.lm k) ∧
              HoldsCanon t Q (u / v) ∧ HoldsCanon t R (u % v) ∧
              (rd ≠ rc → IsResultOf (getReg t rd) Q (u / v)) ∧ IsResultOf (getReg t rc) R (u % v))))

/-- R150, whole: DIVREM1's match and mask; BOUNDS, then DIVZERO, also for a window of width 0; otherwise D's window holds the
quotient at its own width and x[rd] the remainder, nothing else changed. -/
def Obligations.Divrem1Rule : Prop :=
  ∀ rd ra rb : Reg, encode (.divrem1 rd ra rb) &&& 0xFC003FFF#32 = 0x64000000#32 ∧
    ∀ s : State,
      let D := getReg s ra; let v := (getReg s rb).toNat
      (¬ base D + len D ≤ s.lmDepth →
        exec (.divrem1 rd ra rb) s = .next (faulted s 3#8 (encode (.divrem1 rd ra rb)))) ∧
      (base D + len D ≤ s.lmDepth →
        (v = 0 → exec (.divrem1 rd ra rb) s = .next (faulted s 4#8 (encode (.divrem1 rd ra rb)))) ∧
        (v ≠ 0 → ∀ u, val s D = .ok u →
          ∃ t, exec (.divrem1 rd ra rb) s = .next t ∧ Commits s t ∧ RegsKept s t [rd] ∧ LmKeptOutside s t D ∧
            memRead t.lm (base D) (len D) = .ok (u / v) ∧ (getReg t rd).toNat = u % v))

/-- Division is exact: after a DIVMOD that does not fault, Val(Q')*Val(Y) + Val(R') = Val(X), Val(R') < Val(Y), and neither
result has a leading zero limb; after a DIVREM1 that does not fault, D'*v + x[rd] = D and x[rd] < v. -/
def Obligations.DivisionIsExact : Prop :=
  (∀ (s t : State) (rd ra rb rc : Reg), rd ≠ rc → s.err = false → t.err = false →
    exec (.divmod rd ra rb rc) s = .next t →
    ∃ x y q r, val s (getReg s ra) = .ok x ∧ val s (getReg s rb) = .ok y ∧ val t (getReg t rd) = .ok q ∧
      val t (getReg t rc) = .ok r ∧ q * y + r = x ∧ r < y ∧ len (getReg t rd) = limbs q ∧
      len (getReg t rc) = limbs r) ∧
  (∀ (s t : State) (rd ra rb : Reg), s.err = false → t.err = false → exec (.divrem1 rd ra rb) s = .next t →
    ∃ d d', val s (getReg s ra) = .ok d ∧ memRead t.lm (base (getReg s ra)) (len (getReg s ra)) = .ok d' ∧
      d' * (getReg s rb).toNat + (getReg t rd).toNat = d ∧ (getReg t rd).toNat < (getReg s rb).toNat)

/-! ### Shifter and leading-zero counter -/

/-- R175, whole: NORM's match and mask; BOUNDS, OUTOFRANGE, BADLEN, INVALIDOP in that order; otherwise T's window holds
Val(S)*2^s at its raw width; no register is written. -/
def Obligations.NormRule : Prop :=
  ∀ rd ra rb : Reg, encode (.norm rd ra rb) &&& 0xFC003FFF#32 = 0x80000000#32 ∧
    ∀ s : State,
      let S := getReg s ra; let T := getReg s rd; let k := (getReg s rb).toNat
      let faults := fun code => exec (.norm rd ra rb) s = .next (faulted s code (encode (.norm rd ra rb)))
      (¬ (base S + len S ≤ s.lmDepth ∧ base T + len T ≤ s.lmDepth) → faults 3#8) ∧
      (base S + len S ≤ s.lmDepth → base T + len T ≤ s.lmDepth →
        (32 ≤ k → faults 7#8) ∧
        (k < 32 → len T ≠ len S → len T ≠ len S + 1 → faults 8#8) ∧
        (k < 32 → len T = len S ∨ len T = len S + 1 → ∀ m, val s S = .ok m →
          (2 ^ (32 * len T) ≤ m * 2 ^ k → len T = len S ∧ faults 6#8) ∧
          (m * 2 ^ k < 2 ^ (32 * len T) → ∃ t, exec (.norm rd ra rb) s = .next t ∧ Commits s t ∧ RegsKept s t [] ∧
            LmKeptOutside s t T ∧ memRead t.lm (base T) (len T) = .ok (m * 2 ^ k))))

/-- R181, whole: SHL's match and mask; BOUNDS, then CAPACITY for the exact result; otherwise Z's window holds Val(X)*2^k, or
floor(Val(X)/2^-k) for a negative k, canonically, x[rd] its descriptor, nothing else changed. -/
def Obligations.ShlRule : Prop :=
  ∀ rd ra rb : Reg, encode (.shl rd ra rb) &&& 0xFC003FFF#32 = 0x84000000#32 ∧
    ∀ s : State,
      let X := getReg s ra; let Z := getReg s rd; let k := (getReg s rb).toInt
      (¬ (base X + len X ≤ s.lmDepth ∧ base Z + len Z ≤ s.lmDepth) →
        exec (.shl rd ra rb) s = .next (faulted s 3#8 (encode (.shl rd ra rb)))) ∧
      (base X + len X ≤ s.lmDepth → base Z + len Z ≤ s.lmDepth → ∀ m, val s X = .ok m →
        let v := if 0 ≤ k then m * 2 ^ k.toNat else m / 2 ^ (-k).toNat
        (len Z < limbs v → exec (.shl rd ra rb) s = .next (faulted s 5#8 (encode (.shl rd ra rb)))) ∧
        (limbs v ≤ len Z → ∃ t, exec (.shl rd ra rb) s = .next t ∧ Commits s t ∧ RegsKept s t [rd] ∧
          LmKeptOutside s t Z ∧ HoldsCanon t Z v ∧ IsResultOf (getReg t rd) Z v))

/-- R182, whole: SHR's match and mask; BOUNDS, then CAPACITY for the exact result; otherwise Z's window holds
floor(Val(X)/2^k), or Val(X)*2^-k for a negative k, canonically, x[rd] its descriptor, nothing else changed. -/
def Obligations.ShrRule : Prop :=
  ∀ rd ra rb : Reg, encode (.shr rd ra rb) &&& 0xFC003FFF#32 = 0x88000000#32 ∧
    ∀ s : State,
      let X := getReg s ra; let Z := getReg s rd; let k := (getReg s rb).toInt
      (¬ (base X + len X ≤ s.lmDepth ∧ base Z + len Z ≤ s.lmDepth) →
        exec (.shr rd ra rb) s = .next (faulted s 3#8 (encode (.shr rd ra rb)))) ∧
      (base X + len X ≤ s.lmDepth → base Z + len Z ≤ s.lmDepth → ∀ m, val s X = .ok m →
        let v := if 0 ≤ k then m / 2 ^ k.toNat else m * 2 ^ (-k).toNat
        (len Z < limbs v → exec (.shr rd ra rb) s = .next (faulted s 5#8 (encode (.shr rd ra rb)))) ∧
        (limbs v ≤ len Z → ∃ t, exec (.shr rd ra rb) s = .next t ∧ Commits s t ∧ RegsKept s t [rd] ∧
          LmKeptOutside s t Z ∧ HoldsCanon t Z v ∧ IsResultOf (getReg t rd) Z v))

/-- R184, whole: SAR's match and mask; BOUNDS, BADSIGN, then CAPACITY; otherwise, for the signed value n = σ*Val(X), Z's window
holds the magnitude of floor(n/2^k), or of n*2^-k for a negative k, canonically; x[rd] its descriptor and x[rc], written
last, its sign; nothing else changed. `/` on integers with a positive divisor is floor. -/
def Obligations.SarRule : Prop :=
  ∀ rd ra rb rc : Reg, encode (.sar rd ra rb rc) &&& 0xFC0003FF#32 = 0x8C000000#32 ∧
    ∀ s : State,
      let X := getReg s ra; let Z := getReg s rd; let k := (getReg s rb).toInt; let σ := (getReg s rc).toInt
      let faults := fun code => exec (.sar rd ra rb rc) s = .next (faulted s code (encode (.sar rd ra rb rc)))
      (¬ (base X + len X ≤ s.lmDepth ∧ base Z + len Z ≤ s.lmDepth) → faults 3#8) ∧
      (base X + len X ≤ s.lmDepth → base Z + len Z ≤ s.lmDepth → ∀ m, val s X = .ok m →
        (¬ (σ = -1 ∨ σ = 0 ∨ σ = 1) ∨ ¬ (σ = 0 ↔ m = 0) → faults 9#8) ∧
        ((σ = -1 ∨ σ = 0 ∨ σ = 1) → (σ = 0 ↔ m = 0) →
          let w : Int := if 0 ≤ k then (σ * m) / 2 ^ k.toNat else σ * m * 2 ^ (-k).toNat
          (len Z < limbs w.natAbs → faults 5#8) ∧
          (limbs w.natAbs ≤ len Z → ∃ t, exec (.sar rd ra rb rc) s = .next t ∧ Commits s t ∧ RegsKept s t [rd, rc] ∧
            LmKeptOutside s t Z ∧ HoldsCanon t Z w.natAbs ∧
            (rd ≠ rc → IsResultOf (getReg t rd) Z w.natAbs) ∧ (getReg t rc).toInt = w.sign)))

/-- R171, whole: CLZ's match and mask; it always commits; x[rd] is the number of leading zeros of x[ra], 32 for 0, and 0
exactly when bit 31 of x[ra] is set. -/
def Obligations.ClzRule : Prop :=
  ∀ rd ra : Reg, encode (.clz rd ra) &&& 0xFC03FFFF#32 = 0x90000000#32 ∧
    ∀ s : State, ∃ t, exec (.clz rd ra) s = .next t ∧ Commits s t ∧ t.lm = s.lm ∧ RegsKept s t [rd] ∧
      IsLeadingZeros (getReg t rd).toNat 32 (getReg s ra).toNat ∧
      (getReg t rd = 0#32 ↔ (getReg s ra).getLsbD 31 = true)

/-- R173, whole: LZCA's match and mask; BOUNDS when A passes LM; otherwise x[rd] is the number of leading zeros of the raw
window, 32n exactly for an all-zero window of n limbs, 0 for an empty one, and nothing else changes. -/
def Obligations.LzcaRule : Prop :=
  ∀ rd ra : Reg, encode (.lzca rd ra) &&& 0xFC03FFFF#32 = 0x94000000#32 ∧
    ∀ s : State,
      let A := getReg s ra
      (¬ base A + len A ≤ s.lmDepth →
        exec (.lzca rd ra) s = .next (faulted s 3#8 (encode (.lzca rd ra)))) ∧
      (base A + len A ≤ s.lmDepth → ∀ v, val s A = .ok v →
        ∃ t, exec (.lzca rd ra) s = .next t ∧ Commits s t ∧ t.lm = s.lm ∧ RegsKept s t [rd] ∧
          IsLeadingZeros (getReg t rd).toNat (32 * len A) v ∧ ((getReg t rd).toNat = 32 * len A ↔ v = 0))

/-- SHL by k and SHR by -k do the same to LM, registers, PC and ECODE, for every k but -2^31; the amounts stand in two
registers. -/
def Obligations.ShlIsShrByTheNegative : Prop :=
  ∀ (s t : State) (rd ra rb rb' : Reg), getReg s rb' = - getReg s rb → getReg s rb ≠ 0x80000000#32 →
    exec (.shl rd ra rb) s = .next t →
    ∃ u, exec (.shr rd ra rb') s = .next u ∧ u.lm = t.lm ∧ u.x = t.x ∧ u.pc = t.pc ∧ u.ecode = t.ecode

/-- SAR of a positive value, when SHR of the magnitude commits, gives the same LM, PC and registers, but for the sign of the
result in x[rc]. -/
def Obligations.SarOfPositiveIsShr : Prop :=
  ∀ (s t : State) (rd ra rb rc : Reg) (m : Nat), rd ≠ rc → getReg s rc = 1#32 → val s (getReg s ra) = .ok m → m ≠ 0 →
    exec (.shr rd ra rb) s = .next t → s.err = false → t.err = false →
    ∃ u, exec (.sar rd ra rb rc) s = .next u ∧ u.lm = t.lm ∧ u.pc = t.pc ∧ RegsKept t u [rc] ∧
      getReg u rc = if len (getReg t rd) = 0 then 0#32 else 1#32

/-- The two counters agree: over a one-limb window LZCA gives what CLZ gives for the limb. -/
def Obligations.LzcaOfOneLimbIsClz : Prop :=
  ∀ (s t : State) (rd ra rb : Reg), len (getReg s ra) = 1 → base (getReg s ra) + 1 ≤ s.lmDepth →
    Memory.readWord s.lm (base (getReg s ra)) = some (getReg s rb) →
    exec (.clz rd rb) s = .next t → exec (.lzca rd ra) s = .next t

/-! ### Frames -/

/-- What NOP and HALT leave: LM and every register; NOP every status bit, HALT all but BUSY and DONE. -/
def Obligations.FrameOfNopAndHalt : Prop :=
  ∀ (s t : State) (i : Instr), i = .nop ∨ i = .halt → exec i s = .next t →
    t = { s with pc := t.pc, busy := t.busy, done := t.done } ∧ (i = .nop → t.busy = s.busy ∧ t.done = s.done)

/-- What LIL, LIH, MOV, CLZ and LZCA leave, when they answer a next state: LM, every register but rd, and every status bit,
control bit and host field unless a fault is taken. -/
def Obligations.FrameOfRegisterCommands : Prop :=
  ∀ (s t : State) (rd ra : Reg) (imm : Half) (i : Instr),
    i = .lil rd imm ∨ i = .lih rd imm ∨ i = .mov rd ra ∨ i = .clz rd ra ∨ i = .lzca rd ra → exec i s = .next t →
    LmKept s t ∧ RegsKept s t [rd] ∧ CommitsOrFaults i s t

/-- What MUL, SHL and SHR leave: every byte outside the window x[rd] names, every register but rd, and every status bit,
control bit and host field unless a fault is taken. -/
def Obligations.FrameOfCanonicalCommands : Prop :=
  ∀ (s t : State) (rd ra rb : Reg) (i : Instr), i = .mul rd ra rb ∨ i = .shl rd ra rb ∨ i = .shr rd ra rb →
    exec i s = .next t → LmKeptOutside s t (getReg s rd) ∧ RegsKept s t [rd] ∧ CommitsOrFaults i s t

/-- What MULADD1 and DIVREM1 leave: every byte outside the window x[ra] names, every register but rd, and every status bit,
control bit and host field unless a fault is taken. -/
def Obligations.FrameOfInPlaceCommands : Prop :=
  ∀ (s t : State) (rd ra rb rc : Reg) (i : Instr), i = .muladd1 rd ra rb rc ∨ i = .divrem1 rd ra rb →
    exec i s = .next t → LmKeptOutside s t (getReg s ra) ∧ RegsKept s t [rd] ∧ CommitsOrFaults i s t

/-- What NORM and SAR leave: every byte outside the window x[rd] names; NORM every register, SAR every register but rd and
rc; and every status bit, control bit and host field unless a fault is taken. -/
def Obligations.FrameOfNormAndSar : Prop :=
  ∀ (s t : State) (rd ra rb rc : Reg) (i : Instr), i = .norm rd ra rb ∨ i = .sar rd ra rb rc → exec i s = .next t →
    LmKeptOutside s t (getReg s rd) ∧ RegsKept s t (if i = .norm rd ra rb then [] else [rd, rc]) ∧
      CommitsOrFaults i s t

/-- What DIVMOD leaves: every byte outside the windows x[rd] and x[rc] name, every register but rd and rc, and every status
bit, control bit and host field unless a fault is taken. -/
def Obligations.FrameOfDivmod : Prop :=
  ∀ (s t : State) (rd ra rb rc : Reg), exec (.divmod rd ra rb rc) s = .next t →
    (∀ k, (k < 4 * base (getReg s rd) ∨ 4 * (base (getReg s rd) + len (getReg s rd)) ≤ k) →
      (k < 4 * base (getReg s rc) ∨ 4 * (base (getReg s rc) + len (getReg s rc)) ≤ k) →
      Memory.readByte t.lm k = Memory.readByte s.lm k) ∧
    RegsKept s t [rd, rc] ∧ CommitsOrFaults (.divmod rd ra rb rc) s t

/-! ### Host interface -/

/-- Host reads of ID, PARAM, EINFO, CTRL and STATUS, busy or not: the constant, LM_DEPTH, EINFO, and the fields of CTRL and
STATUS at their bits with every other bit 0; nothing else changes. -/
def Obligations.HostReadsControlRegisters : Prop :=
  ∀ (s : State) (rest : List HostMove),
    (s.hostMoves = .read 0x000 4 :: rest →
      step s = .next { s with hostMoves := rest, hostData := 0x424E5801#32 }) ∧
    (s.hostMoves = .read 0x014 4 :: rest →
      step s = .next { s with hostMoves := rest, hostData := BitVec.ofNat 32 s.lmDepth }) ∧
    (s.hostMoves = .read 0x010 4 :: rest → step s = .next { s with hostMoves := rest, hostData := s.einfo }) ∧
    (s.hostMoves = .read 0x004 4 :: rest → ∃ v : Word, step s = .next { s with hostMoves := rest, hostData := v } ∧
      v.getLsbD 2 = s.ieDone ∧ v.getLsbD 3 = s.ieErr ∧ ∀ k, k ≠ 2 → k ≠ 3 → v.getLsbD k = false) ∧
    (s.hostMoves = .read 0x008 4 :: rest → ∃ v : Word, step s = .next { s with hostMoves := rest, hostData := v } ∧
      v.getLsbD 0 = s.busy ∧ v.getLsbD 1 = s.done ∧ v.getLsbD 2 = s.err ∧ v.getLsbD 3 = s.hacc ∧
      v.extractLsb' 8 8 = s.ecode ∧ ∀ k, 4 ≤ k → k < 8 ∨ 16 ≤ k → v.getLsbD k = false)

/-- Host reads of PC, of each x_i and of each LM word while idle: the value, or a free value for an unwritten word (log 4);
nothing else changes. -/
def Obligations.HostReadsWhileIdle : Prop :=
  ∀ (s : State) (rest : List HostMove), s.busy = false →
    (s.hostMoves = .read 0x00C 4 :: rest → step s = .next { s with hostMoves := rest, hostData := s.pc }) ∧
    (∀ (r : Reg) (o : Fin 0x50000), o.val = 0x040 + 4 * r.toNat → s.hostMoves = .read o 4 :: rest →
      step s = .next { s with hostMoves := rest, hostData := getReg s r }) ∧
    (∀ (a : Nat) (o : Fin 0x50000), a < s.lmDepth → o.val = 0x10000 + 4 * a → s.hostMoves = .read o 4 :: rest →
      (∀ w, Memory.readWord s.lm a = some w → step s = .next { s with hostMoves := rest, hostData := w }) ∧
      (Memory.readWord s.lm a = none →
        step s = .next { s with hostMoves := rest, hostData := Config.freeWord s.draws, draws := s.draws + 1 }))

/-- Host writes of PC, of each x_i and of each LM word while idle: that register or word takes the value and nothing else
changes. -/
def Obligations.HostWritesWhileIdle : Prop :=
  ∀ (s : State) (rest : List HostMove) (v : Word), s.busy = false →
    (s.hostMoves = .write 0x00C 4 v :: rest → step s = .next { s with hostMoves := rest, pc := v }) ∧
    (∀ (r : Reg) (o : Fin 0x50000), o.val = 0x040 + 4 * r.toNat → s.hostMoves = .write o 4 v :: rest →
      ∃ t, step s = .next t ∧ t = { s with hostMoves := rest, x := t.x } ∧ getReg t r = v ∧ RegsKept s t [r]) ∧
    (∀ (a : Nat) (o : Fin 0x50000), a < s.lmDepth → o.val = 0x10000 + 4 * a → s.hostMoves = .write o 4 v :: rest →
      ∃ t, step s = .next t ∧ t = { s with hostMoves := rest, lm := t.lm } ∧ Memory.readWord t.lm a = some v ∧
        ∀ k, k < 4 * a ∨ 4 * a + 4 ≤ k → Memory.readByte t.lm k = Memory.readByte s.lm k)

/-- A host access to PC, the X window or the LM window while busy is not performed: a write is dropped, a read returns 0,
and either sets HACC. -/
def Obligations.BusyAccessIsRefused : Prop :=
  ∀ (s : State) (rest : List HostMove) (o : Fin 0x50000), s.busy = true → o.val % 4 = 0 →
    o.val = 0x00C ∨ (0x040 ≤ o.val ∧ o.val < 0x080) ∨ (0x10000 ≤ o.val ∧ o.val < 0x10000 + 4 * s.lmDepth) →
    (s.hostMoves = .read o 4 :: rest → step s = .next { s with hostMoves := rest, hacc := true, hostData := 0#32 }) ∧
    (∀ v, s.hostMoves = .write o 4 v :: rest → step s = .next { s with hostMoves := rest, hacc := true })

/-- A host access that is not an aligned 32-bit word, or to a reserved offset, and a write to ID, EINFO or PARAM, busy or
not: a write is dropped, a read returns 0, and either sets HACC. -/
def Obligations.AccessNotPerformedSetsHacc : Prop :=
  ∀ (s : State) (rest : List HostMove) (o : Fin 0x50000) (bytes : Nat),
    ((bytes ≠ 4 ∨ o.val % 4 ≠ 0) ∨ (0x018 ≤ o.val ∧ o.val < 0x040) ∨ (0x080 ≤ o.val ∧ o.val < 0x10000) ∨
        (0x10000 + 4 * s.lmDepth ≤ o.val) →
      (s.hostMoves = .read o bytes :: rest →
        step s = .next { s with hostMoves := rest, hacc := true, hostData := 0#32 }) ∧
      (∀ v, s.hostMoves = .write o bytes v :: rest → step s = .next { s with hostMoves := rest, hacc := true })) ∧
    (o.val = 0x000 ∨ o.val = 0x010 ∨ o.val = 0x014 →
      ∀ v, s.hostMoves = .write o 4 v :: rest → step s = .next { s with hostMoves := rest, hacc := true })

/-- R34, whole: a CTRL write with START = 1 and SRST = 0. While idle it sets BUSY, clears DONE, ERR, ECODE and EINFO, leaves
HACC and PC, and the engine's step then begins at that PC; while busy it only sets HACC; the IE bits of the write are applied
in both. A write with START = 0 and SRST = 0 only applies the IE bits. -/
def Obligations.StartRule : Prop :=
  ∀ (s : State) (rest : List HostMove) (v : Word), s.hostMoves = .write 0x004 4 v :: rest → v.getLsbD 1 = false →
    (v.getLsbD 0 = true → s.busy = false →
      step s = .next { s with
        hostMoves := rest, ieDone := v.getLsbD 2, ieErr := v.getLsbD 3, busy := true, done := false, err := false,
        ecode := 0#8, einfo := 0#32 }) ∧
    (v.getLsbD 0 = true → s.busy = true →
      step s = .next { s with hostMoves := rest, ieDone := v.getLsbD 2, ieErr := v.getLsbD 3, hacc := true }) ∧
    (v.getLsbD 0 = false →
      step s = .next { s with hostMoves := rest, ieDone := v.getLsbD 2, ieErr := v.getLsbD 3 })

/-- R50, R250, R252 and R35: a CTRL write with SRST = 1, whatever its other bits and busy or not, sets every register and PC,
the control bits, STATUS and EINFO to 0, lowers the interrupt line and leaves LM; power-on reset does the same and leaves LM
unwritten. That power-on reset is a move of the host's list, possible while busy, and keeps LM_DEPTH, `hostData`, `draws` and
the moves left, is the model's choice (log 10). -/
def Obligations.ResetsClearEverythingButLm : Prop :=
  ∀ (s : State) (rest : List HostMove),
    (∀ v : Word, v.getLsbD 1 = true → s.hostMoves = .write 0x004 4 v :: rest →
      ∃ t, step s = .next t ∧ (∀ r, getReg t r = 0#32) ∧ irq t = false ∧
        t = { s with
          x := t.x, pc := 0#32, ieDone := false, ieErr := false, busy := false, done := false, err := false,
          hacc := false, ecode := 0#8, einfo := 0#32, hostMoves := rest }) ∧
    (s.hostMoves = .powerOn :: rest →
      ∃ t, step s = .next t ∧ (∀ r, getReg t r = 0#32) ∧ irq t = false ∧ (∀ a, Memory.readWord t.lm a = none) ∧
        t = { s with
          lm := t.lm, x := t.x, pc := 0#32, ieDone := false, ieErr := false, busy := false, done := false, err := false,
          hacc := false, ecode := 0#8, einfo := 0#32, hostMoves := rest })

/-- R42, whole: a host write to STATUS, busy or not, clears each of DONE, ERR and HACC whose bit is 1 in the value, ECODE with
ERR, and leaves everything else; it does not set HACC. -/
def Obligations.StatusWriteRule : Prop :=
  ∀ (s : State) (rest : List HostMove) (v : Word), s.hostMoves = .write 0x008 4 v :: rest →
    ∃ t, step s = .next t ∧
      t = { s with hostMoves := rest, done := t.done, err := t.err, hacc := t.hacc, ecode := t.ecode } ∧
      t.done = (if v.getLsbD 1 then false else s.done) ∧ t.err = (if v.getLsbD 2 then false else s.err) ∧
      t.hacc = (if v.getLsbD 3 then false else s.hacc) ∧ t.ecode = (if v.getLsbD 2 then 0#8 else s.ecode)

/-! ### The whole machine -/

/-- After power-on reset every register, PC, control bit and status bit and EINFO is 0, no LM word is written, the interrupt
line is low; no command runs until the host writes START. (LM_DEPTH is the model's choice, log 1.) -/
def Obligations.PowerOnState : Prop :=
  (∀ r, getReg State.reset r = 0#32) ∧ State.reset.pc = 0#32 ∧ State.reset.ieDone = false ∧
  State.reset.ieErr = false ∧ statusWord State.reset = 0#32 ∧ State.reset.einfo = 0#32 ∧ irq State.reset = false ∧
  (∀ a, Memory.readWord State.reset.lm a = none) ∧ step State.reset = .next State.reset

/-- The invariant holds after reset. -/
def Obligations.ResetMeetsTheInvariant : Prop := StateInv State.reset

/-- Every step, of the engine or of the host, from every state that meets the invariant, keeps it: LM stays canonical, of
whole words and inside its depth, STATUS stays consistent, LM_DEPTH in range. -/
def Obligations.StepKeepsTheInvariant : Prop := ∀ s t : State, StateInv s → step s = .next t → StateInv t

/-- Every run ends: with no host access due and LM_DEPTH in its range, the run of a busy engine from PC = p is idle, or has
stopped at an unwritten word, by LM_DEPTH - p + 1 steps, a final FETCH fault counted; it is never refused. The empty list of
host accesses is the model's way to say that the host makes none during the run (log 5), and the stop at an unwritten word is
the model's own (log 3). -/
def Obligations.EveryRunEnds : Prop :=
  ∀ s : State, DepthInRange s → s.busy = true → s.hostMoves = [] →
    (∀ t, run (s.lmDepth - s.pc.toNat + 1) s = .next t → t.busy = false) ∧
      ∀ r, run (s.lmDepth - s.pc.toNat + 1) s ≠ .refused r

/-! ### The informative algorithms -/

/-- The schoolbook loop computes the exact product, trimmed. -/
def Obligations.SchoolbookIsTheProduct : Prop :=
  ∀ x y : List Word, limbsValue (schoolbook x y) = limbsValue x * limbsValue y ∧
    (schoolbook x y).length = limbs (limbsValue x * limbsValue y)

/-- Knuth's Algorithm D computes quotient and remainder, for trimmed u > v with v of at least two limbs. -/
def Obligations.KnuthDividesExactly : Prop :=
  ∀ u v : List Word, trimLimbs u = u → trimLimbs v = v → 2 ≤ v.length → limbsValue v < limbsValue u →
    knuthDivide u v = (limbsValue u / limbsValue v, limbsValue u % limbsValue v)

/-- The short-division scan computes quotient, at the same width, and remainder. -/
def Obligations.ShortDivisionIsExact : Prop :=
  ∀ (v : Nat) (data : List Word), 0 < v →
    limbsValue (shortDivide v 0 data).1 = limbsValue data / v ∧ (shortDivide v 0 data).2 = limbsValue data % v ∧
      (shortDivide v 0 data).1.length = data.length

/-- The one-pass Normalize computes the shifted value at a width one limb longer, and at the source's own width when the last
carry is 0. -/
def Obligations.NormalizeLoopShifts : Prop :=
  ∀ (k : Nat) (src : List Word), k < 32 →
    limbsValue (normalizeWide k src) = limbsValue src * 2 ^ k ∧ (normalizeWide k src).length = src.length + 1 ∧
      (normalizeLoop k src).1.length = src.length ∧
      ((normalizeLoop k src).2 = 0 ↔ limbsValue src * 2 ^ k < 2 ^ (32 * src.length)) ∧
      ((normalizeLoop k src).2 = 0 → limbsValue (normalizeLoop k src).1 = limbsValue src * 2 ^ k)

/-! ### Limb order and descriptors, the interrupt output, unwritten sources -/

/-- R9, with R10's MemWrite and R64's fields: a window's value is the sum of its words weighted with the lowest address most
significant, 0 for an empty window; writing a value puts into each word its 32 bits of that weight, and no byte elsewhere. A
descriptor's base is its bits [15:0] and its length its bits [31:16]; as a source it names LM[base] .. LM[base + len - 1], of
value 0 when its length is 0. -/
def Obligations.WindowsAreBigEndian : Prop :=
  (∀ (m : Memory) (a n : Nat),
    (∀ f : Nat → Word, (∀ i, i < n → Memory.readWord m (a + i) = some (f i)) →
      memRead m a n = .ok (∑ i ∈ Finset.range n, (f i).toNat * 2 ^ (32 * (n - 1 - i)))) ∧
    ∀ v, (∀ i, i < n →
        Memory.readWord (memWrite m a n v) (a + i) = some (BitVec.ofNat 32 (v / 2 ^ (32 * (n - 1 - i))))) ∧
      ∀ k, k < 4 * a ∨ 4 * (a + n) ≤ k → Memory.readByte (memWrite m a n v) k = Memory.readByte m k) ∧
  ∀ (s : State) (d : Word), base d = d.toNat % 2 ^ 16 ∧ len d = d.toNat / 2 ^ 16 ∧ (len d = 0 → val s d = .ok 0) ∧
    ∀ f : Nat → Word, (∀ i, i < len d → Memory.readWord s.lm (base d + i) = some (f i)) →
      val s d = .ok (∑ i ∈ Finset.range (len d), (f i).toNat * 2 ^ (32 * (len d - 1 - i)))

/-- R225, whole: IRQ is (DONE and IE_DONE) or (ERR and IE_ERR) of the state, and of nothing else. An engine step that ends with
DONE or ERR risen raises it if the matching enable is 1; a CTRL write that sets an enable raises it while the matching status
bit is 1; it falls when the host clears the status bit or the enable, or writes START while idle, and at both resets. -/
def Obligations.InterruptOutputRule : Prop :=
  (∀ s : State, irq s = true ↔ (s.done = true ∧ s.ieDone = true) ∨ (s.err = true ∧ s.ieErr = true)) ∧
  (∀ s u t : State, EngineMoves s u → s.busy = true → step s = .next t →
    (irq t = true ↔ (t.done = true ∧ s.ieDone = true) ∨ (t.err = true ∧ s.ieErr = true))) ∧
  (∀ s u : State, EngineMoves s u → s.busy = true → s.lmDepth ≤ s.pc.toNat → s.ieErr = true →
    ∃ t, step s = .next t ∧ irq t = true) ∧
  (∀ s : State, s.ieDone = true → ∃ t, exec .halt s = .next t ∧ irq t = true) ∧
  (∀ (s : State) (rest : List HostMove) (v : Word), s.hostMoves = .write 0x008 4 v :: rest →
    ∃ t, step s = .next t ∧ (irq t = true ↔
      (s.done = true ∧ v.getLsbD 1 = false ∧ s.ieDone = true) ∨ (s.err = true ∧ v.getLsbD 2 = false ∧ s.ieErr = true))) ∧
  (∀ (s : State) (rest : List HostMove) (v : Word), s.hostMoves = .write 0x004 4 v :: rest →
    ∃ t, step s = .next t ∧ (v.getLsbD 1 = true → irq t = false) ∧
      (v.getLsbD 1 = false → v.getLsbD 0 = true → s.busy = false → irq t = false) ∧
      (v.getLsbD 1 = false → v.getLsbD 0 = false ∨ s.busy = true →
        (irq t = true ↔ (s.done = true ∧ v.getLsbD 2 = true) ∨ (s.err = true ∧ v.getLsbD 3 = true)))) ∧
  (∀ (s : State) (rest : List HostMove), s.hostMoves = .powerOn :: rest → ∃ t, step s = .next t ∧ irq t = false)

/-- A command that reads a source window with an unwritten word stops the model at the window's lowest such address, once the
checks that its rule makes before the read have passed; MUL and DIVMOD read X before Y, DIVREM1 checks its divisor first. The
stop is R22's and R222's, its form and the order log 3. -/
def Obligations.UnwrittenSourceStops : Prop :=
  ∀ (s : State) (rd ra rb rc : Reg) (a : Nat),
    let X := getReg s ra; let Y := getReg s rb; let Z := getReg s rd; let R := getReg s rc
    let first := FirstUnwritten s X a ∨ ((∃ u, val s X = .ok u) ∧ FirstUnwritten s Y a)
    (FirstUnwritten s X a → base X + len X ≤ s.lmDepth →
      exec (.lzca rd ra) s = .fault (.readUnwritten a) ∧ exec (.muladd1 rd ra rb rc) s = .fault (.readUnwritten a) ∧
      (Y ≠ 0#32 → exec (.divrem1 rd ra rb) s = .fault (.readUnwritten a)) ∧
      (base Z + len Z ≤ s.lmDepth →
        exec (.shl rd ra rb) s = .fault (.readUnwritten a) ∧ exec (.shr rd ra rb) s = .fault (.readUnwritten a) ∧
        exec (.sar rd ra rb rc) s = .fault (.readUnwritten a) ∧
        (Y.toNat < 32 → len Z = len X ∨ len Z = len X + 1 → exec (.norm rd ra rb) s = .fault (.readUnwritten a)))) ∧
    (first → base X + len X ≤ s.lmDepth → base Y + len Y ≤ s.lmDepth → base Z + len Z ≤ s.lmDepth →
      exec (.mul rd ra rb) s = .fault (.readUnwritten a) ∧
      (base R + len R ≤ s.lmDepth → ¬ (∃ b, base Z ≤ b ∧ b < base Z + len Z ∧ base R ≤ b ∧ b < base R + len R) →
        exec (.divmod rd ra rb rc) s = .fault (.readUnwritten a)))
end

