-- ==== Sys2Proof/Laws/Limbs.lean ====
section
/-! SUPPORT. Bit lengths and limb counts say how large a value is; the exact shifts are multiplication and floor division. -/

namespace Sys2Proof.Machine

@[simp] theorem bitlen_zero : bitlen 0 = 0 := rfl

/-- bitlen(v) is the least k with v < 2^k (R10). -/
theorem bitlen_le_iff {v k : Nat} : bitlen v ≤ k ↔ v < 2 ^ k := by
  by_cases h : v = 0
  · simp [bitlen, h]
  · simp only [bitlen, if_neg h]
    rw [Nat.succ_le_iff, Nat.log2_lt h]

theorem lt_two_pow_bitlen (v : Nat) : v < 2 ^ bitlen v := bitlen_le_iff.mp le_rfl

@[simp] theorem bitlen_eq_zero {v : Nat} : bitlen v = 0 ↔ v = 0 := by
  rw [← Nat.le_zero, bitlen_le_iff]; simp

/-- The bit length of a nonzero value: 2^(bitlen v - 1) ≤ v. -/
theorem two_pow_bitlen_pred_le {v : Nat} (h : v ≠ 0) : 2 ^ (bitlen v - 1) ≤ v := by
  simp only [bitlen, if_neg h, Nat.add_sub_cancel]
  exact Nat.log2_self_le h

theorem bitlen_mono {u v : Nat} (h : u ≤ v) : bitlen u ≤ bitlen v :=
  bitlen_le_iff.mpr (lt_of_le_of_lt h (lt_two_pow_bitlen v))

/-- Shifting left by k adds k to the bit length of a nonzero value. -/
theorem bitlen_mul_two_pow {v : Nat} (h : v ≠ 0) (k : Nat) : bitlen (v * 2 ^ k) = bitlen v + k := by
  apply le_antisymm
  · rw [bitlen_le_iff, pow_add]
    exact Nat.mul_lt_mul_of_pos_right (lt_two_pow_bitlen v) (by positivity)
  · have hv : v * 2 ^ k ≠ 0 := by positivity
    have h1 := two_pow_bitlen_pred_le h
    have h2 := lt_two_pow_bitlen (v * 2 ^ k)
    have h3 : 2 ^ (bitlen v - 1 + k) < 2 ^ bitlen (v * 2 ^ k) := by
      rw [pow_add]; exact lt_of_le_of_lt (Nat.mul_le_mul_right _ h1) h2
    have h4 := (Nat.pow_lt_pow_iff_right (by norm_num : 1 < 2)).mp h3
    have h5 : bitlen v ≠ 0 := by simpa using h
    omega

@[simp] theorem limbs_zero : limbs 0 = 0 := rfl

/-- limbs(v) is the least n with v < 2^(32n). -/
theorem limbs_le_iff {v n : Nat} : limbs v ≤ n ↔ v < 2 ^ (32 * n) := by
  rw [← bitlen_le_iff, limbs]; omega

theorem lt_limbs (v : Nat) : v < 2 ^ (32 * limbs v) := limbs_le_iff.mp le_rfl

@[simp] theorem limbs_eq_zero {v : Nat} : limbs v = 0 ↔ v = 0 := by
  rw [← Nat.le_zero, limbs_le_iff]; simp

theorem limbs_mono {u v : Nat} (h : u ≤ v) : limbs u ≤ limbs v :=
  limbs_le_iff.mpr (lt_of_le_of_lt h (lt_limbs v))

/-- A trimmed form has no leading zero limb: the value reaches the weight of its top limb. -/
theorem two_pow_limbs_pred_le {v : Nat} (h : v ≠ 0) : 2 ^ (32 * (limbs v - 1)) ≤ v := by
  by_contra hlt
  have h1 := limbs_le_iff.mpr (not_le.mp hlt)
  have h2 : limbs v ≠ 0 := by simpa using h
  omega

/-- A product needs at most the sum of its operands' lengths (R121). -/
theorem limbs_mul_le (a b : Nat) : limbs (a * b) ≤ limbs a + limbs b := by
  rw [limbs_le_iff, mul_add, pow_add]
  exact Nat.mul_lt_mul'' (lt_limbs a) (lt_limbs b)

/-- A quotient needs at most the difference of the lengths plus one (R143). -/
theorem limbs_div_le {u v : Nat} (hv : v ≠ 0) (h : limbs v ≤ limbs u) : limbs (u / v) ≤ limbs u - limbs v + 1 := by
  rw [limbs_le_iff, Nat.div_lt_iff_lt_mul (Nat.pos_of_ne_zero hv)]
  have hv0 : limbs v ≠ 0 := by simpa using hv
  calc u < 2 ^ (32 * limbs u) := lt_limbs u
    _ = 2 ^ (32 * (limbs u - limbs v + 1)) * 2 ^ (32 * (limbs v - 1)) := by
      rw [← pow_add]; congr 1; omega
    _ ≤ _ := Nat.mul_le_mul_left _ (two_pow_limbs_pred_le hv)

/-- A quotient is 0 when the dividend is shorter (R143). -/
theorem div_eq_zero_of_limbs_lt {u v : Nat} (h : limbs u < limbs v) : u / v = 0 := by
  apply Nat.div_eq_of_lt
  by_contra hle
  exact absurd (limbs_mono (not_lt.mp hle)) (by omega)

/-- A remainder needs at most the shorter of the two lengths (R143). -/
theorem limbs_mod_le {u v : Nat} (hv : v ≠ 0) : limbs (u % v) ≤ min (limbs u) (limbs v) :=
  le_min (limbs_mono (Nat.mod_le u v)) (limbs_mono (Nat.mod_lt u (Nat.pos_of_ne_zero hv)).le)

theorem shiftLeft_eq (v k : Nat) : shiftLeft v k = v * 2 ^ k := by
  unfold shiftLeft; split
  · simp [*]
  · rw [Nat.shiftLeft_eq]

/-- The length of a shifted value, computed from the bit length, is its length (R181). -/
theorem shiftLeftLimbs_eq (v k : Nat) : shiftLeftLimbs v k = limbs (v * 2 ^ k) := by
  unfold shiftLeftLimbs; split
  · simp [*]
  · rename_i h
    rw [limbs, bitlen_mul_two_pow h]

theorem bitlen_word_le (w : Word) : bitlen w.toNat ≤ 32 := bitlen_le_iff.mpr w.isLt

theorem clz32_le (w : Word) : clz32 w ≤ 32 := by unfold clz32; omega

@[simp] theorem clz32_zero : clz32 0#32 = 32 := rfl

/-- SAR's sign word reads as the sign (R184). -/
theorem toInt_signWord (w : Int) : (signWord w).toInt = w.sign := by
  unfold signWord
  rcases Int.lt_trichotomy w 0 with h | h | h
  · rw [Int.sign_eq_neg_one_of_neg h]; decide
  · subst h; decide
  · rw [Int.sign_eq_one_of_pos h]; decide

end Sys2Proof.Machine
end

