-- ==== Sys2Proof/Laws/Algorithms.lean ====
section
/-! SUPPORT. Arrays of limbs and their values: appending, replacing an element, trimming, the n-limb form; and the bounds of
R146 on one quotient digit. -/

namespace Sys2Proof.Machine

/-! ### Values of arrays -/

@[simp] theorem limbsValue_nil : limbsValue [] = 0 := rfl

@[simp] theorem limbsValue_cons (w : Word) (a : List Word) :
    limbsValue (w :: a) = w.toNat * 2 ^ (32 * a.length) + limbsValue a := rfl

theorem limbsValue_append (a b : List Word) :
    limbsValue (a ++ b) = limbsValue a * 2 ^ (32 * b.length) + limbsValue b := by
  induction a with
  | nil => simp
  | cons w a ih =>
    rw [List.cons_append, limbsValue_cons, ih, limbsValue_cons, List.length_append, Nat.mul_add, pow_add]
    ring

theorem limbsValue_lt (a : List Word) : limbsValue a < 2 ^ (32 * a.length) := by
  induction a with
  | nil => simp
  | cons w a ih =>
    have h := w.isLt
    rw [limbsValue_cons, List.length_cons, Nat.mul_add, pow_add]
    calc w.toNat * 2 ^ (32 * a.length) + limbsValue a < w.toNat * 2 ^ (32 * a.length) + 2 ^ (32 * a.length) := by omega
      _ = (w.toNat + 1) * 2 ^ (32 * a.length) := by ring
      _ ≤ 2 ^ 32 * 2 ^ (32 * a.length) := Nat.mul_le_mul_right _ (by omega)
      _ = 2 ^ (32 * a.length) * 2 ^ (32 * 1) := by ring

@[simp] theorem limbsValue_replicate_zero (n : Nat) : limbsValue (List.replicate n 0#32) = 0 := by
  induction n with
  | zero => rfl
  | succ n ih => simp [List.replicate_succ, ih]

theorem limbAt_lt (a : List Word) (i : Nat) : limbAt a i < 2 ^ 32 := (a.getD i 0#32).isLt

@[simp] theorem limbAt_cons_zero (w : Word) (a : List Word) : limbAt (w :: a) 0 = w.toNat := rfl

@[simp] theorem limbAt_cons_succ (w : Word) (a : List Word) (i : Nat) : limbAt (w :: a) (i + 1) = limbAt a i := rfl

theorem limbAt_set_ne (a : List Word) {i k : Nat} (v : Word) (h : k ≠ i) : limbAt (a.set i v) k = limbAt a k := by
  simp [limbAt, List.getD_eq_getElem?_getD, List.getElem?_set_ne (Ne.symm h)]

/-- Replacing element i changes the value by the element's weight. -/
theorem limbsValue_set (a : List Word) {i : Nat} (v : Word) (h : i < a.length) :
    limbsValue (a.set i v) + limbAt a i * 2 ^ (32 * (a.length - 1 - i)) =
      limbsValue a + v.toNat * 2 ^ (32 * (a.length - 1 - i)) := by
  induction a generalizing i with
  | nil => simp at h
  | cons w a ih =>
    cases i with
    | zero => simp; omega
    | succ i =>
      have h' : i < a.length := by simpa using h
      have e : (w :: a).length - 1 - (i + 1) = a.length - 1 - i := by simp; omega
      have := ih h'
      rw [e, List.set_cons_succ, limbsValue_cons, limbsValue_cons, List.length_set, limbAt_cons_succ]
      omega

/-- The value of the first j elements, read one element further. -/
theorem limbsValue_take_succ (a : List Word) {j : Nat} (h : j < a.length) :
    limbsValue (a.take (j + 1)) = limbsValue (a.take j) * 2 ^ 32 + limbAt a j := by
  have e : a.take (j + 1) = a.take j ++ [a[j]] := by simp
  rw [e, limbsValue_append]
  simp [limbAt, List.getD_eq_getElem?_getD, h]

/-! ### Trimming -/

@[simp] theorem limbsValue_trimLimbs (a : List Word) : limbsValue (trimLimbs a) = limbsValue a := by
  induction a with
  | nil => rfl
  | cons w a ih =>
    unfold trimLimbs at ih ⊢
    by_cases h : w = 0#32
    · simp [h, ih]
    · simp [h]

/-- An array whose first limb is not 0 has no fewer limbs than its value. -/
theorem length_eq_limbs_of_head {w : Word} {a : List Word} (h : w ≠ 0#32) :
    (w :: a).length = limbs (limbsValue (w :: a)) := by
  apply le_antisymm
  · by_contra hlt
    have h1 := limbs_le_iff.mp (Nat.le_of_lt_succ (not_le.mp hlt))
    have h2 : w.toNat ≠ 0 := fun h0 => h (BitVec.eq_of_toNat_eq h0)
    rw [limbsValue_cons] at h1
    have : 1 * 2 ^ (32 * a.length) ≤ w.toNat * 2 ^ (32 * a.length) := Nat.mul_le_mul_right _ (by omega)
    omega
  · exact limbs_le_iff.mpr (limbsValue_lt _)

/-- The trimmed form has as many limbs as the value (R10). -/
theorem length_trimLimbs (a : List Word) : (trimLimbs a).length = limbs (limbsValue a) := by
  induction a with
  | nil => rfl
  | cons w a ih =>
    by_cases h : w = 0#32
    · subst h
      have : trimLimbs (0#32 :: a) = trimLimbs a := by simp [trimLimbs]
      rw [this, ih]; simp
    · have : trimLimbs (w :: a) = w :: a := by simp [trimLimbs, h]
      rw [this, length_eq_limbs_of_head h]

/-! ### The n-limb form -/

@[simp] theorem length_toLimbs (n v : Nat) : (toLimbs n v).length = n := by
  induction n with
  | zero => rfl
  | succ n ih => simp [toLimbs, ih]

theorem limbsValue_toLimbs (n v : Nat) : limbsValue (toLimbs n v) = v % 2 ^ (32 * n) := by
  induction n with
  | zero => simp [toLimbs, Nat.mod_one]
  | succ n ih =>
    rw [toLimbs, limbsValue_cons, ih, length_toLimbs, BitVec.toNat_ofNat, Nat.shiftRight_eq_div_pow, Nat.mul_succ,
      pow_add, Nat.mod_mul]
    ring

theorem limbsValue_toLimbs_of_lt {n v : Nat} (h : v < 2 ^ (32 * n)) : limbsValue (toLimbs n v) = v := by
  rw [limbsValue_toLimbs, Nat.mod_eq_of_lt h]

/-! ### The schoolbook row (R125) -/

/-- One row of the schoolbook loop adds xi * y at its place, when z[i] is still 0; elements above i are not touched. -/
theorem schoolbookRow_spec {xi i n m : Nat} (hx : xi < 2 ^ 32) {y : List Word} (hm : y.length = m) (hi : i < n) :
    ∀ (j carry : Nat) (z : List Word), j ≤ m → carry < 2 ^ 32 → z.length = n + m → limbAt z i = 0 →
      (schoolbookRow xi y i j carry z).length = n + m ∧
      (∀ k < i, limbAt (schoolbookRow xi y i j carry z) k = limbAt z k) ∧
      limbsValue (schoolbookRow xi y i j carry z) = limbsValue z + carry * 2 ^ (32 * (n + m - 1 - (i + j))) +
        xi * limbsValue (y.take j) * 2 ^ (32 * (n + m - 1 - (i + j))) := by
  intro j
  induction j with
  | zero =>
    intro carry z hj hc hz h0
    refine ⟨by simp [schoolbookRow, hz], fun k hk => limbAt_set_ne _ _ (by omega), ?_⟩
    have := limbsValue_set z (BitVec.ofNat 32 carry) (i := i) (by omega)
    rw [h0, hz, BitVec.toNat_ofNat, Nat.mod_eq_of_lt hc] at this
    simp only [schoolbookRow]
    simpa using this
  | succ j ih =>
    intro carry z hj hc hz h0
    rw [schoolbookRow]
    set p := xi * limbAt y j + limbAt z (i + j + 1) + carry with hp
    have b1 := limbAt_lt y j
    have b2 := limbAt_lt z (i + j + 1)
    have hpl : p / 2 ^ 32 < 2 ^ 32 := by
      rw [Nat.div_lt_iff_lt_mul (by norm_num)]
      have : xi * limbAt y j ≤ (2 ^ 32 - 1) * (2 ^ 32 - 1) := Nat.mul_le_mul (by omega) (by omega)
      omega
    have hset := limbsValue_set z (BitVec.ofNat 32 p) (i := i + j + 1) (by omega)
    rw [hz, BitVec.toNat_ofNat] at hset
    obtain ⟨g1, g2, g3⟩ := ih (p / 2 ^ 32) (z.set (i + j + 1) (BitVec.ofNat 32 p)) (by omega) hpl (by simp [hz])
      (by rw [limbAt_set_ne _ _ (by omega), h0])
    refine ⟨g1, fun k hk => by rw [g2 k hk, limbAt_set_ne _ _ (by omega)], ?_⟩
    rw [g3, limbsValue_take_succ y (by omega)]
    have ew : n + m - 1 - (i + j) = (n + m - 1 - (i + (j + 1))) + 1 := by omega
    have ew2 : n + m - 1 - (i + j + 1) = n + m - 1 - (i + (j + 1)) := by omega
    rw [ew2] at hset
    rw [ew, Nat.mul_succ, pow_add]
    set W := 2 ^ (32 * (n + m - 1 - (i + (j + 1))))
    have hdm := Nat.div_add_mod p (2 ^ 32)
    have : p * W = (2 ^ 32 * (p / 2 ^ 32) + p % 2 ^ 32) * W := by rw [hdm]
    have h2 : p * W = xi * limbAt y j * W + limbAt z (i + j + 1) * W + carry * W := by rw [hp]; ring
    nlinarith

/-! ### One quotient digit (R145, R146) -/

theorem correctQhat_succ {y0 y1 x2 p qhat rhat : Nat} : correctQhat y0 y1 x2 (p + 1) qhat rhat =
    if qhat = 2 ^ 32 ∨ rhat * 2 ^ 32 + x2 < qhat * y1 then
      if 2 ^ 32 ≤ rhat + y0 then qhat - 1 else correctQhat y0 y1 x2 p (qhat - 1) (rhat + y0)
    else qhat := rfl

/-- The correction never takes a digit below the quotient, and stops at one the top three limbs allow. -/
theorem correctQhat_bounds {y0 y1 x2 num q B : Nat} (hB : B = 2 ^ 32) (h1 : y1 < B) (hq : q < B) (hnum : num < (y0 + 1) * B)
    (hlow : q * (y0 * B + y1) ≤ num * B + x2) : ∀ (passes qhat rhat : Nat),
    rhat < B → B ≤ rhat + passes * y0 → qhat * y0 + rhat = num → q ≤ qhat →
    q ≤ correctQhat y0 y1 x2 passes qhat rhat ∧
    correctQhat y0 y1 x2 passes qhat rhat * (y0 * B + y1) ≤ num * B + x2 := by
  intro passes
  induction passes with
  | zero => intro qhat rhat h2 h3; omega
  | succ p ih =>
    intro qhat rhat h2 h3 h4 h5
    rw [correctQhat_succ, ← hB]
    by_cases hc : qhat = B ∨ rhat * B + x2 < qhat * y1
    · have hlt : q < qhat := by
        rcases hc with rfl | hc
        · exact hq
        · by_contra hge
          obtain rfl : qhat = q := by omega
          rw [← h4] at hlow
          nlinarith
      obtain ⟨q', rfl⟩ : ∃ q', qhat = q' + 1 := ⟨qhat - 1, by omega⟩
      have e : q' * y0 + (rhat + y0) = num := by rw [← h4]; ring
      rw [if_pos hc, Nat.add_sub_cancel]
      by_cases hr : B ≤ rhat + y0
      · rw [if_pos hr]
        refine ⟨by omega, ?_⟩
        have hb : q' < B := by
          by_contra hge
          have : B * y0 ≤ q' * y0 := Nat.mul_le_mul_right _ (by omega)
          have : num < y0 * B + B := by linarith
          nlinarith
        have : q' * y1 ≤ B * B := Nat.mul_le_mul hb.le h1.le
        rw [← e]; nlinarith
      · rw [if_neg hr]
        exact ih q' (rhat + y0) (by omega) (by rw [Nat.succ_mul] at h3; omega) e (by omega)
    · rw [if_neg hc]
      refine ⟨h5, ?_⟩
      have : ¬ rhat * B + x2 < qhat * y1 := fun h => hc (.inr h)
      rw [← h4]; nlinarith

/-- From a window below y * 2^32, the corrected digit is the quotient or one more. -/
theorem quotientDigit_bounds {B P y0 y1 yr w0 w1 w2 wr Y W : Nat} (hB : B = 2 ^ 32) (hP : 0 < P)
    (hy0 : B ≤ 2 * y0) (hy0B : y0 < B) (hy1 : y1 < B) (hyr : yr < P)
    (hw2 : w2 < B) (hwr : wr < P) (eY : Y = (y0 * B + y1) * P + yr) (eW : W = ((w0 * B + w1) * B + w2) * P + wr)
    (hlt : W < Y * B) : W / Y ≤ correctQhat y0 y1 w2 2 ((w0 * B + w1) / y0) ((w0 * B + w1) % y0) ∧
      correctQhat y0 y1 w2 2 ((w0 * B + w1) / y0) ((w0 * B + w1) % y0) ≤ W / Y + 1 := by
  have hB2 : 2 ≤ B := by rw [hB]; norm_num
  set num := w0 * B + w1
  set Y2 := y0 * B + y1 with hY2
  have hY2B : B ≤ Y2 := by nlinarith
  have hYpos : 0 < Y := by rw [eY]; have : 0 < Y2 := by omega
                           have := Nat.mul_pos this hP; omega
  set q := W / Y with hq
  have hqlt : q < B := by
    rw [hq, Nat.div_lt_iff_lt_mul hYpos, Nat.mul_comm]; exact hlt
  have hqW : q * Y ≤ W := Nat.div_mul_le_self W Y
  have hWq : W < (q + 1) * Y := by rw [Nat.mul_comm]; exact Nat.lt_mul_div_succ W hYpos
  have hlow : q * Y2 ≤ num * B + w2 := by
    by_contra hgt
    have h1 : (num * B + w2 + 1) * P ≤ q * Y2 * P := Nat.mul_le_mul_right _ (by omega)
    have h2 : q * Y2 * P ≤ q * Y := by rw [eY, Nat.mul_assoc]; exact Nat.mul_le_mul_left _ (by omega)
    rw [Nat.add_mul] at h1
    omega
  have hnumlt : num < (y0 + 1) * B := by
    by_contra hge
    have h1 : (y0 + 1) * B * B * P ≤ W := by
      rw [eW]
      have : (y0 + 1) * B * B ≤ num * B := Nat.mul_le_mul_right _ (by omega)
      have := Nat.mul_le_mul_right P (this.trans (Nat.le_add_right _ w2))
      omega
    have h2 : Y < (y0 + 1) * B * P := by
      rw [eY]
      have : (Y2 + 1) * P ≤ (y0 + 1) * B * P := Nat.mul_le_mul_right _ (by rw [Nat.add_mul]; omega)
      rw [Nat.add_mul] at this
      omega
    have h3 : W < (y0 + 1) * B * P * B := lt_trans hlt (Nat.mul_lt_mul_of_pos_right h2 (by omega))
    have : (y0 + 1) * B * P * B = (y0 + 1) * B * B * P := by ring
    omega
  have hy0pos : 0 < y0 := by omega
  have hq0 : q ≤ num / y0 := by
    rw [Nat.le_div_iff_mul_le hy0pos]
    by_contra hgt
    have h1 : (num + 1) * B ≤ q * y0 * B := Nat.mul_le_mul_right _ (by omega)
    have h2 : q * Y2 = q * y0 * B + q * y1 := by rw [hY2]; ring
    rw [Nat.add_mul] at h1
    omega
  have hr := Nat.mod_lt num hy0pos
  obtain ⟨c1, c2⟩ := correctQhat_bounds (x2 := w2) hB hy1 hqlt hnumlt hlow 2 (num / y0) (num % y0)
    (by omega) (by omega) (Nat.div_add_mod' num y0) hq0
  refine ⟨c1, ?_⟩
  set qh := correctQhat y0 y1 w2 2 (num / y0) (num % y0)
  by_contra hgt
  have h1 : (q + 2) * Y2 ≤ num * B + w2 := le_trans (Nat.mul_le_mul_right _ (by omega)) c2
  have h2 : (q + 2) * Y2 * P ≤ W := by rw [eW]; have := Nat.mul_le_mul_right P h1; omega
  have h3 : Y ≤ (Y2 + 1) * P := by
    have : (Y2 + 1) * P = Y2 * P + P := Nat.succ_mul _ _
    omega
  have h4 : (q + 1) * Y ≤ (q + 1) * ((Y2 + 1) * P) := Nat.mul_le_mul_left _ h3
  have h5 : (q + 2) * Y2 * P < (q + 1) * (Y2 + 1) * P := by
    calc _ ≤ W := h2
      _ < (q + 1) * Y := hWq
      _ ≤ _ := h4
      _ = _ := by ring
  have h6 := lt_of_mul_lt_mul_right h5 (Nat.zero_le _)
  have : Y2 < q + 1 := by nlinarith
  omega

/-- A digit one too large leaves a negative difference, and adding y back once mends it. -/
theorem addBack_eq {W Y qh n : Nat} (hYpos : 0 < Y) (c1 : W / Y ≤ qh) (c2 : qh ≤ W / Y + 1) :
    (if ((W : Int) - qh * Y) < 0 then (qh - 1, toLimbs n ((W : Int) - qh * Y + Y).toNat)
      else (qh, toLimbs n ((W : Int) - qh * Y).toNat)) =
      (W / Y, toLimbs n (W % Y)) := by
  have hqW : W / Y * Y ≤ W := Nat.div_mul_le_self W Y
  have hWq : W < (W / Y + 1) * Y := by rw [Nat.mul_comm]; exact Nat.lt_mul_div_succ W hYpos
  have hmod : W % Y = W - W / Y * Y := by
    have := Nat.div_add_mod' W Y
    omega
  rw [hmod]
  generalize W / Y = q at *
  rcases Nat.lt_or_ge q qh with hc | hc
  · obtain rfl : qh = q + 1 := by omega
    have hneg : ((W : Int) - (q + 1 : Nat) * Y) < 0 := by
      have : (W : Int) < (q + 1 : Nat) * Y := by exact_mod_cast hWq
      omega
    rw [if_pos hneg]
    congr 2
    push_cast
    have : (W : Int) - (q + 1) * Y + Y = W - q * Y := by ring
    rw [this]
    have : (q : Int) * Y ≤ W := by exact_mod_cast hqW
    zify [hqW]; omega
  · obtain rfl : qh = q := by omega
    have : (qh : Int) * Y ≤ W := by exact_mod_cast hqW
    rw [if_neg (by omega)]
    congr 2
    zify [hqW]; omega

theorem knuthDigit_cons {y0 y1 w0 w1 w2 : Word} {yr wr : List Word} {t : Nat} (hyr : yr.length = t) (hwr : wr.length = t)
    (hy : 2 ^ 31 ≤ y0.toNat) (hlt : limbsValue (w0 :: w1 :: w2 :: wr) < limbsValue (y0 :: y1 :: yr) * 2 ^ 32) :
    knuthDigit (y0 :: y1 :: yr) (w0 :: w1 :: w2 :: wr) =
      (limbsValue (w0 :: w1 :: w2 :: wr) / limbsValue (y0 :: y1 :: yr),
        toLimbs (t + 3) (limbsValue (w0 :: w1 :: w2 :: wr) % limbsValue (y0 :: y1 :: yr))) := by
  have by0 := y0.isLt; have by1 := y1.isLt; have bw1 := w1.isLt; have bw2 := w2.isLt
  have byr := limbsValue_lt yr
  have bwr := limbsValue_lt wr
  rw [hyr] at byr; rw [hwr] at bwr
  unfold knuthDigit
  simp only [limbAt_cons_zero, limbAt_cons_succ]
  have hlen : (y0 :: y1 :: yr).length + 1 = t + 3 := by simp [hyr]
  rw [hlen]
  have eY : limbsValue (y0 :: y1 :: yr) = (y0.toNat * 2 ^ 32 + y1.toNat) * 2 ^ (32 * t) + limbsValue yr := by
    simp only [limbsValue_cons, List.length_cons, hyr]
    rw [Nat.mul_succ, pow_add]; ring
  have eW : limbsValue (w0 :: w1 :: w2 :: wr) =
      ((w0.toNat * 2 ^ 32 + w1.toNat) * 2 ^ 32 + w2.toNat) * 2 ^ (32 * t) + limbsValue wr := by
    simp only [limbsValue_cons, List.length_cons, hwr]
    rw [show 32 * (t + 1 + 1) = 32 * t + 32 + 32 by ring, show 32 * (t + 1) = 32 * t + 32 by ring,
      pow_add, pow_add]
    ring
  have hYpos : 0 < limbsValue (y0 :: y1 :: yr) := by omega
  obtain ⟨c1, c2⟩ := quotientDigit_bounds (B := 2 ^ 32) (P := 2 ^ (32 * t)) (y0 := y0.toNat) (y1 := y1.toNat)
    (yr := limbsValue yr) (w0 := w0.toNat) (w1 := w1.toNat) (w2 := w2.toNat) (wr := limbsValue wr) rfl
    (Nat.two_pow_pos (32 * t)) (by omega) by0 by1 byr bw2 bwr eY eW hlt
  exact addBack_eq hYpos c1 c2

/-- One digit of R145 is the exact quotient of its window, and leaves the exact remainder. -/
theorem knuthDigit_eq {yn win : List Word} {t : Nat} (ht : yn.length = t + 2) (hw : win.length = t + 3)
    (hy : 2 ^ 31 ≤ limbAt yn 0) (hlt : limbsValue win < limbsValue yn * 2 ^ 32) :
    knuthDigit yn win = (limbsValue win / limbsValue yn, toLimbs (t + 3) (limbsValue win % limbsValue yn)) := by
  obtain ⟨y0, y1, yr, rfl⟩ : ∃ y0 y1 yr, yn = y0 :: y1 :: yr := by
    rcases yn with _ | ⟨a, _ | ⟨b, c⟩⟩
    · simp at ht
    · simp at ht
    · exact ⟨_, _, _, rfl⟩
  obtain ⟨w0, w1, w2, wr, rfl⟩ : ∃ w0 w1 w2 wr, win = w0 :: w1 :: w2 :: wr := by
    rcases win with _ | ⟨a, _ | ⟨b, _ | ⟨c, d⟩⟩⟩
    · simp at hw
    · simp at hw
    · simp at hw
    · exact ⟨_, _, _, _, rfl⟩
  exact knuthDigit_cons (by simpa using ht) (by simpa using hw) hy hlt

theorem knuthLoop_cons (yn high : List Word) (d : Word) (rest : List Word) : knuthLoop yn high (d :: rest) =
    (BitVec.ofNat 32 (knuthDigit yn (high ++ [d])).1 :: (knuthLoop yn (knuthDigit yn (high ++ [d])).2.tail rest).1,
      (knuthLoop yn (knuthDigit yn (high ++ [d])).2.tail rest).2) := rfl

end Sys2Proof.Machine
end

