-- ==== Sys2Proof/Laws/Memory.lean ====
section
/-! SUPPORT. LM: read after write, what a write leaves alone, and the canonical form, for bytes, words and windows. -/

namespace Sys2Proof.Machine

/-! ### Bytes -/

@[simp] theorem readByte_writeByte_same (m : Memory) (a : Nat) (v : Byte) :
    Memory.readByte (Memory.writeByte m a v) a = some v := by
  induction m with
  | nil => simp [Memory.writeByte, Memory.readByte]
  | cons p rest ih =>
    obtain ⟨k, b⟩ := p
    simp only [Memory.writeByte]
    split
    · simp [Memory.readByte]
    · split
      · simp [Memory.readByte]
      · rename_i h1 h2
        simp [Memory.readByte, Ne.symm h2, ih]

theorem readByte_writeByte_ne (m : Memory) {a k : Nat} (v : Byte) (h : k ≠ a) :
    Memory.readByte (Memory.writeByte m a v) k = Memory.readByte m k := by
  induction m with
  | nil => simp [Memory.writeByte, Memory.readByte, Ne.symm h]
  | cons p rest ih =>
    obtain ⟨j, b⟩ := p
    simp only [Memory.writeByte]
    split
    · simp [Memory.readByte, Ne.symm h]
    · split
      · rename_i h1 h2
        subst h2
        simp [Memory.readByte, Ne.symm h]
      · simp only [Memory.readByte]
        split <;> simp [ih]

theorem readByte_writeByte (m : Memory) (a k : Nat) (v : Byte) :
    Memory.readByte (Memory.writeByte m a v) k = if k = a then some v else Memory.readByte m k := by
  split
  · subst_vars; simp
  · exact readByte_writeByte_ne m v ‹_›

/-- The cells after a byte write are the written one and some of the old ones. -/
theorem mem_writeByte {m : Memory} {a : Nat} {v : Byte} {c : Host.Cell} (h : c ∈ Memory.writeByte m a v) :
    c = (a, v) ∨ c ∈ m := by
  induction m with
  | nil => simpa [Memory.writeByte] using h
  | cons p rest ih =>
    obtain ⟨k, b⟩ := p
    simp only [Memory.writeByte] at h
    split at h
    · simpa [or_assoc] using h
    · split at h
      · rcases List.mem_cons.mp h with h | h
        · exact .inl h
        · exact .inr (List.mem_cons_of_mem _ h)
      · rcases List.mem_cons.mp h with h | h
        · exact .inr (h ▸ List.mem_cons_self)
        · exact (ih h).imp_right (List.mem_cons_of_mem _)

theorem wf_writeByte {m : Memory} (h : Memory.wf m) (a : Nat) (v : Byte) : Memory.wf (Memory.writeByte m a v) := by
  induction m with
  | nil => simp [Memory.writeByte, Memory.wf]
  | cons p rest ih =>
    obtain ⟨k, b⟩ := p
    obtain ⟨hk, hrest⟩ := List.pairwise_cons.mp h
    simp only [Memory.writeByte]
    split
    · rename_i hlt
      refine List.pairwise_cons.mpr ⟨fun c hc => ?_, h⟩
      rcases List.mem_cons.mp hc with rfl | hc
      · exact hlt
      · exact lt_trans hlt (hk c hc)
    · split
      · rename_i _ heq
        subst heq
        exact List.pairwise_cons.mpr ⟨hk, hrest⟩
      · refine List.pairwise_cons.mpr ⟨fun c hc => ?_, ih hrest⟩
        rcases mem_writeByte hc with rfl | hc
        · simp only at *; omega
        · exact hk c hc

/-- A listed cell's address reads as written. -/
theorem isSome_readByte_of_mem {m : Memory} {c : Host.Cell} (h : c ∈ m) : (Memory.readByte m c.1).isSome := by
  induction m with
  | nil => simp at h
  | cons p rest ih =>
    obtain ⟨k, b⟩ := p
    simp only [Memory.readByte]
    split
    · simp
    · rcases List.mem_cons.mp h with rfl | h
      · simp at *
      · exact ih h

/-- A byte that reads as written has a listed cell. -/
theorem mem_of_readByte {m : Memory} {a : Nat} {v : Byte} (h : Memory.readByte m a = some v) : (a, v) ∈ m := by
  induction m with
  | nil => simp [Memory.readByte] at h
  | cons p rest ih =>
    obtain ⟨k, b⟩ := p
    simp only [Memory.readByte] at h
    split at h
    · simp_all
    · exact List.mem_cons_of_mem _ (ih h)

/-! ### Words -/

/-- Every byte after a word write: one of the word's four lanes, or as before (R62). -/
theorem readByte_writeWord (m : Memory) (a k : Nat) (w : Word) :
    Memory.readByte (Memory.writeWord m a w) k =
      if k = 4 * a then some (w.extractLsb' 0 8) else if k = 4 * a + 1 then some (w.extractLsb' 8 8)
      else if k = 4 * a + 2 then some (w.extractLsb' 16 8) else if k = 4 * a + 3 then some (w.extractLsb' 24 8)
      else Memory.readByte m k := by
  unfold Memory.writeWord
  simp only [readByte_writeByte]
  split_ifs <;> first | rfl | omega

/-- A byte outside the written word reads as before. -/
theorem readByte_writeWord_outside (m : Memory) {a k : Nat} (w : Word) (h : k < 4 * a ∨ 4 * a + 4 ≤ k) :
    Memory.readByte (Memory.writeWord m a w) k = Memory.readByte m k := by
  rw [readByte_writeWord]
  split_ifs <;> first | rfl | omega

/-- The four byte lanes of a word, put together again, are the word (R62). -/
theorem lanes_append (w : Word) :
    (w.extractLsb' 24 8 ++ w.extractLsb' 16 8 ++ w.extractLsb' 8 8 ++ w.extractLsb' 0 8 : Word) = w := by
  apply BitVec.eq_of_getLsbD_eq
  intro i hi
  simp only [BitVec.getLsbD_append, BitVec.getLsbD_extractLsb']
  split_ifs
  · simp [*]
  · rw [decide_eq_true (by omega), Bool.true_and]; congr 1; omega
  · rw [decide_eq_true (by omega), Bool.true_and]; congr 1; omega
  · rw [decide_eq_true (by omega), Bool.true_and]; congr 1; omega

@[simp] theorem readWord_writeWord_same (m : Memory) (a : Nat) (w : Word) :
    Memory.readWord (Memory.writeWord m a w) a = some w := by
  simp only [Memory.readWord, readByte_writeWord]
  simp [lanes_append]

theorem readWord_writeWord_ne (m : Memory) {a b : Nat} (w : Word) (h : b ≠ a) :
    Memory.readWord (Memory.writeWord m a w) b = Memory.readWord m b := by
  simp only [Memory.readWord]
  rw [readByte_writeWord_outside, readByte_writeWord_outside, readByte_writeWord_outside, readByte_writeWord_outside]
  all_goals omega

/-- A word read depends on its four bytes alone. -/
theorem readWord_congr {m m' : Memory} {a : Nat}
    (h : ∀ k, 4 * a ≤ k → k < 4 * a + 4 → Memory.readByte m' k = Memory.readByte m k) :
    Memory.readWord m' a = Memory.readWord m a := by
  unfold Memory.readWord
  rw [h _ (by omega) (by omega), h _ (by omega) (by omega), h _ (by omega) (by omega), h _ (by omega) (by omega)]

/-- A word reads as written exactly when its four bytes do. -/
theorem isSome_readWord {m : Memory} {a : Nat} :
    (Memory.readWord m a).isSome ↔ ∀ k < 4, (Memory.readByte m (4 * a + k)).isSome := by
  constructor
  · intro h k hk
    unfold Memory.readWord at h
    split at h
    · have : k = 0 ∨ k = 1 ∨ k = 2 ∨ k = 3 := by omega
      rcases this with rfl | rfl | rfl | rfl <;> simp_all
    · simp at h
  · intro h
    unfold Memory.readWord
    obtain ⟨b0, h0⟩ := Option.isSome_iff_exists.mp (h 0 (by omega))
    obtain ⟨b1, h1⟩ := Option.isSome_iff_exists.mp (h 1 (by omega))
    obtain ⟨b2, h2⟩ := Option.isSome_iff_exists.mp (h 2 (by omega))
    obtain ⟨b3, h3⟩ := Option.isSome_iff_exists.mp (h 3 (by omega))
    simp only [Nat.add_zero] at h0
    simp [h0, h1, h2, h3]

theorem wf_writeWord {m : Memory} (h : Memory.wf m) (a : Nat) (w : Word) : Memory.wf (Memory.writeWord m a w) :=
  wf_writeByte (wf_writeByte (wf_writeByte (wf_writeByte h _ _) _ _) _ _) _ _

/-- The cells after a word write are old ones and the word's four bytes. -/
theorem mem_writeWord {m : Memory} {a : Nat} {w : Word} {c : Host.Cell} (h : c ∈ Memory.writeWord m a w) :
    (4 * a ≤ c.1 ∧ c.1 < 4 * a + 4) ∨ c ∈ m := by
  unfold Memory.writeWord at h
  rcases mem_writeByte h with rfl | h
  · left; simp
  rcases mem_writeByte h with rfl | h
  · left; simp
  rcases mem_writeByte h with rfl | h
  · left; simp
  rcases mem_writeByte h with rfl | h
  · left; simp
  · exact .inr h

/-! ### Windows -/

/-- A byte outside a written window reads as before. -/
theorem readByte_memWrite_outside (m : Memory) {a n k : Nat} (v : Nat) (h : k < 4 * a ∨ 4 * (a + n) ≤ k) :
    Memory.readByte (memWrite m a n v) k = Memory.readByte m k := by
  induction n generalizing m a with
  | zero => rfl
  | succ n ih =>
    rw [memWrite, ih _ (by omega), readByte_writeWord_outside _ _ (by omega)]

theorem readWord_memWrite_outside (m : Memory) {a n b : Nat} (v : Nat) (h : b < a ∨ a + n ≤ b) :
    Memory.readWord (memWrite m a n v) b = Memory.readWord m b :=
  readWord_congr fun _ _ _ => readByte_memWrite_outside m v (by omega)

theorem wf_memWrite {m : Memory} (h : Memory.wf m) (a n v : Nat) : Memory.wf (memWrite m a n v) := by
  induction n generalizing m a with
  | zero => exact h
  | succ n ih => exact ih (wf_writeWord h _ _) _

/-- The cells after a window write are old ones and bytes of the window. -/
theorem mem_memWrite {m : Memory} {a n v : Nat} {c : Host.Cell} (h : c ∈ memWrite m a n v) :
    (4 * a ≤ c.1 ∧ c.1 < 4 * (a + n)) ∨ c ∈ m := by
  induction n generalizing m a with
  | zero => exact .inr h
  | succ n ih =>
    rcases ih h with h | h
    · left; omega
    · rcases mem_writeWord h with h | h
      · left; omega
      · exact .inr h

/-- A word of a written window is its limb of the value (R10). -/
theorem readWord_memWrite {m : Memory} {a n v b : Nat} (h1 : a ≤ b) (h2 : b < a + n) :
    Memory.readWord (memWrite m a n v) b = some (BitVec.ofNat 32 (v >>> (32 * (n - 1 - (b - a))))) := by
  induction n generalizing m a with
  | zero => omega
  | succ n ih =>
    rw [memWrite]
    by_cases hb : b = a
    · subst hb
      rw [readWord_memWrite_outside _ _ (by omega)]
      simp
    · rw [ih (by omega) (by omega)]
      congr 4; omega

/-- A window's value depends on its words alone. -/
theorem memRead_congr {m m' : Memory} {a n : Nat}
    (h : ∀ b, a ≤ b → b < a + n → Memory.readWord m' b = Memory.readWord m b) : memRead m' a n = memRead m a n := by
  induction n generalizing a with
  | zero => rfl
  | succ n ih =>
    rw [memRead, memRead, h a (by omega) (by omega), ih fun b h1 h2 => h b (by omega) (by omega)]

/-- A window's value is below 2^(32n) (R9). -/
theorem memRead_lt {m : Memory} {a n v : Nat} (h : memRead m a n = .ok v) : v < 2 ^ (32 * n) := by
  induction n generalizing a v with
  | zero => simp [memRead] at h; simp [← h]
  | succ n ih =>
    rw [memRead] at h
    split at h
    · simp at h
    · split at h
      · simp at h
      · rename_i w _ _ u hu
        have h1 := ih hu
        have h2 := w.isLt
        obtain rfl : w.toNat * 2 ^ (32 * n) + u = v := by simpa using h
        calc w.toNat * 2 ^ (32 * n) + u < w.toNat * 2 ^ (32 * n) + 2 ^ (32 * n) := by omega
          _ = (w.toNat + 1) * 2 ^ (32 * n) := by ring
          _ ≤ 2 ^ 32 * 2 ^ (32 * n) := Nat.mul_le_mul_right _ h2
          _ = 2 ^ (32 * (n + 1)) := by rw [← pow_add]; congr 1; ring

/-- Reading a window stops exactly at an unwritten word of it, and names that word (R22, R222). -/
theorem memRead_error {m : Memory} {a n : Nat} {e : Stop} (h : memRead m a n = .error e) :
    ∃ b, a ≤ b ∧ b < a + n ∧ Memory.readWord m b = none ∧ e = .model (.readUnwritten b) := by
  induction n generalizing a with
  | zero => simp [memRead] at h
  | succ n ih =>
    rw [memRead] at h
    split at h
    · rename_i hw
      exact ⟨a, by omega, by omega, hw, by simpa using h.symm⟩
    · split at h
      · rename_i hu
        obtain rfl := Except.error.inj h
        obtain ⟨b, h1, h2, h3⟩ := ih hu
        exact ⟨b, by omega, by omega, h3⟩
      · simp at h

/-- A window read stops at its lowest unwritten word (R22, R222). -/
theorem memRead_unwritten {m : Memory} {a n b : Nat} (h1 : a ≤ b) (h2 : b < a + n) (hb : Memory.readWord m b = none)
    (hw : ∀ k, a ≤ k → k < b → (Memory.readWord m k).isSome) : memRead m a n = .error (.model (.readUnwritten b)) := by
  induction n generalizing a with
  | zero => omega
  | succ n ih =>
    rw [memRead]
    obtain rfl | hne := Nat.eq_or_lt_of_le h1
    · rw [hb]
    · obtain ⟨w, hw'⟩ := Option.isSome_iff_exists.mp (hw a le_rfl hne)
      rw [hw', ih hne (by omega) fun k hk => hw k (by omega)]

/-- A window whose words are all written has a value. -/
theorem memRead_of_written {m : Memory} {a n : Nat} (h : ∀ b, a ≤ b → b < a + n → (Memory.readWord m b).isSome) :
    ∃ v, memRead m a n = .ok v := by
  cases hv : memRead m a n with
  | ok v => exact ⟨v, rfl⟩
  | error e =>
    obtain ⟨b, h1, h2, h3, -⟩ := memRead_error hv
    simpa [h3] using h b h1 h2

/-- Every word of a window that has a value is written. -/
theorem written_of_memRead {m : Memory} {a n v : Nat} (h : memRead m a n = .ok v) {b : Nat} (h1 : a ≤ b)
    (h2 : b < a + n) : (Memory.readWord m b).isSome := by
  induction n generalizing a v with
  | zero => omega
  | succ n ih =>
    rw [memRead] at h
    split at h
    · simp at h
    · rename_i w hw
      split at h
      · simp at h
      · rename_i u hu
        by_cases hb : b = a
        · subst hb; simp [hw]
        · exact ih hu (by omega) (by omega)

/-- Reading a window after writing it gives the value's low 32n bits (R10). -/
theorem memRead_memWrite (m : Memory) (a n v : Nat) : memRead (memWrite m a n v) a n = .ok (v % 2 ^ (32 * n)) := by
  induction n generalizing m a with
  | zero => simp [memRead, Nat.mod_one]
  | succ n ih =>
    rw [memRead, memWrite, readWord_memWrite_outside _ _ (by omega), readWord_writeWord_same]
    simp only [ih, BitVec.toNat_ofNat, Nat.shiftRight_eq_div_pow]
    congr 1
    rw [show 32 * (n + 1) = 32 * n + 32 by ring, pow_add, Nat.mod_mul]
    ring

/-- A window outside the written one keeps its value. -/
theorem memRead_memWrite_outside (m : Memory) {a n b k : Nat} (v : Nat) (h : b + k ≤ a ∨ a + n ≤ b) :
    memRead (memWrite m a n v) b k = memRead m b k :=
  memRead_congr fun _ _ _ => readWord_memWrite_outside m v (by omega)

end Sys2Proof.Machine
end

