-- ==== Sys2Proof/Laws/Operands.lean ====
section
/-! SUPPORT. Descriptors, source values, and the canonical and raw-width writes: what each can do, said once. -/

namespace Sys2Proof.Machine

theorem base_lt (d : Word) : base d < 2 ^ 16 := (d.extractLsb' 0 16).isLt

theorem len_lt (d : Word) : len d < 2 ^ 16 := (d.extractLsb' 16 16).isLt

/-- The low half of a word put together from two halves. -/
theorem extractLow_append (h l : Half) : (h ++ l : Word).extractLsb' 0 16 = l := by
  apply BitVec.eq_of_getLsbD_eq
  intro i hi
  have h1 : (h ++ l).getLsbD i = if i < 16 then l.getLsbD i else h.getLsbD (i - 16) := BitVec.getLsbD_append
  rw [BitVec.getLsbD_extractLsb', Nat.zero_add, h1, if_pos hi, decide_eq_true hi, Bool.true_and]

/-- The high half of a word put together from two halves. -/
theorem extractHigh_append (h l : Half) : (h ++ l : Word).extractLsb' 16 16 = h := by
  apply BitVec.eq_of_getLsbD_eq
  intro i hi
  have h1 : (h ++ l).getLsbD (16 + i) = if 16 + i < 16 then l.getLsbD (16 + i) else h.getLsbD (16 + i - 16) :=
    BitVec.getLsbD_append
  rw [BitVec.getLsbD_extractLsb', h1, if_neg (by omega), Nat.add_sub_cancel_left, decide_eq_true hi, Bool.true_and]

/-- A word is its two halves put together. -/
theorem append_halves (w : Word) : (w.extractLsb' 16 16 ++ w.extractLsb' 0 16 : Word) = w := by
  apply BitVec.eq_of_getLsbD_eq
  intro i hi
  simp only [BitVec.getLsbD_append, BitVec.getLsbD_extractLsb']
  split_ifs
  · simp [*]
  · rw [decide_eq_true (by omega), Bool.true_and]; congr 1; omega

@[simp] theorem base_resultDesc (d : Word) (l : Nat) : base (resultDesc d l) = base d := by
  simp [base, resultDesc, extractLow_append]

theorem len_resultDesc (d : Word) {l : Nat} (h : l < 2 ^ 16) : len (resultDesc d l) = l := by
  rw [len, resultDesc, extractHigh_append, BitVec.toNat_ofNat, Nat.mod_eq_of_lt h]

@[simp] theorem base_canonDesc (d : Word) (v : Nat) : base (canonDesc d v) = base d := base_resultDesc d _

theorem len_canonDesc {d : Word} {v : Nat} (h : limbs v ≤ len d) : len (canonDesc d v) = limbs v :=
  len_resultDesc d (lt_of_le_of_lt h (len_lt d))

/-- Two descriptors with the same base and length are the same word (R64). -/
theorem desc_ext {d e : Word} (hb : base d = base e) (hl : len d = len e) : d = e := by
  rw [← append_halves d, ← append_halves e, BitVec.eq_of_toNat_eq hb, BitVec.eq_of_toNat_eq hl]

/-- A source value is below 2^(32*len). -/
theorem val_lt {s : State} {d : Word} {v : Nat} (h : val s d = .ok v) : v < 2 ^ (32 * len d) := memRead_lt h

/-- The effective length is at most the length (R66). -/
theorem limbs_le_len {s : State} {d : Word} {v : Nat} (h : val s d = .ok v) : limbs v ≤ len d :=
  limbs_le_iff.mpr (val_lt h)

/-- A source value stops the model only at an unwritten word of its window (R222). -/
theorem val_error {s : State} {d : Word} {e : Stop} (h : val s d = .error e) :
    ∃ a, base d ≤ a ∧ a < base d + len d ∧ Memory.readWord s.lm a = none ∧ e = .model (.readUnwritten a) :=
  memRead_error h

/-! ### The canonical write (R69) -/

/-- The result window holds the trimmed value at its base. -/
theorem memRead_writeCanonMem (m : Memory) (d : Word) (v : Nat) :
    memRead (writeCanonMem m d v) (base d) (limbs v) = .ok v := by
  rw [writeCanonMem, memRead_memWrite_outside _ _ (by omega), memRead_memWrite, Nat.mod_eq_of_lt (lt_limbs v)]

/-- The rest of the capacity is written zero. -/
theorem readWord_writeCanonMem_rest (m : Memory) {d : Word} {v a : Nat} (h1 : base d + limbs v ≤ a)
    (h2 : a < base d + len d) : Memory.readWord (writeCanonMem m d v) a = some 0#32 := by
  rw [writeCanonMem, readWord_memWrite h1 (by omega)]
  simp

/-- A byte outside the destination window reads as before. -/
theorem readByte_writeCanonMem_outside (m : Memory) {d : Word} {v k : Nat} (hv : limbs v ≤ len d)
    (h : k < 4 * base d ∨ 4 * (base d + len d) ≤ k) :
    Memory.readByte (writeCanonMem m d v) k = Memory.readByte m k := by
  rw [writeCanonMem, readByte_memWrite_outside _ _ (by omega), readByte_memWrite_outside _ _ (by omega)]

/-- A word outside the destination window reads as before. -/
theorem readWord_writeCanonMem_outside (m : Memory) {d : Word} {v a : Nat} (hv : limbs v ≤ len d)
    (h : a < base d ∨ base d + len d ≤ a) : Memory.readWord (writeCanonMem m d v) a = Memory.readWord m a :=
  readWord_congr fun _ _ _ => readByte_writeCanonMem_outside m hv (by omega)

theorem wf_writeCanonMem {m : Memory} (h : Memory.wf m) (d : Word) (v : Nat) : Memory.wf (writeCanonMem m d v) :=
  wf_memWrite (wf_memWrite h _ _ _) _ _ _

/-- The cells after a canonical write are old ones and bytes of the destination window. -/
theorem mem_writeCanonMem {m : Memory} {d : Word} {v : Nat} {c : Host.Cell} (hv : limbs v ≤ len d)
    (h : c ∈ writeCanonMem m d v) : (4 * base d ≤ c.1 ∧ c.1 < 4 * (base d + len d)) ∨ c ∈ m := by
  rcases mem_memWrite h with h | h
  · left; omega
  · rcases mem_memWrite h with h | h
    · left; omega
    · exact .inr h

/-- Windows that do not overlap share no word, and windows that do share one (R142). -/
theorem overlap_iff (q r : Word) :
    Overlap q r ↔ ∃ a, base q ≤ a ∧ a < base q + len q ∧ base r ≤ a ∧ a < base r + len r := by
  constructor
  · rintro ⟨h1, h2, h3, h4⟩
    exact ⟨max (base q) (base r), by omega, by omega, by omega, by omega⟩
  · rintro ⟨a, h1, h2, h3, h4⟩
    exact ⟨by omega, by omega, by omega, by omega⟩

end Sys2Proof.Machine
end

