-- ==== Sys2Proof/Laws/State.lean ====
section
/-! SUPPORT. One lemma per field per update of State, true by rfl, so that no later proof unfolds a record update; and reading
a register after writing one. -/

namespace Sys2Proof.Machine

/-! ### setLm -/

@[simp] theorem setLm_lm (s : State) (m : Memory) : (setLm s m).lm = m := rfl
@[simp] theorem setLm_x (s : State) (m : Memory) : (setLm s m).x = s.x := rfl
@[simp] theorem setLm_pc (s : State) (m : Memory) : (setLm s m).pc = s.pc := rfl
@[simp] theorem setLm_ieDone (s : State) (m : Memory) : (setLm s m).ieDone = s.ieDone := rfl
@[simp] theorem setLm_ieErr (s : State) (m : Memory) : (setLm s m).ieErr = s.ieErr := rfl
@[simp] theorem setLm_busy (s : State) (m : Memory) : (setLm s m).busy = s.busy := rfl
@[simp] theorem setLm_done (s : State) (m : Memory) : (setLm s m).done = s.done := rfl
@[simp] theorem setLm_err (s : State) (m : Memory) : (setLm s m).err = s.err := rfl
@[simp] theorem setLm_hacc (s : State) (m : Memory) : (setLm s m).hacc = s.hacc := rfl
@[simp] theorem setLm_ecode (s : State) (m : Memory) : (setLm s m).ecode = s.ecode := rfl
@[simp] theorem setLm_einfo (s : State) (m : Memory) : (setLm s m).einfo = s.einfo := rfl
@[simp] theorem setLm_lmDepth (s : State) (m : Memory) : (setLm s m).lmDepth = s.lmDepth := rfl
@[simp] theorem setLm_hostMoves (s : State) (m : Memory) : (setLm s m).hostMoves = s.hostMoves := rfl
@[simp] theorem setLm_hostData (s : State) (m : Memory) : (setLm s m).hostData = s.hostData := rfl
@[simp] theorem setLm_draws (s : State) (m : Memory) : (setLm s m).draws = s.draws := rfl

/-! ### setReg -/

@[simp] theorem setReg_lm (s : State) (r : Reg) (v : Word) : (setReg s r v).lm = s.lm := rfl
@[simp] theorem setReg_pc (s : State) (r : Reg) (v : Word) : (setReg s r v).pc = s.pc := rfl
@[simp] theorem setReg_ieDone (s : State) (r : Reg) (v : Word) : (setReg s r v).ieDone = s.ieDone := rfl
@[simp] theorem setReg_ieErr (s : State) (r : Reg) (v : Word) : (setReg s r v).ieErr = s.ieErr := rfl
@[simp] theorem setReg_busy (s : State) (r : Reg) (v : Word) : (setReg s r v).busy = s.busy := rfl
@[simp] theorem setReg_done (s : State) (r : Reg) (v : Word) : (setReg s r v).done = s.done := rfl
@[simp] theorem setReg_err (s : State) (r : Reg) (v : Word) : (setReg s r v).err = s.err := rfl
@[simp] theorem setReg_hacc (s : State) (r : Reg) (v : Word) : (setReg s r v).hacc = s.hacc := rfl
@[simp] theorem setReg_ecode (s : State) (r : Reg) (v : Word) : (setReg s r v).ecode = s.ecode := rfl
@[simp] theorem setReg_einfo (s : State) (r : Reg) (v : Word) : (setReg s r v).einfo = s.einfo := rfl
@[simp] theorem setReg_lmDepth (s : State) (r : Reg) (v : Word) : (setReg s r v).lmDepth = s.lmDepth := rfl
@[simp] theorem setReg_hostMoves (s : State) (r : Reg) (v : Word) : (setReg s r v).hostMoves = s.hostMoves := rfl
@[simp] theorem setReg_hostData (s : State) (r : Reg) (v : Word) : (setReg s r v).hostData = s.hostData := rfl
@[simp] theorem setReg_draws (s : State) (r : Reg) (v : Word) : (setReg s r v).draws = s.draws := rfl

/-! ### advance -/

@[simp] theorem advance_lm (s : State) : (advance s).lm = s.lm := rfl
@[simp] theorem advance_x (s : State) : (advance s).x = s.x := rfl
@[simp] theorem advance_pc (s : State) : (advance s).pc = s.pc + 1#32 := rfl
@[simp] theorem advance_ieDone (s : State) : (advance s).ieDone = s.ieDone := rfl
@[simp] theorem advance_ieErr (s : State) : (advance s).ieErr = s.ieErr := rfl
@[simp] theorem advance_busy (s : State) : (advance s).busy = s.busy := rfl
@[simp] theorem advance_done (s : State) : (advance s).done = s.done := rfl
@[simp] theorem advance_err (s : State) : (advance s).err = s.err := rfl
@[simp] theorem advance_hacc (s : State) : (advance s).hacc = s.hacc := rfl
@[simp] theorem advance_ecode (s : State) : (advance s).ecode = s.ecode := rfl
@[simp] theorem advance_einfo (s : State) : (advance s).einfo = s.einfo := rfl
@[simp] theorem advance_lmDepth (s : State) : (advance s).lmDepth = s.lmDepth := rfl
@[simp] theorem advance_hostMoves (s : State) : (advance s).hostMoves = s.hostMoves := rfl
@[simp] theorem advance_hostData (s : State) : (advance s).hostData = s.hostData := rfl
@[simp] theorem advance_draws (s : State) : (advance s).draws = s.draws := rfl

/-! ### haltStatus -/

@[simp] theorem haltStatus_lm (s : State) : (haltStatus s).lm = s.lm := rfl
@[simp] theorem haltStatus_x (s : State) : (haltStatus s).x = s.x := rfl
@[simp] theorem haltStatus_pc (s : State) : (haltStatus s).pc = s.pc := rfl
@[simp] theorem haltStatus_ieDone (s : State) : (haltStatus s).ieDone = s.ieDone := rfl
@[simp] theorem haltStatus_ieErr (s : State) : (haltStatus s).ieErr = s.ieErr := rfl
@[simp] theorem haltStatus_busy (s : State) : (haltStatus s).busy = false := rfl
@[simp] theorem haltStatus_done (s : State) : (haltStatus s).done = true := rfl
@[simp] theorem haltStatus_err (s : State) : (haltStatus s).err = s.err := rfl
@[simp] theorem haltStatus_hacc (s : State) : (haltStatus s).hacc = s.hacc := rfl
@[simp] theorem haltStatus_ecode (s : State) : (haltStatus s).ecode = s.ecode := rfl
@[simp] theorem haltStatus_einfo (s : State) : (haltStatus s).einfo = s.einfo := rfl
@[simp] theorem haltStatus_lmDepth (s : State) : (haltStatus s).lmDepth = s.lmDepth := rfl
@[simp] theorem haltStatus_hostMoves (s : State) : (haltStatus s).hostMoves = s.hostMoves := rfl
@[simp] theorem haltStatus_hostData (s : State) : (haltStatus s).hostData = s.hostData := rfl
@[simp] theorem haltStatus_draws (s : State) : (haltStatus s).draws = s.draws := rfl

/-! ### takeFault -/

@[simp] theorem takeFault_lm (c : FaultCode) (w : Word) (s : State) : (takeFault c w s).lm = s.lm := rfl
@[simp] theorem takeFault_x (c : FaultCode) (w : Word) (s : State) : (takeFault c w s).x = s.x := rfl
@[simp] theorem takeFault_pc (c : FaultCode) (w : Word) (s : State) : (takeFault c w s).pc = s.pc := rfl
@[simp] theorem takeFault_ieDone (c : FaultCode) (w : Word) (s : State) : (takeFault c w s).ieDone = s.ieDone := rfl
@[simp] theorem takeFault_ieErr (c : FaultCode) (w : Word) (s : State) : (takeFault c w s).ieErr = s.ieErr := rfl
@[simp] theorem takeFault_busy (c : FaultCode) (w : Word) (s : State) : (takeFault c w s).busy = false := rfl
@[simp] theorem takeFault_done (c : FaultCode) (w : Word) (s : State) : (takeFault c w s).done = s.done := rfl
@[simp] theorem takeFault_err (c : FaultCode) (w : Word) (s : State) : (takeFault c w s).err = true := rfl
@[simp] theorem takeFault_hacc (c : FaultCode) (w : Word) (s : State) : (takeFault c w s).hacc = s.hacc := rfl
@[simp] theorem takeFault_ecode (c : FaultCode) (w : Word) (s : State) : (takeFault c w s).ecode = c.ecode := rfl
@[simp] theorem takeFault_einfo (c : FaultCode) (w : Word) (s : State) : (takeFault c w s).einfo = if c = .fetch then 0#32 else w := rfl
@[simp] theorem takeFault_lmDepth (c : FaultCode) (w : Word) (s : State) : (takeFault c w s).lmDepth = s.lmDepth := rfl
@[simp] theorem takeFault_hostMoves (c : FaultCode) (w : Word) (s : State) : (takeFault c w s).hostMoves = s.hostMoves := rfl
@[simp] theorem takeFault_hostData (c : FaultCode) (w : Word) (s : State) : (takeFault c w s).hostData = s.hostData := rfl
@[simp] theorem takeFault_draws (c : FaultCode) (w : Word) (s : State) : (takeFault c w s).draws = s.draws := rfl

/-! ### start -/

@[simp] theorem start_lm (s : State) : (start s).lm = s.lm := rfl
@[simp] theorem start_x (s : State) : (start s).x = s.x := rfl
@[simp] theorem start_pc (s : State) : (start s).pc = s.pc := rfl
@[simp] theorem start_ieDone (s : State) : (start s).ieDone = s.ieDone := rfl
@[simp] theorem start_ieErr (s : State) : (start s).ieErr = s.ieErr := rfl
@[simp] theorem start_busy (s : State) : (start s).busy = true := rfl
@[simp] theorem start_done (s : State) : (start s).done = false := rfl
@[simp] theorem start_err (s : State) : (start s).err = false := rfl
@[simp] theorem start_hacc (s : State) : (start s).hacc = s.hacc := rfl
@[simp] theorem start_ecode (s : State) : (start s).ecode = 0#8 := rfl
@[simp] theorem start_einfo (s : State) : (start s).einfo = 0#32 := rfl
@[simp] theorem start_lmDepth (s : State) : (start s).lmDepth = s.lmDepth := rfl
@[simp] theorem start_hostMoves (s : State) : (start s).hostMoves = s.hostMoves := rfl
@[simp] theorem start_hostData (s : State) : (start s).hostData = s.hostData := rfl
@[simp] theorem start_draws (s : State) : (start s).draws = s.draws := rfl

/-! ### softReset -/

@[simp] theorem softReset_lm (s : State) : (softReset s).lm = s.lm := rfl
@[simp] theorem softReset_x (s : State) : (softReset s).x = Vector.replicate 16 0#32 := rfl
@[simp] theorem softReset_pc (s : State) : (softReset s).pc = 0#32 := rfl
@[simp] theorem softReset_ieDone (s : State) : (softReset s).ieDone = false := rfl
@[simp] theorem softReset_ieErr (s : State) : (softReset s).ieErr = false := rfl
@[simp] theorem softReset_busy (s : State) : (softReset s).busy = false := rfl
@[simp] theorem softReset_done (s : State) : (softReset s).done = false := rfl
@[simp] theorem softReset_err (s : State) : (softReset s).err = false := rfl
@[simp] theorem softReset_hacc (s : State) : (softReset s).hacc = false := rfl
@[simp] theorem softReset_ecode (s : State) : (softReset s).ecode = 0#8 := rfl
@[simp] theorem softReset_einfo (s : State) : (softReset s).einfo = 0#32 := rfl
@[simp] theorem softReset_lmDepth (s : State) : (softReset s).lmDepth = s.lmDepth := rfl
@[simp] theorem softReset_hostMoves (s : State) : (softReset s).hostMoves = s.hostMoves := rfl
@[simp] theorem softReset_hostData (s : State) : (softReset s).hostData = s.hostData := rfl
@[simp] theorem softReset_draws (s : State) : (softReset s).draws = s.draws := rfl

/-! ### refuseAccess -/

@[simp] theorem refuseAccess_lm (s : State) : (refuseAccess s).lm = s.lm := rfl
@[simp] theorem refuseAccess_x (s : State) : (refuseAccess s).x = s.x := rfl
@[simp] theorem refuseAccess_pc (s : State) : (refuseAccess s).pc = s.pc := rfl
@[simp] theorem refuseAccess_ieDone (s : State) : (refuseAccess s).ieDone = s.ieDone := rfl
@[simp] theorem refuseAccess_ieErr (s : State) : (refuseAccess s).ieErr = s.ieErr := rfl
@[simp] theorem refuseAccess_busy (s : State) : (refuseAccess s).busy = s.busy := rfl
@[simp] theorem refuseAccess_done (s : State) : (refuseAccess s).done = s.done := rfl
@[simp] theorem refuseAccess_err (s : State) : (refuseAccess s).err = s.err := rfl
@[simp] theorem refuseAccess_hacc (s : State) : (refuseAccess s).hacc = true := rfl
@[simp] theorem refuseAccess_ecode (s : State) : (refuseAccess s).ecode = s.ecode := rfl
@[simp] theorem refuseAccess_einfo (s : State) : (refuseAccess s).einfo = s.einfo := rfl
@[simp] theorem refuseAccess_lmDepth (s : State) : (refuseAccess s).lmDepth = s.lmDepth := rfl
@[simp] theorem refuseAccess_hostMoves (s : State) : (refuseAccess s).hostMoves = s.hostMoves := rfl
@[simp] theorem refuseAccess_hostData (s : State) : (refuseAccess s).hostData = s.hostData := rfl
@[simp] theorem refuseAccess_draws (s : State) : (refuseAccess s).draws = s.draws := rfl

/-! ### returnData -/

@[simp] theorem returnData_lm (s : State) (v : Word) : (returnData s v).lm = s.lm := rfl
@[simp] theorem returnData_x (s : State) (v : Word) : (returnData s v).x = s.x := rfl
@[simp] theorem returnData_pc (s : State) (v : Word) : (returnData s v).pc = s.pc := rfl
@[simp] theorem returnData_ieDone (s : State) (v : Word) : (returnData s v).ieDone = s.ieDone := rfl
@[simp] theorem returnData_ieErr (s : State) (v : Word) : (returnData s v).ieErr = s.ieErr := rfl
@[simp] theorem returnData_busy (s : State) (v : Word) : (returnData s v).busy = s.busy := rfl
@[simp] theorem returnData_done (s : State) (v : Word) : (returnData s v).done = s.done := rfl
@[simp] theorem returnData_err (s : State) (v : Word) : (returnData s v).err = s.err := rfl
@[simp] theorem returnData_hacc (s : State) (v : Word) : (returnData s v).hacc = s.hacc := rfl
@[simp] theorem returnData_ecode (s : State) (v : Word) : (returnData s v).ecode = s.ecode := rfl
@[simp] theorem returnData_einfo (s : State) (v : Word) : (returnData s v).einfo = s.einfo := rfl
@[simp] theorem returnData_lmDepth (s : State) (v : Word) : (returnData s v).lmDepth = s.lmDepth := rfl
@[simp] theorem returnData_hostMoves (s : State) (v : Word) : (returnData s v).hostMoves = s.hostMoves := rfl
@[simp] theorem returnData_hostData (s : State) (v : Word) : (returnData s v).hostData = v := rfl
@[simp] theorem returnData_draws (s : State) (v : Word) : (returnData s v).draws = s.draws := rfl

/-! ### writeCanon -/

@[simp] theorem writeCanon_lm (s : State) (d : Word) (v : Nat) : (writeCanon s d v).lm = writeCanonMem s.lm d v := rfl
@[simp] theorem writeCanon_x (s : State) (d : Word) (v : Nat) : (writeCanon s d v).x = s.x := rfl
@[simp] theorem writeCanon_pc (s : State) (d : Word) (v : Nat) : (writeCanon s d v).pc = s.pc := rfl
@[simp] theorem writeCanon_ieDone (s : State) (d : Word) (v : Nat) : (writeCanon s d v).ieDone = s.ieDone := rfl
@[simp] theorem writeCanon_ieErr (s : State) (d : Word) (v : Nat) : (writeCanon s d v).ieErr = s.ieErr := rfl
@[simp] theorem writeCanon_busy (s : State) (d : Word) (v : Nat) : (writeCanon s d v).busy = s.busy := rfl
@[simp] theorem writeCanon_done (s : State) (d : Word) (v : Nat) : (writeCanon s d v).done = s.done := rfl
@[simp] theorem writeCanon_err (s : State) (d : Word) (v : Nat) : (writeCanon s d v).err = s.err := rfl
@[simp] theorem writeCanon_hacc (s : State) (d : Word) (v : Nat) : (writeCanon s d v).hacc = s.hacc := rfl
@[simp] theorem writeCanon_ecode (s : State) (d : Word) (v : Nat) : (writeCanon s d v).ecode = s.ecode := rfl
@[simp] theorem writeCanon_einfo (s : State) (d : Word) (v : Nat) : (writeCanon s d v).einfo = s.einfo := rfl
@[simp] theorem writeCanon_lmDepth (s : State) (d : Word) (v : Nat) : (writeCanon s d v).lmDepth = s.lmDepth := rfl
@[simp] theorem writeCanon_hostMoves (s : State) (d : Word) (v : Nat) : (writeCanon s d v).hostMoves = s.hostMoves := rfl
@[simp] theorem writeCanon_hostData (s : State) (d : Word) (v : Nat) : (writeCanon s d v).hostData = s.hostData := rfl
@[simp] theorem writeCanon_draws (s : State) (d : Word) (v : Nat) : (writeCanon s d v).draws = s.draws := rfl

/-! ### writeRaw -/

@[simp] theorem writeRaw_lm (s : State) (d : Word) (v : Nat) : (writeRaw s d v).lm = memWrite s.lm (base d) (len d) v := rfl
@[simp] theorem writeRaw_x (s : State) (d : Word) (v : Nat) : (writeRaw s d v).x = s.x := rfl
@[simp] theorem writeRaw_pc (s : State) (d : Word) (v : Nat) : (writeRaw s d v).pc = s.pc := rfl
@[simp] theorem writeRaw_ieDone (s : State) (d : Word) (v : Nat) : (writeRaw s d v).ieDone = s.ieDone := rfl
@[simp] theorem writeRaw_ieErr (s : State) (d : Word) (v : Nat) : (writeRaw s d v).ieErr = s.ieErr := rfl
@[simp] theorem writeRaw_busy (s : State) (d : Word) (v : Nat) : (writeRaw s d v).busy = s.busy := rfl
@[simp] theorem writeRaw_done (s : State) (d : Word) (v : Nat) : (writeRaw s d v).done = s.done := rfl
@[simp] theorem writeRaw_err (s : State) (d : Word) (v : Nat) : (writeRaw s d v).err = s.err := rfl
@[simp] theorem writeRaw_hacc (s : State) (d : Word) (v : Nat) : (writeRaw s d v).hacc = s.hacc := rfl
@[simp] theorem writeRaw_ecode (s : State) (d : Word) (v : Nat) : (writeRaw s d v).ecode = s.ecode := rfl
@[simp] theorem writeRaw_einfo (s : State) (d : Word) (v : Nat) : (writeRaw s d v).einfo = s.einfo := rfl
@[simp] theorem writeRaw_lmDepth (s : State) (d : Word) (v : Nat) : (writeRaw s d v).lmDepth = s.lmDepth := rfl
@[simp] theorem writeRaw_hostMoves (s : State) (d : Word) (v : Nat) : (writeRaw s d v).hostMoves = s.hostMoves := rfl
@[simp] theorem writeRaw_hostData (s : State) (d : Word) (v : Nat) : (writeRaw s d v).hostData = s.hostData := rfl
@[simp] theorem writeRaw_draws (s : State) (d : Word) (v : Nat) : (writeRaw s d v).draws = s.draws := rfl

/-! ### Registers -/

@[simp] theorem getReg_setReg_same (s : State) (r : Reg) (v : Word) : getReg (setReg s r v) r = v := by
  simp [getReg, setReg]

theorem getReg_setReg_ne (s : State) {r r' : Reg} (v : Word) (h : r' ≠ r) :
    getReg (setReg s r v) r' = getReg s r' := by
  have : r.toNat ≠ r'.toNat := fun e => h (BitVec.eq_of_toNat_eq e.symm)
  simp [getReg, setReg, this]

theorem getReg_setReg (s : State) (r r' : Reg) (v : Word) :
    getReg (setReg s r v) r' = if r' = r then v else getReg s r' := by
  split
  · subst_vars; simp
  · exact getReg_setReg_ne s v ‹_›

/-- Registers are read from the field x alone. -/
theorem getReg_congr {s t : State} (h : t.x = s.x) (r : Reg) : getReg t r = getReg s r := by
  simp [getReg, h]

@[simp] theorem getReg_setLm (s : State) (m : Memory) (r : Reg) : getReg (setLm s m) r = getReg s r := rfl
@[simp] theorem getReg_advance (s : State) (r : Reg) : getReg (advance s) r = getReg s r := rfl
@[simp] theorem getReg_haltStatus (s : State) (r : Reg) : getReg (haltStatus s) r = getReg s r := rfl
@[simp] theorem getReg_takeFault (c : FaultCode) (w : Word) (s : State) (r : Reg) :
    getReg (takeFault c w s) r = getReg s r := rfl
@[simp] theorem getReg_start (s : State) (r : Reg) : getReg (start s) r = getReg s r := rfl
@[simp] theorem getReg_refuseAccess (s : State) (r : Reg) : getReg (refuseAccess s) r = getReg s r := rfl
@[simp] theorem getReg_returnData (s : State) (v : Word) (r : Reg) : getReg (returnData s v) r = getReg s r := rfl
@[simp] theorem getReg_writeCanon (s : State) (d : Word) (v : Nat) (r : Reg) :
    getReg (writeCanon s d v) r = getReg s r := rfl
@[simp] theorem getReg_writeRaw (s : State) (d : Word) (v : Nat) (r : Reg) :
    getReg (writeRaw s d v) r = getReg s r := rfl

/-- Both resets clear every register (R24). -/
@[simp] theorem getReg_softReset (s : State) (r : Reg) : getReg (softReset s) r = 0#32 := by
  simp [getReg]

@[simp] theorem getReg_reset (r : Reg) : getReg State.reset r = 0#32 := by
  simp [getReg, State.reset]

end Sys2Proof.Machine
end

