-- ==== Sys2Proof/Laws/Commands.lean ====
section
/-! SUPPORT. What each command's rule can do, said once: when it commits and to which state (`_ok`), and where it stops
(`_stop`). Later proofs cite these and never unfold a rule. -/

namespace Sys2Proof.Machine

/-! ### Checks and sequencing -/

theorem bind_eq_ok {α β : Type} {x : Except Stop α} {f : α → Except Stop β} {b : β} :
    (x >>= f) = .ok b ↔ ∃ a, x = .ok a ∧ f a = .ok b := by
  cases x <;> simp [bind, Except.bind]

theorem bind_eq_error {α β : Type} {x : Except Stop α} {f : α → Except Stop β} {e : Stop} :
    (x >>= f) = .error e ↔ x = .error e ∨ ∃ a, x = .ok a ∧ f a = .error e := by
  cases x <;> simp [bind, Except.bind]

@[simp] theorem need_eq_ok {p : Prop} [Decidable p] {c : FaultCode} {u : Unit} : need p c = .ok u ↔ p := by
  unfold need; split <;> simp [*]

@[simp] theorem need_eq_error {p : Prop} [Decidable p] {c : FaultCode} {e : Stop} :
    need p c = .error e ↔ ¬ p ∧ e = .trap c := by
  unfold need; split <;> simp [*, eq_comm]

@[simp] theorem checkBounds_eq_ok {s : State} {d : Word} {u : Unit} : checkBounds s d = .ok u ↔ InBounds s d := need_eq_ok

@[simp] theorem checkBounds_eq_error {s : State} {d : Word} {e : Stop} :
    checkBounds s d = .error e ↔ ¬ InBounds s d ∧ e = .trap .bounds := need_eq_error

/-! ### The end of a command -/

/-- A command answers a next state in exactly two ways: it commits, or it takes a fault. -/
theorem finish_eq_next {i : Instr} {s t : State} {body : Except Stop State} :
    finish i s body = .next t ↔
      (∃ u, body = .ok u ∧ t = advance u) ∨ ∃ c, body = .error (.trap c) ∧ t = takeFault c (encode i) s := by
  unfold finish
  split <;> simp [eq_comm]

/-- A command stops the model exactly when its rule does. -/
theorem finish_eq_fault {i : Instr} {s : State} {f : Fault} {body : Except Stop State} :
    finish i s body = .fault f ↔ body = .error (.model f) := by
  unfold finish
  split <;> simp

/-- No command is refused. -/
theorem finish_ne_refused (i : Instr) (s : State) (body : Except Stop State) (r : Refusal) :
    finish i s body ≠ .refused r := by
  unfold finish
  split <;> simp

/-! ### When a rule commits, and to which state -/

theorem mulBody_ok {rd ra rb : Reg} {s t : State} :
    mulBody rd ra rb s = .ok t ↔
      InBounds s (getReg s ra) ∧ InBounds s (getReg s rb) ∧ InBounds s (getReg s rd) ∧
      ∃ a b, val s (getReg s ra) = .ok a ∧ val s (getReg s rb) = .ok b ∧ limbs a + limbs b ≤ len (getReg s rd) ∧
        t = setReg (writeCanon s (getReg s rd) (a * b)) rd (canonDesc (getReg s rd) (a * b)) := by
  simp only [mulBody, bind_eq_ok, checkBounds_eq_ok, need_eq_ok, Except.ok.injEq]
  constructor
  · rintro ⟨-, h1, -, h2, -, h3, a, h4, b, h5, -, h6, rfl⟩
    exact ⟨h1, h2, h3, a, b, h4, h5, h6, rfl⟩
  · rintro ⟨h1, h2, h3, a, b, h4, h5, h6, rfl⟩
    exact ⟨(), h1, (), h2, (), h3, a, h4, b, h5, (), h6, rfl⟩

theorem muladd1Body_ok {rd ra rb rc : Reg} {s t : State} :
    muladd1Body rd ra rb rc s = .ok t ↔
      InBounds s (getReg s ra) ∧ ∃ d, val s (getReg s ra) = .ok d ∧
        t = setReg (writeRaw s (getReg s ra)
            ((d * (getReg s rb).toNat + (getReg s rc).toNat) % 2 ^ (32 * len (getReg s ra)))) rd
          (BitVec.ofNat 32 ((d * (getReg s rb).toNat + (getReg s rc).toNat) >>> (32 * len (getReg s ra)))) := by
  simp only [muladd1Body, bind_eq_ok, checkBounds_eq_ok, Except.ok.injEq]
  constructor
  · rintro ⟨-, h1, d, h2, rfl⟩
    exact ⟨h1, d, h2, rfl⟩
  · rintro ⟨h1, d, h2, rfl⟩
    exact ⟨(), h1, d, h2, rfl⟩

theorem divmodBody_ok {rd ra rb rc : Reg} {s t : State} :
    divmodBody rd ra rb rc s = .ok t ↔
      InBounds s (getReg s ra) ∧ InBounds s (getReg s rb) ∧ InBounds s (getReg s rd) ∧ InBounds s (getReg s rc) ∧
      ¬ Overlap (getReg s rd) (getReg s rc) ∧
      ∃ u v, val s (getReg s ra) = .ok u ∧ val s (getReg s rb) = .ok v ∧ limbs v ≠ 0 ∧
        quotientNeed (limbs u) (limbs v) ≤ len (getReg s rd) ∧ remainderNeed (limbs u) (limbs v) ≤ len (getReg s rc) ∧
        t = setReg (setReg (writeCanon (writeCanon s (getReg s rd) (u / v)) (getReg s rc) (u % v)) rd
          (canonDesc (getReg s rd) (u / v))) rc (canonDesc (getReg s rc) (u % v)) := by
  simp only [divmodBody, bind_eq_ok, checkBounds_eq_ok, need_eq_ok, Except.ok.injEq]
  constructor
  · rintro ⟨-, h1, -, h2, -, h3, -, h4, -, h5, u, h6, v, h7, -, h8, -, ⟨h9, h10⟩, rfl⟩
    exact ⟨h1, h2, h3, h4, h5, u, v, h6, h7, h8, h9, h10, rfl⟩
  · rintro ⟨h1, h2, h3, h4, h5, u, v, h6, h7, h8, h9, h10, rfl⟩
    exact ⟨(), h1, (), h2, (), h3, (), h4, (), h5, u, h6, v, h7, (), h8, (), ⟨h9, h10⟩, rfl⟩

theorem divrem1Body_ok {rd ra rb : Reg} {s t : State} :
    divrem1Body rd ra rb s = .ok t ↔
      InBounds s (getReg s ra) ∧ (getReg s rb).toNat ≠ 0 ∧ ∃ u, val s (getReg s ra) = .ok u ∧
        t = setReg (writeRaw s (getReg s ra) (u / (getReg s rb).toNat)) rd
          (BitVec.ofNat 32 (u % (getReg s rb).toNat)) := by
  simp only [divrem1Body, bind_eq_ok, checkBounds_eq_ok, need_eq_ok, Except.ok.injEq]
  constructor
  · rintro ⟨-, h1, -, h2, u, h3, rfl⟩
    exact ⟨h1, h2, u, h3, rfl⟩
  · rintro ⟨h1, h2, u, h3, rfl⟩
    exact ⟨(), h1, (), h2, u, h3, rfl⟩

theorem normBody_ok {rd ra rb : Reg} {s t : State} :
    normBody rd ra rb s = .ok t ↔
      InBounds s (getReg s ra) ∧ InBounds s (getReg s rd) ∧ (getReg s rb).toNat < 32 ∧
      (len (getReg s rd) = len (getReg s ra) ∨ len (getReg s rd) = len (getReg s ra) + 1) ∧
      ∃ m, val s (getReg s ra) = .ok m ∧
        shiftLeft m (getReg s rb).toNat < 2 ^ (32 * len (getReg s rd)) ∧
        t = writeRaw s (getReg s rd) (shiftLeft m (getReg s rb).toNat) := by
  simp only [normBody, bind_eq_ok, checkBounds_eq_ok, need_eq_ok, Except.ok.injEq]
  constructor
  · rintro ⟨-, h1, -, h2, -, h3, -, h4, m, h5, -, h6, rfl⟩
    exact ⟨h1, h2, h3, h4, m, h5, h6, rfl⟩
  · rintro ⟨h1, h2, h3, h4, m, h5, h6, rfl⟩
    exact ⟨(), h1, (), h2, (), h3, (), h4, m, h5, (), h6, rfl⟩

/-- The magnitude shifted by k: times 2^k, or floor-divided by 2^-k (R181). -/
theorem shiftMagnitude_ok {m cap v : Nat} {k : Int} :
    shiftMagnitude m k cap = .ok v ↔
      v = (if 0 ≤ k then m * 2 ^ k.toNat else m / 2 ^ (-k).toNat) ∧ limbs v ≤ cap := by
  unfold shiftMagnitude
  split
  · simp only [bind_eq_ok, need_eq_ok, Except.ok.injEq, shiftLeftLimbs_eq, shiftLeft_eq]
    constructor
    · rintro ⟨-, h, rfl⟩; exact ⟨rfl, h⟩
    · rintro ⟨rfl, h⟩; exact ⟨(), h, rfl⟩
  · simp only [bind_eq_ok, need_eq_ok, Except.ok.injEq, Nat.shiftRight_eq_div_pow]
    constructor
    · rintro ⟨-, h, rfl⟩; exact ⟨rfl, h⟩
    · rintro ⟨rfl, h⟩; exact ⟨(), h, rfl⟩

theorem shiftMagnitude_stop {m cap : Nat} {k : Int} {e : Stop} :
    shiftMagnitude m k cap = .error e ↔
      cap < limbs (if 0 ≤ k then m * 2 ^ k.toNat else m / 2 ^ (-k).toNat) ∧ e = .trap .capacity := by
  unfold shiftMagnitude
  split <;> simp [bind_eq_error, shiftLeftLimbs_eq, Nat.shiftRight_eq_div_pow]

theorem shiftBody_ok {rd ra : Reg} {k : Int} {s t : State} :
    shiftBody rd ra k s = .ok t ↔
      InBounds s (getReg s ra) ∧ InBounds s (getReg s rd) ∧
      ∃ m v, val s (getReg s ra) = .ok m ∧ v = (if 0 ≤ k then m * 2 ^ k.toNat else m / 2 ^ (-k).toNat) ∧
        limbs v ≤ len (getReg s rd) ∧
        t = setReg (writeCanon s (getReg s rd) v) rd (canonDesc (getReg s rd) v) := by
  simp only [shiftBody, bind_eq_ok, checkBounds_eq_ok, shiftMagnitude_ok, Except.ok.injEq]
  constructor
  · rintro ⟨-, h1, -, h2, m, h3, v, ⟨h4, h5⟩, rfl⟩
    exact ⟨h1, h2, m, v, h3, h4, h5, rfl⟩
  · rintro ⟨h1, h2, m, v, h3, h4, h5, rfl⟩
    exact ⟨(), h1, (), h2, m, h3, v, ⟨h4, h5⟩, rfl⟩

/-- The magnitude of a signed value is its magnitude. -/
theorem natAbs_sign_mul {σ : Int} (h : σ = -1 ∨ σ = 0 ∨ σ = 1) {m : Nat} (hz : σ = 0 ↔ m = 0) (j : Nat) :
    (σ * (m * 2 ^ j : Nat)).natAbs = m * 2 ^ j := by
  rcases h with rfl | rfl | rfl
  · rw [neg_one_mul, Int.natAbs_neg, Int.natAbs_natCast]
  · obtain rfl := hz.mp rfl; simp
  · rw [one_mul, Int.natAbs_natCast]

/-- The signed value shifted by k: floor of the quotient by 2^k, or times 2^-k (R184). -/
theorem shiftSigned_ok {σ : Int} {m cap : Nat} {k w : Int} (hσ : GoodSign σ m) :
    shiftSigned σ m k cap = .ok w ↔
      w = (if 0 ≤ k then (σ * m) / 2 ^ k.toNat else σ * m * 2 ^ (-k).toNat) ∧ limbs w.natAbs ≤ cap := by
  unfold shiftSigned
  split
  · simp only [bind_eq_ok, need_eq_ok, Except.ok.injEq, Int.shiftRight_eq_div_pow, Nat.cast_pow, Nat.cast_ofNat]
    constructor
    · rintro ⟨-, h, rfl⟩; exact ⟨rfl, h⟩
    · rintro ⟨rfl, h⟩; exact ⟨(), h, rfl⟩
  · simp only [bind_eq_ok, need_eq_ok, Except.ok.injEq, shiftLeftLimbs_eq, shiftLeft_eq]
    have hc : σ * m * 2 ^ (-k).toNat = σ * (m * 2 ^ (-k).toNat : Nat) := by push_cast; ring
    rw [hc]
    constructor
    · rintro ⟨-, h, rfl⟩; exact ⟨rfl, by rwa [natAbs_sign_mul hσ.1 hσ.2]⟩
    · rintro ⟨rfl, h⟩
      rw [natAbs_sign_mul hσ.1 hσ.2] at h
      exact ⟨(), h, rfl⟩

theorem shiftSigned_stop {σ : Int} {m cap : Nat} {k : Int} {e : Stop} (hσ : GoodSign σ m) :
    shiftSigned σ m k cap = .error e ↔
      cap < limbs (if 0 ≤ k then (σ * m) / 2 ^ k.toNat else σ * m * 2 ^ (-k).toNat : Int).natAbs ∧
        e = .trap .capacity := by
  unfold shiftSigned
  split
  · simp [bind_eq_error, Int.shiftRight_eq_div_pow]
  · have hc : σ * m * 2 ^ (-k).toNat = σ * (m * 2 ^ (-k).toNat : Nat) := by push_cast; ring
    rw [hc, natAbs_sign_mul hσ.1 hσ.2]
    simp [bind_eq_error, shiftLeftLimbs_eq]

theorem sarBody_ok {rd ra rb rc : Reg} {s t : State} :
    sarBody rd ra rb rc s = .ok t ↔
      InBounds s (getReg s ra) ∧ InBounds s (getReg s rd) ∧
      ∃ m w, val s (getReg s ra) = .ok m ∧ GoodSign (s32 (getReg s rc)) m ∧
        w = (if 0 ≤ s32 (getReg s rb) then (s32 (getReg s rc) * m) / 2 ^ (s32 (getReg s rb)).toNat
          else s32 (getReg s rc) * m * 2 ^ (- s32 (getReg s rb)).toNat) ∧
        limbs w.natAbs ≤ len (getReg s rd) ∧
        t = setReg (setReg (writeCanon s (getReg s rd) w.natAbs) rd (canonDesc (getReg s rd) w.natAbs)) rc
          (signWord w) := by
  simp only [sarBody, bind_eq_ok, checkBounds_eq_ok, need_eq_ok, Except.ok.injEq]
  constructor
  · rintro ⟨-, h1, -, h2, m, h3, -, h4, w, h5, rfl⟩
    obtain ⟨h6, h7⟩ := (shiftSigned_ok h4).mp h5
    exact ⟨h1, h2, m, w, h3, h4, h6, h7, rfl⟩
  · rintro ⟨h1, h2, m, w, h3, h4, h5, h6, rfl⟩
    exact ⟨(), h1, (), h2, m, h3, (), h4, w, (shiftSigned_ok h4).mpr ⟨h5, h6⟩, rfl⟩

theorem lzcaBody_ok {rd ra : Reg} {s t : State} :
    lzcaBody rd ra s = .ok t ↔
      InBounds s (getReg s ra) ∧ ∃ v, val s (getReg s ra) = .ok v ∧
        t = setReg s rd (BitVec.ofNat 32 (32 * len (getReg s ra) - bitlen v)) := by
  simp only [lzcaBody, bind_eq_ok, checkBounds_eq_ok, Except.ok.injEq]
  constructor
  · rintro ⟨-, h1, v, h2, rfl⟩
    exact ⟨h1, v, h2, rfl⟩
  · rintro ⟨h1, v, h2, rfl⟩
    exact ⟨(), h1, v, h2, rfl⟩

/-! ### Where a rule stops -/

theorem mulBody_stop {rd ra rb : Reg} {s : State} {e : Stop} (h : mulBody rd ra rb s = .error e) :
    e = .trap .bounds ∨ e = .trap .capacity ∨ val s (getReg s ra) = .error e ∧ InBounds s (getReg s ra) ∨
      val s (getReg s rb) = .error e ∧ InBounds s (getReg s rb) := by
  simp only [mulBody, bind_eq_error, checkBounds_eq_error, checkBounds_eq_ok, need_eq_error, need_eq_ok] at h
  aesop

theorem muladd1Body_stop {rd ra rb rc : Reg} {s : State} {e : Stop} (h : muladd1Body rd ra rb rc s = .error e) :
    e = .trap .bounds ∨ val s (getReg s ra) = .error e ∧ InBounds s (getReg s ra) := by
  simp only [muladd1Body, bind_eq_error, checkBounds_eq_error, checkBounds_eq_ok] at h
  aesop

theorem divmodBody_stop {rd ra rb rc : Reg} {s : State} {e : Stop} (h : divmodBody rd ra rb rc s = .error e) :
    e = .trap .bounds ∨ e = .trap .overlap ∨ e = .trap .divzero ∨ e = .trap .capacity ∨
      val s (getReg s ra) = .error e ∧ InBounds s (getReg s ra) ∨
      val s (getReg s rb) = .error e ∧ InBounds s (getReg s rb) := by
  simp only [divmodBody, bind_eq_error, checkBounds_eq_error, checkBounds_eq_ok, need_eq_error, need_eq_ok] at h
  aesop

theorem divrem1Body_stop {rd ra rb : Reg} {s : State} {e : Stop} (h : divrem1Body rd ra rb s = .error e) :
    e = .trap .bounds ∨ e = .trap .divzero ∨ val s (getReg s ra) = .error e ∧ InBounds s (getReg s ra) := by
  simp only [divrem1Body, bind_eq_error, checkBounds_eq_error, checkBounds_eq_ok, need_eq_error, need_eq_ok] at h
  aesop

theorem normBody_stop {rd ra rb : Reg} {s : State} {e : Stop} (h : normBody rd ra rb s = .error e) :
    e = .trap .bounds ∨ e = .trap .outofrange ∨ e = .trap .badlen ∨ e = .trap .invalidop ∨
      val s (getReg s ra) = .error e ∧ InBounds s (getReg s ra) := by
  simp only [normBody, bind_eq_error, checkBounds_eq_error, checkBounds_eq_ok, need_eq_error, need_eq_ok] at h
  aesop

theorem shiftBody_stop {rd ra : Reg} {k : Int} {s : State} {e : Stop} (h : shiftBody rd ra k s = .error e) :
    e = .trap .bounds ∨ e = .trap .capacity ∨ val s (getReg s ra) = .error e ∧ InBounds s (getReg s ra) := by
  simp only [shiftBody, bind_eq_error, checkBounds_eq_error, checkBounds_eq_ok, shiftMagnitude_stop] at h
  aesop

theorem sarBody_stop {rd ra rb rc : Reg} {s : State} {e : Stop} (h : sarBody rd ra rb rc s = .error e) :
    e = .trap .bounds ∨ e = .trap .badsign ∨ e = .trap .capacity ∨
      val s (getReg s ra) = .error e ∧ InBounds s (getReg s ra) := by
  simp only [sarBody, bind_eq_error, checkBounds_eq_error, checkBounds_eq_ok, need_eq_error, need_eq_ok] at h
  rcases h with ⟨-, rfl⟩ | ⟨-, h1, h⟩
  · exact .inl rfl
  rcases h with ⟨-, rfl⟩ | ⟨-, -, h⟩
  · exact .inl rfl
  rcases h with h | ⟨m, -, h⟩
  · exact .inr (.inr (.inr ⟨h, h1⟩))
  rcases h with ⟨-, rfl⟩ | ⟨-, h4, h⟩
  · exact .inr (.inl rfl)
  rcases h with h | ⟨w, -, h⟩
  · exact .inr (.inr (.inl ((shiftSigned_stop h4).mp h).2))
  · simp at h

theorem lzcaBody_stop {rd ra : Reg} {s : State} {e : Stop} (h : lzcaBody rd ra s = .error e) :
    e = .trap .bounds ∨ val s (getReg s ra) = .error e ∧ InBounds s (getReg s ra) := by
  simp only [lzcaBody, bind_eq_error, checkBounds_eq_error, checkBounds_eq_ok] at h
  aesop

end Sys2Proof.Machine
end

