-- ==== Sys2Proof/Laws/Encoding.lean ====
section
/-! SUPPORT. The fields and masks of the three formats (R81 to R83), format by format, so that no proof about a command's word
goes through its bits again. -/

namespace Sys2Proof

/-! ### The fields of the three formats -/

theorem getLsbD_formatR (op : BitVec 6) (rd ra rb rc : Reg) (k : Nat) :
    (formatR op rd ra rb rc).getLsbD k = if k < 10 then false else if k < 14 then rc.getLsbD (k - 10)
      else if k < 18 then rb.getLsbD (k - 14) else if k < 22 then ra.getLsbD (k - 18)
      else if k < 26 then rd.getLsbD (k - 22) else op.getLsbD (k - 26) := by
  unfold formatR
  simp only [BitVec.getLsbD_append]
  split_ifs <;> first | omega | simp | congr 1

theorem getLsbD_formatI (op : BitVec 6) (rd : Reg) (imm : Half) (k : Nat) :
    (formatI op rd imm).getLsbD k = if k < 16 then imm.getLsbD k else if k < 22 then false
      else if k < 26 then rd.getLsbD (k - 22) else op.getLsbD (k - 26) := by
  unfold formatI
  simp only [BitVec.getLsbD_append]
  split_ifs <;> first | omega | simp | congr 1

@[simp] theorem opField_formatR (op : BitVec 6) (rd ra rb rc : Reg) : opField (formatR op rd ra rb rc) = op := by
  apply BitVec.eq_of_getLsbD_eq
  intro i hi
  rw [opField, BitVec.getLsbD_extractLsb', getLsbD_formatR, if_neg (by omega), if_neg (by omega), if_neg (by omega),
    if_neg (by omega), if_neg (by omega), decide_eq_true hi, Bool.true_and]
  congr 1; omega

@[simp] theorem rdField_formatR (op : BitVec 6) (rd ra rb rc : Reg) : rdField (formatR op rd ra rb rc) = rd := by
  apply BitVec.eq_of_getLsbD_eq
  intro i hi
  rw [rdField, BitVec.getLsbD_extractLsb', getLsbD_formatR, if_neg (by omega), if_neg (by omega), if_neg (by omega),
    if_neg (by omega), if_pos (by omega), decide_eq_true hi, Bool.true_and]
  congr 1; omega

@[simp] theorem raField_formatR (op : BitVec 6) (rd ra rb rc : Reg) : raField (formatR op rd ra rb rc) = ra := by
  apply BitVec.eq_of_getLsbD_eq
  intro i hi
  rw [raField, BitVec.getLsbD_extractLsb', getLsbD_formatR, if_neg (by omega), if_neg (by omega), if_neg (by omega),
    if_pos (by omega), decide_eq_true hi, Bool.true_and]
  congr 1; omega

@[simp] theorem rbField_formatR (op : BitVec 6) (rd ra rb rc : Reg) : rbField (formatR op rd ra rb rc) = rb := by
  apply BitVec.eq_of_getLsbD_eq
  intro i hi
  rw [rbField, BitVec.getLsbD_extractLsb', getLsbD_formatR, if_neg (by omega), if_neg (by omega), if_pos (by omega),
    decide_eq_true hi, Bool.true_and]
  congr 1; omega

@[simp] theorem rcField_formatR (op : BitVec 6) (rd ra rb rc : Reg) : rcField (formatR op rd ra rb rc) = rc := by
  apply BitVec.eq_of_getLsbD_eq
  intro i hi
  rw [rcField, BitVec.getLsbD_extractLsb', getLsbD_formatR, if_neg (by omega), if_pos (by omega), decide_eq_true hi,
    Bool.true_and]
  congr 1; omega

@[simp] theorem rb_bits_formatR (op : BitVec 6) (rd ra rb rc : Reg) :
    (formatR op rd ra rb rc).extractLsb' 14 4 = rb := rbField_formatR op rd ra rb rc

@[simp] theorem rc_bits_formatR (op : BitVec 6) (rd ra rb rc : Reg) :
    (formatR op rd ra rb rc).extractLsb' 10 4 = rc := rcField_formatR op rd ra rb rc

@[simp] theorem reserved_formatR (op : BitVec 6) (rd ra rb rc : Reg) :
    (formatR op rd ra rb rc).extractLsb' 0 10 = 0#10 := by
  apply BitVec.eq_of_getLsbD_eq
  intro i hi
  rw [BitVec.getLsbD_extractLsb', getLsbD_formatR, if_pos (by omega), Bool.and_false, BitVec.getLsbD_zero]

@[simp] theorem opField_formatI (op : BitVec 6) (rd : Reg) (imm : Half) : opField (formatI op rd imm) = op := by
  apply BitVec.eq_of_getLsbD_eq
  intro i hi
  rw [opField, BitVec.getLsbD_extractLsb', getLsbD_formatI, if_neg (by omega), if_neg (by omega), if_neg (by omega),
    decide_eq_true hi, Bool.true_and]
  congr 1; omega

@[simp] theorem rdField_formatI (op : BitVec 6) (rd : Reg) (imm : Half) : rdField (formatI op rd imm) = rd := by
  apply BitVec.eq_of_getLsbD_eq
  intro i hi
  rw [rdField, BitVec.getLsbD_extractLsb', getLsbD_formatI, if_neg (by omega), if_neg (by omega), if_pos (by omega),
    decide_eq_true hi, Bool.true_and]
  congr 1; omega

@[simp] theorem immField_formatI (op : BitVec 6) (rd : Reg) (imm : Half) : immField (formatI op rd imm) = imm := by
  apply BitVec.eq_of_getLsbD_eq
  intro i hi
  rw [immField, BitVec.getLsbD_extractLsb', getLsbD_formatI, if_pos (by omega), decide_eq_true hi, Bool.true_and]
  congr 1; omega

@[simp] theorem reserved_formatI (op : BitVec 6) (rd : Reg) (imm : Half) :
    (formatI op rd imm).extractLsb' 16 6 = 0#6 := by
  apply BitVec.eq_of_getLsbD_eq
  intro i hi
  rw [BitVec.getLsbD_extractLsb', getLsbD_formatI, if_neg (by omega), if_pos (by omega), Bool.and_false,
    BitVec.getLsbD_zero]

/-! ### Masks, format by format -/

theorem formatR_and (op o : BitVec 6) (rd ra rb rc d a b c : Reg) (z : BitVec 10) :
    formatR op rd ra rb rc &&& (o ++ d ++ a ++ b ++ c ++ z : BitVec (6 + 4 + 4 + 4 + 4 + 10)) =
      formatR (op &&& o) (rd &&& d) (ra &&& a) (rb &&& b) (rc &&& c) := by
  unfold formatR
  refine BitVec.and_append.trans ?_
  rw [BitVec.and_append, BitVec.and_append, BitVec.and_append, BitVec.and_append, BitVec.zero_and]

theorem formatI_and (op o : BitVec 6) (rd d : Reg) (imm m : Half) (z : BitVec 6) :
    formatI op rd imm &&& (o ++ d ++ z ++ m : BitVec (6 + 4 + 6 + 16)) =
      formatI (op &&& o) (rd &&& d) (imm &&& m) := by
  unfold formatI
  refine BitVec.and_append.trans ?_
  rw [BitVec.and_append, BitVec.and_append, BitVec.zero_and]

/-! ### Words from their fields -/

theorem opField_and (w m : Word) : opField (w &&& m) = opField w &&& opField m := by
  apply BitVec.eq_of_getLsbD_eq
  intro i hi
  simp only [opField, BitVec.getLsbD_extractLsb', BitVec.getLsbD_and]
  rw [decide_eq_true hi, Bool.true_and, Bool.true_and, Bool.true_and]

/-- Where a row's mask is all ones, the field of a matching word is the row's. -/
theorem field_of_match {w m p : Word} (a n : Nat) (h : w &&& m = p) (hm : m.extractLsb' a n = BitVec.allOnes n) :
    w.extractLsb' a n = p.extractLsb' a n := by
  have e : (w &&& m).extractLsb' a n = w.extractLsb' a n &&& m.extractLsb' a n := by
    apply BitVec.eq_of_getLsbD_eq
    intro i hi
    simp only [BitVec.getLsbD_extractLsb', BitVec.getLsbD_and]
    rw [decide_eq_true hi, Bool.true_and, Bool.true_and, Bool.true_and]
  rw [← h, e, hm, BitVec.and_allOnes]

/-- A word with format R's reserved bits 0 is put together from its fields. -/
theorem formatR_of_fields {w : Word} (h : w.extractLsb' 0 10 = 0#10) :
    formatR (opField w) (rdField w) (raField w) (rbField w) (rcField w) = w := by
  apply BitVec.eq_of_getLsbD_eq
  intro k hk
  have h0 : ∀ k, k < 10 → w.getLsbD k = false := by
    intro k hk
    have := congrArg (fun v => v.getLsbD k) h
    simpa [BitVec.getLsbD_extractLsb', hk] using this
  rw [getLsbD_formatR]
  simp only [opField, rdField, raField, rbField, rcField, BitVec.getLsbD_extractLsb']
  split_ifs with h1
  · exact (h0 k h1).symm
  all_goals (rw [decide_eq_true (by omega), Bool.true_and]; congr 1; omega)

/-- A word with format I's reserved bits 0 is put together from its fields. -/
theorem formatI_of_fields {w : Word} (h : w.extractLsb' 16 6 = 0#6) :
    formatI (opField w) (rdField w) (immField w) = w := by
  apply BitVec.eq_of_getLsbD_eq
  intro k hk
  have h0 : ∀ k, 16 ≤ k → k < 22 → w.getLsbD k = false := by
    intro k h1 hk
    have := congrArg (fun v => v.getLsbD (k - 16)) h
    simp only [BitVec.getLsbD_extractLsb', BitVec.getLsbD_zero] at this
    rwa [decide_eq_true (by omega), Bool.true_and, Nat.add_sub_cancel' h1] at this
  rw [getLsbD_formatI]
  simp only [opField, rdField, immField, BitVec.getLsbD_extractLsb']
  split_ifs with h1 h2
  rotate_left
  · exact (h0 k (by omega) h2).symm
  all_goals (rw [decide_eq_true (by omega), Bool.true_and]; congr 1; omega)

/-- A word with format N's reserved bits 0 is its opcode alone. -/
theorem formatN_of_fields {w : Word} (h : w.extractLsb' 0 26 = 0#26) : formatN (opField w) = w := by
  apply BitVec.eq_of_getLsbD_eq
  intro k hk
  have h0 : ∀ k, k < 26 → w.getLsbD k = false := by
    intro k hk
    have := congrArg (fun v => v.getLsbD k) h
    simpa [BitVec.getLsbD_extractLsb', hk] using this
  have e : (formatN (opField w)).getLsbD k = if k < 26 then (0#26).getLsbD k else (opField w).getLsbD (k - 26) :=
    BitVec.getLsbD_append
  rw [e]
  split_ifs with h1
  · rw [h0 k h1, BitVec.getLsbD_zero]
  · rw [opField, BitVec.getLsbD_extractLsb', decide_eq_true (by omega), Bool.true_and]; congr 1; omega

/-! ### Rows -/

/-- The mask of every row covers the whole opcode. -/
theorem opField_mask {r : OpcodeRow} (h : r ∈ opcodeRows) : opField r.mask = 0x3F#6 := by
  revert r
  simp only [opcodeRows, List.forall_mem_cons, List.not_mem_nil, false_implies, implies_true, and_true]
  decide

/-- The rows have pairwise different opcodes. -/
theorem opcodes_nodup : (opcodeRows.map (fun r => opField r.pattern)).Nodup := by decide

/-- A word a row matches has the row's opcode. -/
theorem opField_of_match {r : OpcodeRow} {w : Word} (hr : r ∈ opcodeRows) (h : r.matchesWord w = true) :
    opField w = opField r.pattern := by
  simp only [OpcodeRow.matchesWord, beq_iff_eq] at h
  rw [← h, opField_and, opField_mask hr]
  exact (BitVec.and_allOnes (x := opField w)).symm

/-- A word decodes by any row it matches, since no other row has its opcode. -/
theorem decode_of_match {r : OpcodeRow} {w : Word} (hr : r ∈ opcodeRows) (h : r.matchesWord w = true) :
    decode w = .ok (r.build w) := by
  have key : ∀ l : List OpcodeRow, (∀ q ∈ l, q ∈ opcodeRows) → (l.map (fun q => opField q.pattern)).Nodup → r ∈ l →
      l.find? (fun q => q.matchesWord w) = some r := by
    intro l hm hn hl
    induction l with
    | nil => cases hl
    | cons q l ih =>
      rw [List.find?_cons]
      rcases List.mem_cons.mp hl with rfl | hl'
      · rw [h]
      · have hq : q.matchesWord w = false := by
          by_contra hq
          have h1 := opField_of_match (hm q (by simp)) (by simpa using hq)
          have h2 := opField_of_match hr h
          simp only [List.map_cons, List.nodup_cons, List.mem_map] at hn
          exact hn.1 ⟨r, hl', by rw [← h2, h1]⟩
        rw [hq]
        exact ih (fun q hq => hm q (by simp [hq])) (List.nodup_cons.mp hn).2 hl'
  rw [decode, key _ (fun _ hq => hq) opcodes_nodup hr]

/-- A word that decodes matches a row, which builds the command. -/
theorem row_of_decode {w : Word} {i : Instr} (h : decode w = .ok i) :
    ∃ r ∈ opcodeRows, w &&& r.mask = r.pattern ∧ r.build w = i := by
  unfold decode at h
  split at h
  · rename_i r hr
    refine ⟨r, List.mem_of_find?_eq_some hr, ?_, by simpa using h⟩
    have := List.find?_some hr
    simpa [OpcodeRow.matchesWord] using this
  · simp at h

end Sys2Proof
end

