-- ==== Sys2Proof/Laws/Invariant.lean ====
section
/-! SUPPORT. Every memory operation keeps the canonical form, whole words, and LM's bounds. -/

namespace Sys2Proof.Machine

/-- Whole words, read word by word: a listed byte's word is written. -/
theorem wholeWords_of_cells {m m' : Memory} {a n : Nat} (h : WholeWords m)
    (hc : ∀ c ∈ m', (4 * a ≤ c.1 ∧ c.1 < 4 * (a + n)) ∨ c ∈ m)
    (hin : ∀ b, a ≤ b → b < a + n → (Memory.readWord m' b).isSome)
    (hout : ∀ b, b < a ∨ a + n ≤ b → Memory.readWord m' b = Memory.readWord m b) : WholeWords m' := by
  intro c hcm
  by_cases hw : a ≤ c.1 / 4 ∧ c.1 / 4 < a + n
  · exact hin _ hw.1 hw.2
  · rw [hout _ (by omega)]
    rcases hc c hcm with h1 | h1
    · omega
    · exact h c h1

theorem wholeWords_writeWord {m : Memory} (h : WholeWords m) (a : Nat) (w : Word) :
    WholeWords (Memory.writeWord m a w) := by
  refine wholeWords_of_cells (a := a) (n := 1) h (fun c hc => ?_) (fun b h1 h2 => ?_) fun b hb => ?_
  · rcases mem_writeWord hc with h1 | h1
    · left; omega
    · exact .inr h1
  · obtain rfl : b = a := by omega
    simp
  · exact readWord_writeWord_ne m w (by omega)

theorem wholeWords_memWrite {m : Memory} (h : WholeWords m) (a n v : Nat) : WholeWords (memWrite m a n v) := by
  induction n generalizing m a with
  | zero => exact h
  | succ n ih => exact ih (wholeWords_writeWord h _ _) _

theorem insideLm_writeWord {m : Memory} {depth a : Nat} (h : InsideLm m depth) (ha : a < depth) (w : Word) :
    InsideLm (Memory.writeWord m a w) depth := by
  intro c hc
  rcases mem_writeWord hc with h1 | h1
  · omega
  · exact h c h1

theorem insideLm_memWrite {m : Memory} {depth a n : Nat} (h : InsideLm m depth) (ha : a + n ≤ depth) (v : Nat) :
    InsideLm (memWrite m a n v) depth := by
  intro c hc
  rcases mem_memWrite hc with h1 | h1
  · omega
  · exact h c h1

theorem wholeWords_writeCanonMem {m : Memory} (h : WholeWords m) (d : Word) (v : Nat) :
    WholeWords (writeCanonMem m d v) :=
  wholeWords_memWrite (wholeWords_memWrite h _ _ _) _ _ _

theorem insideLm_writeCanonMem {m : Memory} {depth : Nat} {d : Word} {v : Nat} (h : InsideLm m depth)
    (hd : base d + len d ≤ depth) (hv : limbs v ≤ len d) : InsideLm (writeCanonMem m d v) depth :=
  insideLm_memWrite (insideLm_memWrite h (by omega) _) (by omega) _

/-- LM's part of the invariant. -/
def LmGood (m : Memory) (depth : Nat) : Prop := Memory.wf m ∧ WholeWords m ∧ InsideLm m depth

theorem lmGood_writeWord {m : Memory} {depth a : Nat} (h : LmGood m depth) (ha : a < depth) (w : Word) :
    LmGood (Memory.writeWord m a w) depth :=
  ⟨wf_writeWord h.1 _ _, wholeWords_writeWord h.2.1 _ _, insideLm_writeWord h.2.2 ha w⟩

theorem lmGood_memWrite {m : Memory} {depth a n : Nat} (h : LmGood m depth) (ha : a + n ≤ depth) (v : Nat) :
    LmGood (memWrite m a n v) depth :=
  ⟨wf_memWrite h.1 _ _ _, wholeWords_memWrite h.2.1 _ _ _, insideLm_memWrite h.2.2 ha v⟩

theorem lmGood_writeCanonMem {m : Memory} {depth : Nat} {d : Word} {v : Nat} (h : LmGood m depth)
    (hd : base d + len d ≤ depth) (hv : limbs v ≤ len d) : LmGood (writeCanonMem m d v) depth :=
  ⟨wf_writeCanonMem h.1 _ _, wholeWords_writeCanonMem h.2.1 _ _, insideLm_writeCanonMem h.2.2 hd hv⟩

theorem lmGood_nil (depth : Nat) : LmGood [] depth := by simp [LmGood, Memory.wf]

end Sys2Proof.Machine
end

