-- ==== Sys2Proof/Laws/PerInstr.lean ====
section
/-! SUPPORT. One statement for all commands, made per constructor: the word of a command passes the three checks of R89 and
matches the row of R86 that its mnemonic has. The match and mask of each row are written again here from spec/opcode_table.json. -/

namespace Sys2Proof.Laws.RowOfWord

/-- The mask and match of a command's row of spec/opcode_table.json. -/
def rowOf (i : Instr) : Word × Word :=
  match i with
  | .nop => (0xFFFFFFFF#32, 0x04000000#32)
  | .halt => (0xFFFFFFFF#32, 0x08000000#32)
  | .lil _ _ => (0xFC3F0000#32, 0x10000000#32)
  | .lih _ _ => (0xFC3F0000#32, 0x14000000#32)
  | .mov _ _ => (0xFC03FFFF#32, 0x18000000#32)
  | .mul _ _ _ => (0xFC003FFF#32, 0x40000000#32)
  | .muladd1 _ _ _ _ => (0xFC0003FF#32, 0x44000000#32)
  | .divmod _ _ _ _ => (0xFC0003FF#32, 0x60000000#32)
  | .divrem1 _ _ _ => (0xFC003FFF#32, 0x64000000#32)
  | .norm _ _ _ => (0xFC003FFF#32, 0x80000000#32)
  | .shl _ _ _ => (0xFC003FFF#32, 0x84000000#32)
  | .shr _ _ _ => (0xFC003FFF#32, 0x88000000#32)
  | .sar _ _ _ _ => (0xFC0003FF#32, 0x8C000000#32)
  | .clz _ _ => (0xFC03FFFF#32, 0x90000000#32)
  | .lzca _ _ => (0xFC03FFFF#32, 0x94000000#32)

/-- The command's word is well formed, and its masked bits are its row's match. -/
def Statement (i : Instr) : Prop :=
  wordWellFormed (encode i) = true ∧ encode i &&& (rowOf i).1 = (rowOf i).2

/-! ### One lemma per command -/

theorem nop : Statement (.nop) := by
  exact ⟨by decide, by decide⟩

theorem halt : Statement (.halt) := by
  exact ⟨by decide, by decide⟩

theorem lil (rd : Reg) (imm : Half) : Statement (.lil rd imm) := by
  refine ⟨?_, ?_⟩
  · simp [wordWellFormed, opAssigned, unusedFieldsZero, reservedBitsZero, encode, formatOf]
  · have h := formatI_and 0x04#6 0x3F#6 rd 0#4 imm 0#16 0x3F#6
    simp only [BitVec.and_zero] at h
    exact h

theorem lih (rd : Reg) (imm : Half) : Statement (.lih rd imm) := by
  refine ⟨?_, ?_⟩
  · simp [wordWellFormed, opAssigned, unusedFieldsZero, reservedBitsZero, encode, formatOf]
  · have h := formatI_and 0x05#6 0x3F#6 rd 0#4 imm 0#16 0x3F#6
    simp only [BitVec.and_zero] at h
    exact h

theorem mov (rd ra : Reg) : Statement (.mov rd ra) := by
  refine ⟨?_, ?_⟩
  · simp [wordWellFormed, opAssigned, unusedFieldsZero, reservedBitsZero, encode, formatOf, rbUnused, rcUnused]
  · have h := formatR_and 0x06#6 0x3F#6 rd ra 0#4 0#4 0#4 0#4 0xF#4 0xF#4 0x3FF#10
    simp only [BitVec.and_zero, BitVec.zero_and] at h
    exact h

theorem mul (rd ra rb : Reg) : Statement (.mul rd ra rb) := by
  refine ⟨?_, ?_⟩
  · simp [wordWellFormed, opAssigned, unusedFieldsZero, reservedBitsZero, encode, formatOf, rbUnused, rcUnused]
  · have h := formatR_and 0x10#6 0x3F#6 rd ra rb 0#4 0#4 0#4 0#4 0xF#4 0x3FF#10
    simp only [BitVec.and_zero, BitVec.zero_and] at h
    exact h

theorem muladd1 (rd ra rb rc : Reg) : Statement (.muladd1 rd ra rb rc) := by
  refine ⟨?_, ?_⟩
  · simp [wordWellFormed, opAssigned, unusedFieldsZero, reservedBitsZero, encode, formatOf, rbUnused, rcUnused]
  · have h := formatR_and 0x11#6 0x3F#6 rd ra rb rc 0#4 0#4 0#4 0#4 0x3FF#10
    simp only [BitVec.and_zero] at h
    exact h

theorem divmod (rd ra rb rc : Reg) : Statement (.divmod rd ra rb rc) := by
  refine ⟨?_, ?_⟩
  · simp [wordWellFormed, opAssigned, unusedFieldsZero, reservedBitsZero, encode, formatOf, rbUnused, rcUnused]
  · have h := formatR_and 0x18#6 0x3F#6 rd ra rb rc 0#4 0#4 0#4 0#4 0x3FF#10
    simp only [BitVec.and_zero] at h
    exact h

theorem divrem1 (rd ra rb : Reg) : Statement (.divrem1 rd ra rb) := by
  refine ⟨?_, ?_⟩
  · simp [wordWellFormed, opAssigned, unusedFieldsZero, reservedBitsZero, encode, formatOf, rbUnused, rcUnused]
  · have h := formatR_and 0x19#6 0x3F#6 rd ra rb 0#4 0#4 0#4 0#4 0xF#4 0x3FF#10
    simp only [BitVec.and_zero, BitVec.zero_and] at h
    exact h

theorem norm (rd ra rb : Reg) : Statement (.norm rd ra rb) := by
  refine ⟨?_, ?_⟩
  · simp [wordWellFormed, opAssigned, unusedFieldsZero, reservedBitsZero, encode, formatOf, rbUnused, rcUnused]
  · have h := formatR_and 0x20#6 0x3F#6 rd ra rb 0#4 0#4 0#4 0#4 0xF#4 0x3FF#10
    simp only [BitVec.and_zero, BitVec.zero_and] at h
    exact h

theorem shl (rd ra rb : Reg) : Statement (.shl rd ra rb) := by
  refine ⟨?_, ?_⟩
  · simp [wordWellFormed, opAssigned, unusedFieldsZero, reservedBitsZero, encode, formatOf, rbUnused, rcUnused]
  · have h := formatR_and 0x21#6 0x3F#6 rd ra rb 0#4 0#4 0#4 0#4 0xF#4 0x3FF#10
    simp only [BitVec.and_zero, BitVec.zero_and] at h
    exact h

theorem shr (rd ra rb : Reg) : Statement (.shr rd ra rb) := by
  refine ⟨?_, ?_⟩
  · simp [wordWellFormed, opAssigned, unusedFieldsZero, reservedBitsZero, encode, formatOf, rbUnused, rcUnused]
  · have h := formatR_and 0x22#6 0x3F#6 rd ra rb 0#4 0#4 0#4 0#4 0xF#4 0x3FF#10
    simp only [BitVec.and_zero, BitVec.zero_and] at h
    exact h

theorem sar (rd ra rb rc : Reg) : Statement (.sar rd ra rb rc) := by
  refine ⟨?_, ?_⟩
  · simp [wordWellFormed, opAssigned, unusedFieldsZero, reservedBitsZero, encode, formatOf, rbUnused, rcUnused]
  · have h := formatR_and 0x23#6 0x3F#6 rd ra rb rc 0#4 0#4 0#4 0#4 0x3FF#10
    simp only [BitVec.and_zero] at h
    exact h

theorem clz (rd ra : Reg) : Statement (.clz rd ra) := by
  refine ⟨?_, ?_⟩
  · simp [wordWellFormed, opAssigned, unusedFieldsZero, reservedBitsZero, encode, formatOf, rbUnused, rcUnused]
  · have h := formatR_and 0x24#6 0x3F#6 rd ra 0#4 0#4 0#4 0#4 0xF#4 0xF#4 0x3FF#10
    simp only [BitVec.and_zero, BitVec.zero_and] at h
    exact h

theorem lzca (rd ra : Reg) : Statement (.lzca rd ra) := by
  refine ⟨?_, ?_⟩
  · simp [wordWellFormed, opAssigned, unusedFieldsZero, reservedBitsZero, encode, formatOf, rbUnused, rcUnused]
  · have h := formatR_and 0x25#6 0x3F#6 rd ra 0#4 0#4 0#4 0#4 0xF#4 0xF#4 0x3FF#10
    simp only [BitVec.and_zero, BitVec.zero_and] at h
    exact h

end Sys2Proof.Laws.RowOfWord
end

