-- ==== Sys2Proof/Laws/Steps.lean ====
section
/-! SUPPORT. What a command can do and what a step can do, said once. Later proofs cite these and never unfold `exec`, `step`
or `issue`. -/

namespace Sys2Proof.Machine

/-! ### A command -/

/-- Everything a command's rule may leave when it commits, whatever the command: LM and registers, and for HALT alone the two
status bits; LM stays good (Laws/Invariant.lean). -/
structure BodyOk (i : Instr) (s u : State) : Prop where
  frame : u = { s with lm := u.lm, x := u.x, busy := u.busy, done := u.done }
  status : i ≠ .halt → u.busy = s.busy ∧ u.done = s.done
  halted : i = .halt → u = haltStatus s
  lmGood : LmGood s.lm s.lmDepth → LmGood u.lm s.lmDepth

/-- Everything a stop of a command's rule can be: one of the faults of R214 and R215, or an unwritten word inside LM. -/
def BodyStop (i : Instr) (s : State) (e : Stop) : Prop :=
  (∃ c, e = .trap c ∧ i ≠ .halt ∧ c ≠ .fetch ∧ c ≠ .illegal) ∨
    ∃ a, e = .model (.readUnwritten a) ∧ a < s.lmDepth ∧ Memory.readWord s.lm a = none

theorem bodyOk_setReg {i : Instr} {s u : State} {r : Reg} {v : Word} (h : BodyOk i s u) (hi : i ≠ .halt) :
    BodyOk i s (setReg u r v) := by
  refine ⟨?_, h.status, fun h' => absurd h' hi, h.lmGood⟩
  have := h.frame
  rw [this]; rfl

theorem bodyOk_refl {i : Instr} {s : State} (hi : i ≠ .halt) : BodyOk i s s :=
  ⟨rfl, fun _ => ⟨rfl, rfl⟩, fun h => absurd h hi, id⟩

theorem bodyOk_setLm {i : Instr} {s u : State} {m : Memory} (h : BodyOk i s u) (hi : i ≠ .halt)
    (hm : LmGood s.lm s.lmDepth → LmGood m s.lmDepth) : BodyOk i s (setLm u m) := by
  refine ⟨?_, h.status, fun h' => absurd h' hi, hm⟩
  have := h.frame
  rw [this]; rfl

theorem bodyOk_writeCanon {i : Instr} {s u : State} {d : Word} {v : Nat} (h : BodyOk i s u) (hi : i ≠ .halt)
    (hd : InBounds s d) (hv : limbs v ≤ len d) : BodyOk i s (writeCanon u d v) :=
  bodyOk_setLm h hi fun hg => lmGood_writeCanonMem (h.lmGood hg) hd hv

theorem bodyOk_writeRaw {i : Instr} {s u : State} {d : Word} {v : Nat} (h : BodyOk i s u) (hi : i ≠ .halt)
    (hd : InBounds s d) : BodyOk i s (writeRaw u d v) :=
  bodyOk_setLm h hi fun hg => lmGood_memWrite (h.lmGood hg) hd v

theorem bodyStop_trap {i : Instr} {s : State} {c : FaultCode} (hi : i ≠ .halt) (h1 : c ≠ .fetch) (h2 : c ≠ .illegal) :
    BodyStop i s (.trap c) := .inl ⟨c, rfl, hi, h1, h2⟩

theorem bodyStop_val {i : Instr} {s : State} {d : Word} {e : Stop} (h : val s d = .error e ∧ InBounds s d) :
    BodyStop i s e := by
  obtain ⟨a, h1, h2, h3, rfl⟩ := val_error h.1
  have := h.2
  exact .inr ⟨a, rfl, by omega, h3⟩

/-- A source value stops the model at the lowest unwritten word of its window (R22, R222). -/
theorem val_of_firstUnwritten {s : State} {d : Word} {a : Nat} (h : FirstUnwritten s d a) :
    val s d = .error (.model (.readUnwritten a)) := memRead_unwritten h.1 h.2.1 h.2.2.1 h.2.2.2

/-- A command is the `finish` of a rule that, when it commits, leaves what `BodyOk` says, and stops as `BodyStop` says. -/
theorem exec_finish (i : Instr) (s : State) :
    ∃ body, exec i s = finish i s body ∧ (∀ u, body = .ok u → BodyOk i s u) ∧
      ∀ e, body = .error e → BodyStop i s e := by
  cases i with
  | nop => exact ⟨.ok s, rfl, by rintro u ⟨⟩; exact bodyOk_refl (by simp), by simp⟩
  | halt => exact ⟨.ok (haltStatus s), rfl, by rintro u ⟨⟩; exact ⟨rfl, by simp, fun _ => rfl, id⟩, by simp⟩
  | lil rd imm =>
    exact ⟨.ok _, rfl, by rintro u ⟨⟩; exact bodyOk_setReg (bodyOk_refl (by simp)) (by simp), by simp⟩
  | lih rd imm =>
    exact ⟨.ok _, rfl, by rintro u ⟨⟩; exact bodyOk_setReg (bodyOk_refl (by simp)) (by simp), by simp⟩
  | mov rd ra =>
    exact ⟨.ok _, rfl, by rintro u ⟨⟩; exact bodyOk_setReg (bodyOk_refl (by simp)) (by simp), by simp⟩
  | clz rd ra =>
    exact ⟨.ok _, rfl, by rintro u ⟨⟩; exact bodyOk_setReg (bodyOk_refl (by simp)) (by simp), by simp⟩
  | mul rd ra rb =>
    refine ⟨_, rfl, fun u h => ?_, fun e h => ?_⟩
    · obtain ⟨-, -, h3, a, b, -, -, hc, rfl⟩ := mulBody_ok.mp h
      exact bodyOk_setReg (bodyOk_writeCanon (bodyOk_refl (by simp)) (by simp) h3 ((limbs_mul_le a b).trans hc))
        (by simp)
    · rcases mulBody_stop h with rfl | rfl | h | h
      · exact bodyStop_trap (by simp) (by simp) (by simp)
      · exact bodyStop_trap (by simp) (by simp) (by simp)
      · exact bodyStop_val h
      · exact bodyStop_val h
  | muladd1 rd ra rb rc =>
    refine ⟨_, rfl, fun u h => ?_, fun e h => ?_⟩
    · obtain ⟨h1, a, -, rfl⟩ := muladd1Body_ok.mp h
      exact bodyOk_setReg (bodyOk_writeRaw (bodyOk_refl (by simp)) (by simp) h1) (by simp)
    · rcases muladd1Body_stop h with rfl | h
      · exact bodyStop_trap (by simp) (by simp) (by simp)
      · exact bodyStop_val h
  | divmod rd ra rb rc =>
    refine ⟨_, rfl, fun u h => ?_, fun e h => ?_⟩
    · obtain ⟨-, -, h3, h4, -, a, b, -, -, hb, hq, hr, rfl⟩ := divmodBody_ok.mp h
      have hb0 : b ≠ 0 := by simpa using hb
      have hq' : limbs (a / b) ≤ len (getReg s rd) := by
        refine le_trans ?_ hq
        unfold quotientNeed
        split
        · exact limbs_div_le hb0 ‹_›
        · rw [div_eq_zero_of_limbs_lt (by omega), limbs_zero]
      exact bodyOk_setReg (bodyOk_setReg (bodyOk_writeCanon (bodyOk_writeCanon (bodyOk_refl (by simp)) (by simp) h3 hq')
        (by simp) h4 ((limbs_mod_le hb0).trans hr)) (by simp)) (by simp)
    · rcases divmodBody_stop h with rfl | rfl | rfl | rfl | h | h
      · exact bodyStop_trap (by simp) (by simp) (by simp)
      · exact bodyStop_trap (by simp) (by simp) (by simp)
      · exact bodyStop_trap (by simp) (by simp) (by simp)
      · exact bodyStop_trap (by simp) (by simp) (by simp)
      · exact bodyStop_val h
      · exact bodyStop_val h
  | divrem1 rd ra rb =>
    refine ⟨_, rfl, fun u h => ?_, fun e h => ?_⟩
    · obtain ⟨h1, -, a, -, rfl⟩ := divrem1Body_ok.mp h
      exact bodyOk_setReg (bodyOk_writeRaw (bodyOk_refl (by simp)) (by simp) h1) (by simp)
    · rcases divrem1Body_stop h with rfl | rfl | h
      · exact bodyStop_trap (by simp) (by simp) (by simp)
      · exact bodyStop_trap (by simp) (by simp) (by simp)
      · exact bodyStop_val h
  | norm rd ra rb =>
    refine ⟨_, rfl, fun u h => ?_, fun e h => ?_⟩
    · obtain ⟨-, h2, -, -, a, -, -, rfl⟩ := normBody_ok.mp h
      exact bodyOk_writeRaw (bodyOk_refl (by simp)) (by simp) h2
    · rcases normBody_stop h with rfl | rfl | rfl | rfl | h
      · exact bodyStop_trap (by simp) (by simp) (by simp)
      · exact bodyStop_trap (by simp) (by simp) (by simp)
      · exact bodyStop_trap (by simp) (by simp) (by simp)
      · exact bodyStop_trap (by simp) (by simp) (by simp)
      · exact bodyStop_val h
  | shl rd ra rb =>
    refine ⟨_, rfl, fun u h => ?_, fun e h => ?_⟩
    · obtain ⟨-, h2, a, b, -, -, hc, rfl⟩ := shiftBody_ok.mp h
      exact bodyOk_setReg (bodyOk_writeCanon (bodyOk_refl (by simp)) (by simp) h2 hc) (by simp)
    · rcases shiftBody_stop h with rfl | rfl | h
      · exact bodyStop_trap (by simp) (by simp) (by simp)
      · exact bodyStop_trap (by simp) (by simp) (by simp)
      · exact bodyStop_val h
  | shr rd ra rb =>
    refine ⟨_, rfl, fun u h => ?_, fun e h => ?_⟩
    · obtain ⟨-, h2, a, b, -, -, hc, rfl⟩ := shiftBody_ok.mp h
      exact bodyOk_setReg (bodyOk_writeCanon (bodyOk_refl (by simp)) (by simp) h2 hc) (by simp)
    · rcases shiftBody_stop h with rfl | rfl | h
      · exact bodyStop_trap (by simp) (by simp) (by simp)
      · exact bodyStop_trap (by simp) (by simp) (by simp)
      · exact bodyStop_val h
  | sar rd ra rb rc =>
    refine ⟨_, rfl, fun u h => ?_, fun e h => ?_⟩
    · obtain ⟨-, h2, a, b, -, -, -, hc, rfl⟩ := sarBody_ok.mp h
      exact bodyOk_setReg (bodyOk_setReg (bodyOk_writeCanon (bodyOk_refl (by simp)) (by simp) h2 hc) (by simp)) (by simp)
    · rcases sarBody_stop h with rfl | rfl | rfl | h
      · exact bodyStop_trap (by simp) (by simp) (by simp)
      · exact bodyStop_trap (by simp) (by simp) (by simp)
      · exact bodyStop_trap (by simp) (by simp) (by simp)
      · exact bodyStop_val h
  | lzca rd ra =>
    refine ⟨_, rfl, fun u h => ?_, fun e h => ?_⟩
    · obtain ⟨-, a, -, rfl⟩ := lzcaBody_ok.mp h
      exact bodyOk_setReg (bodyOk_refl (by simp)) (by simp)
    · rcases lzcaBody_stop h with rfl | h
      · exact bodyStop_trap (by simp) (by simp) (by simp)
      · exact bodyStop_val h

/-! ### A step -/

/-- The four things the engine's turn can come to from a state u, when it answers a next state t. -/
inductive EngineTurn (u t : State) : Prop where
  | idle (h : u.busy = false) (ht : t = u)
  | fetchFault (hb : u.busy = true) (h : u.lmDepth ≤ u.pc.toNat) (ht : t = takeFault .fetch 0#32 u)
  | illegal (w : Word) (hb : u.busy = true) (h : u.pc.toNat < u.lmDepth) (hw : Memory.readWord u.lm u.pc.toNat = some w)
      (e : Illegal) (hd : decode w = .error e) (ht : t = takeFault .illegal w u)
  | command (w : Word) (i : Instr) (hb : u.busy = true) (h : u.pc.toNat < u.lmDepth)
      (hw : Memory.readWord u.lm u.pc.toNat = some w) (hd : decode w = .ok i) (ht : exec i u = .next t)

/-- What `engineTurn` answers becomes a next state in exactly these ways. -/
theorem engineTurn_cases {u t : State}
    (h : (match engineTurn u with | .command i s => exec i s | .done o => o) = .next t) : EngineTurn u t := by
  unfold engineTurn fetch at h
  by_cases hb : u.busy = true
  · by_cases hp : u.lmDepth ≤ u.pc.toNat
    · simp [hb, hp] at h
      exact .fetchFault hb hp h.symm
    · simp only [hb, hp, if_true, if_false] at h
      cases hw : Memory.readWord u.lm u.pc.toNat with
      | none => simp [hw] at h
      | some w =>
        cases hd : decode w with
        | error e =>
          simp [hw, hd] at h
          exact .illegal w hb (not_le.mp hp) hw e hd h.symm
        | ok i =>
          simp only [hw, hd] at h
          exact .command w i hb (not_le.mp hp) hw hd h
  · simp [hb] at h
    exact .idle (by simpa using hb) h.symm

/-- A step that answers a next state is one access of the host, or the engine's turn with the host's list as it is, or with
one `pass` taken off it. -/
theorem step_cases {s t : State} (h : step s = .next t) :
    (∃ m rest, s.hostMoves = m :: rest ∧ m ≠ .pass ∧ t = hostMove m { s with hostMoves := rest }) ∨
      (s.hostMoves = [] ∧ EngineTurn s t) ∨
      ∃ rest, s.hostMoves = .pass :: rest ∧ EngineTurn { s with hostMoves := rest } t := by
  unfold step issue at h
  split at h
  · rename_i hi
    split at hi
    · exact .inr (.inl ⟨‹_›, engineTurn_cases (by rw [hi]; exact h)⟩)
    · exact .inr (.inr ⟨_, ‹_›, engineTurn_cases (by rw [hi]; exact h)⟩)
    all_goals cases hi
  · rename_i hi
    split at hi
    · exact .inr (.inl ⟨‹_›, engineTurn_cases (by rw [hi]; exact h)⟩)
    · exact .inr (.inr ⟨_, ‹_›, engineTurn_cases (by rw [hi]; exact h)⟩)
    all_goals
      cases hi
      cases h
      exact .inl ⟨_, _, ‹_›, by simp, rfl⟩

/-- With no access of the host due, a step is the engine's turn. -/
theorem step_of_no_moves {s : State} (h : s.hostMoves = []) :
    step s = match engineTurn s with | .command i t => exec i t | .done o => o := by
  have e : issue s = engineTurn s := by simp only [issue, h]
  exact congrArg (fun x => match x with | .command i t => exec i t | .done o => o) e

/-- When the engine moves next, a step is the engine's turn, in the state without the `pass` that let it through. -/
theorem step_of_engineMoves {s u : State} (h : EngineMoves s u) :
    step s = match engineTurn u with | .command i t => exec i t | .done o => o := by
  obtain ⟨h, rfl⟩ | ⟨rest, h, rfl⟩ := h
  · exact step_of_no_moves h
  · have e : issue s = engineTurn { s with hostMoves := rest } := by simp only [issue, h]
    exact congrArg (fun x => match x with | .command i t => exec i t | .done o => o) e

/-- A read of the host is a step of its own. -/
theorem step_read {s : State} {o : Fin 0x50000} {b : Nat} {rest : List HostMove} (h : s.hostMoves = .read o b :: rest) :
    step s = .next (hostRead { s with hostMoves := rest } o.val b) := by
  simp [step, issue, h, hostMove]

/-- A write of the host is a step of its own. -/
theorem step_write {s : State} {o : Fin 0x50000} {b : Nat} {v : Word} {rest : List HostMove}
    (h : s.hostMoves = .write o b v :: rest) :
    step s = .next (hostWrite { s with hostMoves := rest } o.val b v) := by
  simp [step, issue, h, hostMove]

/-- Power-on reset is a step of its own. -/
theorem step_powerOn {s : State} {rest : List HostMove} (h : s.hostMoves = .powerOn :: rest) :
    step s = .next (powerOnReset { s with hostMoves := rest }) := by
  simp [step, issue, h, hostMove]

/-! ### A run -/

theorem run_zero (s : State) : run 0 s = .next s := rfl

theorem core_run_of_next {M : Host.Core} {k : Nat} {s t : M.State} (h : M.step s = .next t) :
    M.run (k + 1) s = M.run k t := by
  rw [Host.Core.run, h]

theorem core_run_of_fault {M : Host.Core} {k : Nat} {s : M.State} {f : M.Fault} (h : M.step s = .fault f) :
    M.run (k + 1) s = .fault f := by
  rw [Host.Core.run, h]

theorem run_of_next {k : Nat} {s t : State} (h : step s = .next t) : run (k + 1) s = run k t :=
  core_run_of_next (M := core) h

theorem run_of_fault {k : Nat} {s : State} {f : Fault} (h : step s = .fault f) : run (k + 1) s = .fault f :=
  core_run_of_fault (M := core) h

end Sys2Proof.Machine
end

