-- ==== Sys2Proof/Tests/Slice0.lean ====
section
/-! SUPPORT. Tests. Words are written out from spec/30_encoding.md and expected results are taken from
spec/95_test_vectors.md, whose section each test names. Then, for every obligation with hypotheses, a witness: a state and
operands that meet the hypotheses of each of its clauses, at the edges of their ranges. -/

namespace Sys2Proof.Tests

open Sys2Proof.Machine

-- One theorem after another: hundreds of small tests would otherwise each wait in a thread of its own.
set_option Elab.async false

/-! ### Helpers -/

/-- LM with the given words written. -/
def lmOf (words : List (Nat × Word)) : Memory := words.foldl (fun m p => Memory.writeWord m p.1 p.2) []

/-- After reset, with registers and LM words written and the engine started at PC 0. -/
def running (regs : List (Reg × Word)) (words : List (Nat × Word)) : State :=
  start (regs.foldl (fun s p => setReg s p.1 p.2) (setLm State.reset (lmOf words)))

/-- The same state idle, with the host's moves. -/
def idle (regs : List (Reg × Word)) (words : List (Nat × Word)) (moves : List HostMove) : State :=
  { running regs words with busy := false, hostMoves := moves }

/-- The next state of an outcome. -/
def answer (o : Host.Outcome State Fault Refusal) : Option State :=
  match o with
  | .next t => some t
  | .fault _ => none
  | .refused _ => none

/-- What `f` reads in the next state of an outcome. -/
def reads {α : Type} (o : Host.Outcome State Fault Refusal) (f : State → α) : Option α := (answer o).map f

theorem exists_next {o : Host.Outcome State Fault Refusal} (h : (answer o).isSome = true) : ∃ t, o = .next t := by
  cases o with
  | next t => exact ⟨t, rfl⟩
  | fault f => simp [answer] at h
  | refused r => simp [answer] at h

theorem exists_next_err {o : Host.Outcome State Fault Refusal} {b : Bool} (h : reads o (·.err) = some b) :
    ∃ t, o = .next t ∧ t.err = b := by
  cases o with
  | next t => exact ⟨t, rfl, by simpa [reads, answer] using h⟩
  | fault f => simp [reads, answer] at h
  | refused r => simp [reads, answer] at h

/-- The n words of LM from address a. -/
def words (a n : Nat) (t : State) : List (Option Word) := (List.range n).map (fun k => Memory.readWord t.lm (a + k))

/-- STATUS, PC and EINFO, as the host would read them. -/
def ending (t : State) : Word × Word × Word := (statusWord t, t.pc, t.einfo)

/-! ### Ill-formed words: each check of R89 refuses one (95_test_vectors.md 2.1) -/

theorem test_ill_formed_opcode_0 : opAssigned 0x00000000#32 = false := by decide
theorem test_ill_formed_opcode_3F : opAssigned 0xFC000000#32 = false := by decide
theorem test_ill_formed_opcode_03 : opAssigned 0x0C000000#32 = false := by decide
theorem test_ill_formed_nop_bit_0 : reservedBitsZero 0x04000001#32 = false := by decide
theorem test_ill_formed_halt_bit_25 : reservedBitsZero 0x0A000000#32 = false := by decide
theorem test_ill_formed_lil_bit_16 : reservedBitsZero 0x1041BEEF#32 = false := by decide
theorem test_ill_formed_mul_bit_9 : reservedBitsZero 0x40C48200#32 = false := by decide
theorem test_ill_formed_mov_rb : unusedFieldsZero 0x18C84000#32 = false := by decide
theorem test_ill_formed_mul_rc : unusedFieldsZero 0x40C48400#32 = false := by decide
theorem test_ill_formed_clz_rb : unusedFieldsZero 0x90C84000#32 = false := by decide
theorem test_well_formed_muladd1 : wordWellFormed 0x45851400#32 = true := by decide

/-! ### Decoding: each command's word, bit by bit: op, rd, ra, rb, rc, zeros (R81), op, rd, zeros, imm16 (R82) -/

theorem test_decode_nop : decode 0b000001_00000000000000000000000000#32 = .ok .nop := by decide
theorem test_decode_halt : decode 0b000010_00000000000000000000000000#32 = .ok .halt := by decide
theorem test_decode_lil : decode 0b000100_0001_000000_1011111011101111#32 = .ok (.lil 1 0xBEEF) := by decide
theorem test_decode_lih : decode 0b000101_0001_000000_1011111011101111#32 = .ok (.lih 1 0xBEEF) := by decide
theorem test_decode_mov : decode 0b000110_0011_0010_0000_0000_0000000000#32 = .ok (.mov 3 2) := by decide
theorem test_decode_mul : decode 0b010000_0011_0001_0010_0000_0000000000#32 = .ok (.mul 3 1 2) := by decide
theorem test_decode_muladd1 : decode 0b010001_0110_0001_0100_0101_0000000000#32 = .ok (.muladd1 6 1 4 5) := by decide
theorem test_decode_divmod : decode 0b011000_0011_0001_0010_0100_0000000000#32 = .ok (.divmod 3 1 2 4) := by decide
theorem test_decode_divrem1 : decode 0b011001_0111_0001_0100_0000_0000000000#32 = .ok (.divrem1 7 1 4) := by decide
theorem test_decode_norm : decode 0b100000_0010_0001_0011_0000_0000000000#32 = .ok (.norm 2 1 3) := by decide
theorem test_decode_shl : decode 0b100001_0010_0001_0011_0000_0000000000#32 = .ok (.shl 2 1 3) := by decide
theorem test_decode_shr : decode 0b100010_0010_0001_0011_0000_0000000000#32 = .ok (.shr 2 1 3) := by decide
theorem test_decode_sar : decode 0b100011_0010_0001_0011_0100_0000000000#32 = .ok (.sar 2 1 3 4) := by decide
theorem test_decode_clz : decode 0b100100_0011_0010_0000_0000_0000000000#32 = .ok (.clz 3 2) := by decide
theorem test_decode_lzca : decode 0b100101_0011_0010_0000_0000_0000000000#32 = .ok (.lzca 3 2) := by decide

/-- The words of 95_test_vectors.md are those of the encoder. -/
theorem test_encode_words :
    encode (.lil 1 0xBEEF) = 0x1040BEEF#32 ∧ encode (.mov 3 2) = 0x18C80000#32 ∧ encode (.mul 3 1 2) = 0x40C48000#32 ∧
    encode (.muladd1 6 1 4 5) = 0x45851400#32 ∧ encode (.divmod 3 1 2 4) = 0x60C49000#32 ∧
    encode (.divrem1 7 1 4) = 0x65C50000#32 ∧ encode (.norm 2 1 3) = 0x8084C000#32 ∧
    encode (.sar 2 1 3 4) = 0x8C84D000#32 ∧ encode (.lzca 3 2) = 0x94C80000#32 := by decide

/-- decodeTableWord reads a row's bits as one whole word. -/
theorem test_decodeTableWord : decodeTableWord 32 0x40C48000 = some (.mul 3 1 2) := by decide

/-! ### One command (95_test_vectors.md 2 to 7) -/

theorem test_nop : reads (exec .nop (running [] [])) (fun t => (t.pc, t.busy)) = some (1#32, true) := by decide

theorem test_halt : reads (exec .halt (running [] [])) ending = some (0x00000002#32, 1#32, 0#32) := by decide

theorem test_lil_keeps_high_half :
    reads (exec (.lil 1 0xBEEF) (running [(1, 0x12345678#32)] [])) (getReg · 1) = some 0x1234BEEF#32 := by decide

theorem test_lih_keeps_low_half :
    reads (exec (.lih 1 0xBEEF) (running [(1, 0x12345678#32)] [])) (getReg · 1) = some 0xBEEF5678#32 := by decide

theorem test_mov : reads (exec (.mov 3 2) (running [(2, 0xDEADBEEF#32)] [])) (getReg · 3) = some 0xDEADBEEF#32 := by decide

/-- "square in place, one register for X, Y and Z". -/
theorem test_mul_square_in_place :
    reads (exec (.mul 1 1 1) (running [(1, 0x00020100#32)] [(0x100, 0#32), (0x101, 0x00010000#32)]))
      (fun t => (getReg t 1, words 0x100 2 t)) = some (0x00020100#32, [some 1#32, some 0#32]) := by decide +kernel

/-- "product shorter than |x|+|y|, zero fill". -/
theorem test_mul_zero_fill :
    reads (exec (.mul 3 1 2) (running [(1, 0x00010100#32), (2, 0x00010101#32), (3, 0x00030104#32)]
      [(0x100, 2#32), (0x101, 3#32), (0x104, 7#32), (0x105, 7#32), (0x106, 7#32)]))
      (fun t => (getReg t 3, words 0x104 3 t)) =
      some (0x00010104#32, [some 6#32, some 0#32, some 0#32]) := by decide +kernel

/-- "carry out of top". -/
theorem test_muladd1_carry :
    reads (exec (.muladd1 6 1 4 5) (running [(1, 0x00020200#32), (4, 0x10#32), (5, 1#32)]
      [(0x200, 0xF0000000#32), (0x201, 0#32)]))
      (fun t => (getReg t 6, words 0x200 2 t)) = some (0xF#32, [some 0#32, some 1#32]) := by decide +kernel

/-- "width 0: carry = addend". -/
theorem test_muladd1_width_0 :
    reads (exec (.muladd1 6 1 4 5) (running [(1, 0x00000200#32), (4, 7#32), (5, 9#32)] [])) (getReg · 6) =
      some 9#32 := by decide +kernel

/-- "X < Y": zero quotient, remainder X, both windows zero filled. -/
theorem test_divmod_x_below_y :
    reads (exec (.divmod 3 1 2 4)
      (running [(1, 0x00010100#32), (2, 0x00020101#32), (3, 0x00020110#32), (4, 0x00020120#32)]
        [(0x100, 5#32), (0x101, 1#32), (0x102, 0#32), (0x110, 9#32), (0x111, 9#32), (0x120, 9#32), (0x121, 9#32)]))
      (fun t => (getReg t 3, getReg t 4, words 0x110 2 t, words 0x120 2 t)) =
      some (0x00000110#32, 0x00010120#32, [some 0#32, some 0#32], [some 5#32, some 0#32]) := by decide +kernel

/-- "divide by zero and capacity -> DIVZERO" (section 4). -/
theorem test_divmod_divzero_first :
    reads (exec (.divmod 3 1 2 4)
      (running [(1, 0x00020100#32), (2, 0x00010102#32), (3, 0x00000110#32), (4, 0x00000120#32)]
        [(0x100, 1#32), (0x101, 0#32), (0x102, 0#32)])) ending =
      some (0x00000404#32, 0#32, 0x60C49000#32) := by decide +kernel

/-- "10^9 step". -/
theorem test_divrem1_step :
    reads (exec (.divrem1 7 1 4) (running [(1, 0x00040200#32), (4, 0x3B9ACA00#32)]
      [(0x200, 1#32), (0x201, 0x8EE90FF6#32), (0x202, 0xC373E0EE#32), (0x203, 0x4E3F0AD2#32)]))
      (fun t => (getReg t 7, words 0x200 4 t)) =
      some (0x0DFB38D2#32, [some 0#32, some 6#32, some 0xB14E9F81#32, some 0x2F366C35#32]) := by decide +kernel

/-- "NORM spill into dst[0]". -/
theorem test_norm_spill :
    reads (exec (.norm 2 1 3) (running [(1, 0x00020100#32), (2, 0x00030110#32), (3, 0x10#32)]
      [(0x100, 0xABCD1234#32), (0x101, 0x56789ABC#32)])) (words 0x110 3) =
      some [some 0x0000ABCD#32, some 0x12345678#32, some 0x9ABC0000#32] := by decide +kernel

/-- "NORM same length, spill -> INVALIDOP". -/
theorem test_norm_invalidop :
    reads (exec (.norm 2 1 3) (running [(1, 0x00020100#32), (2, 0x00020110#32), (3, 0x11#32)]
      [(0x100, 0x0000ABCD#32), (0x101, 0x12345678#32)])) ending =
      some (0x00000604#32, 0#32, 0x8084C000#32) := by decide +kernel

/-- "SHL by -4 = SHR by 4". -/
theorem test_shl_negative :
    reads (exec (.shl 2 1 3) (running [(1, 0x00020100#32), (2, 0x00020110#32), (3, 0xFFFFFFFC#32)]
      [(0x100, 1#32), (0x101, 0xF#32)])) (fun t => (getReg t 2, words 0x110 2 t)) =
      some (0x00010110#32, [some 0x10000000#32, some 0#32]) := by decide +kernel

/-- "SHL of zero by 2^31-1 (no capacity needed)". -/
theorem test_shl_zero :
    reads (exec (.shl 2 1 3) (running [(1, 0x00000100#32), (2, 0x00000110#32), (3, 0x7FFFFFFF#32)] [])) (getReg · 2) =
      some 0x00000110#32 := by decide +kernel

/-- "SHR by 33". -/
theorem test_shr_33 :
    reads (exec (.shr 2 1 3) (running [(1, 0x00020100#32), (2, 0x00020110#32), (3, 0x21#32)]
      [(0x100, 0xFFFFFFFF#32), (0x101, 0#32)])) (fun t => (getReg t 2, words 0x110 2 t)) =
      some (0x00010110#32, [some 0x7FFFFFFF#32, some 0#32]) := by decide +kernel

/-- "SHR by -2^31 (left) -> CAPACITY". -/
theorem test_shr_capacity :
    reads (exec (.shr 2 1 3) (running [(1, 0x00010100#32), (2, 0x00010110#32), (3, 0x80000000#32)] [(0x100, 1#32)]))
      ending = some (0x00000504#32, 0#32, 0x8884C000#32) := by decide +kernel

/-- "SAR -5 >> 1 = -3 (floor)". -/
theorem test_sar_floor :
    reads (exec (.sar 2 1 3 4) (running [(1, 0x00010100#32), (2, 0x00010110#32), (3, 1#32), (4, 0xFFFFFFFF#32)]
      [(0x100, 5#32)])) (fun t => (getReg t 2, getReg t 4, words 0x110 1 t)) =
      some (0x00010110#32, 0xFFFFFFFF#32, [some 3#32]) := by decide +kernel

/-- "SAR sign 2 -> BADSIGN". -/
theorem test_sar_badsign :
    reads (exec (.sar 2 1 3 4) (running [(1, 0x00010100#32), (2, 0x00010110#32), (3, 1#32), (4, 2#32)]
      [(0x100, 3#32)])) ending = some (0x00000904#32, 0#32, 0x8C84D000#32) := by decide +kernel

theorem test_clz : reads (exec (.clz 3 2) (running [(2, 0x0000ABCD#32)] [])) (getReg · 3) = some 0x10#32 := by
  decide +kernel

theorem test_clz_zero : reads (exec (.clz 3 2) (running [] [])) (getReg · 3) = some 0x20#32 := by decide +kernel

/-- "LZCA: window ends at the last LM word, in bounds" (section 4). -/
theorem test_lzca_last_word :
    reads (exec (.lzca 3 2) (running [(2, 0x00020FFE#32)] [(0xFFE, 0#32), (0xFFF, 1#32)])) (getReg · 3) =
      some 0x3F#32 := by decide +kernel

/-- "LZCA: window one word past the end -> BOUNDS" (section 4). -/
theorem test_lzca_bounds :
    reads (exec (.lzca 3 2) (running [(2, 0x00020FFF#32)] [(0xFFF, 0#32)])) ending =
      some (0x00000304#32, 0#32, 0x94C80000#32) := by decide +kernel

/-! ### One step: fetch and decode (95_test_vectors.md 2.1), and the interface of the host's checks -/

theorem test_step_opcode_0 :
    reads (step (running [] [(0, 0#32)])) ending = some (0x00000104#32, 0#32, 0#32) := by decide +kernel

theorem test_step_mul_reserved :
    reads (step (running [] [(0, 0x40C48200#32)])) ending = some (0x00000104#32, 0#32, 0x40C48200#32) := by
  decide +kernel

theorem test_step_fetch_at_depth :
    reads (step { running [] [] with pc := 0x1000#32 }) ending = some (0x00000204#32, 0x1000#32, 0#32) := by
  decide +kernel

theorem test_step_fetch_last :
    reads (step { running [] [] with pc := 0xFFFFFFFF#32 }) ending = some (0x00000204#32, 0xFFFFFFFF#32, 0#32) := by
  decide +kernel

theorem test_withFetchWord_reset :
    reads (step (State.reset.withFetchWord 32 0x1040BEEF)) (fun t => (getReg t 1, t.pc)) =
      some (0x0000BEEF#32, 1#32) := by decide +kernel

/-- The engine moves next although the host has moves to come. -/
theorem test_withFetchWord_host_due :
    reads (step ((idle [] [] [.powerOn]).withFetchWord 32 0x08000000)) (fun t => (t.done, t.hostMoves)) =
      some (true, [.powerOn]) := by decide +kernel

/-! ### The host interface (95_test_vectors.md 8) -/

/-- Rows 1 and 2: ID and PARAM. -/
theorem test_host_id_param :
    reads (step (idle [] [] [.read 0x000 4])) (·.hostData) = some 0x424E5801#32 ∧
    reads (step (idle [] [] [.read 0x014 4])) (·.hostData) = some 0x00001000#32 := by decide +kernel

/-- Rows 3 and 4: a reserved offset sets HACC, and STATUS clears it. -/
theorem test_host_hacc :
    reads (step (idle [] [] [.read 0x018 4])) (fun t => (t.hostData, statusWord t)) = some (0#32, 0x8#32) ∧
    reads (step { idle [] [] [.write 0x008 4 0x8] with hacc := true }) statusWord = some 0#32 := by decide +kernel

/-- Rows 5 and 6: the IE bits; a write of ID is dropped. -/
theorem test_host_ctrl :
    reads (step (idle [] [] [.write 0x004 4 0xC])) ctrlWord = some 0xC#32 ∧
    reads (step (idle [] [] [.write 0x000 4 0x12345678])) statusWord = some 0x8#32 := by decide +kernel

/-- Rows 7 to 9: START while idle; LM and START while busy. -/
theorem test_host_start :
    reads (step (idle [] [] [.write 0x004 4 0xD])) (fun t => (statusWord t, ctrlWord t)) = some (0x1#32, 0xC#32) ∧
    reads (step { running [] [(0x100, 7#32)] with hostMoves := [.read 0x10400 4] })
      (fun t => (t.hostData, statusWord t)) = some (0#32, 0x9#32) ∧
    reads (step { running [] [] with hostMoves := [.write 0x004 4 0xD] }) (fun t => (statusWord t, ctrlWord t)) =
      some (0x9#32, 0xC#32) := by decide +kernel

/-- Rows 10 to 12: the fault's STATUS and IRQ, and clearing ERR. -/
theorem test_host_fault_status :
    reads (step { idle [] [] [.read 0x008 4] with err := true, ecode := 4, hacc := true, ieErr := true })
      (fun t => (t.hostData, irq t)) = some (0x0000040C#32, true) ∧
    reads (step { idle [] [] [.write 0x008 4 4] with err := true, ecode := 4, hacc := true, ieErr := true })
      (fun t => (statusWord t, irq t)) = some (0x8#32, false) := by decide +kernel

/-- Row 13: SRST and START together are a soft reset only. -/
theorem test_host_srst :
    reads (step { idle [(3, 5#32)] [(0x100, 7#32)] [.write 0x004 4 0x3] with hacc := true, ieErr := true, pc := 8 })
      (fun t => (statusWord t, ctrlWord t, t.pc, getReg t 3, words 0x100 1 t)) =
      some (0#32, 0#32, 0#32, 0#32, [some 7#32]) := by decide +kernel

/-! ### The assembler (95_test_vectors.md 9, P1) -/

theorem test_assemble :
    assemble "LIL x1, 0x0100\nMUL x3, x1, x2\nHALT".toList =
      some [(0, 0x10400100#32), (1, 0x40C48000#32), (2, 0x08000000#32)] := by decide +kernel

/-- R92: a label names the address of the next word, which an `.org` after it sets. -/
theorem test_label_before_org :
    assemble "LI x1, here\nhere:\n.org 0x0020\n.word 7".toList =
      some [(0, 0x10400020#32), (1, 0x14400000#32), (0x20, 7#32)] := by decide +kernel

/-- R92: registers are x0 to x15, in either case. -/
theorem test_register_names :
    parseReg ['X', '1', '5'] = some 15 ∧ parseReg ['x', '7'] = some 7 ∧ parseReg ['x', '1', '6'] = none ∧
    parseReg ['x', '0', '7'] = none ∧ parseReg ['x'] = none := by decide

/-- R93: DESC is LI of the descriptor. -/
theorem test_desc : (expandDesc 1 0x0100 0x0002).map encode = [0x10400100#32, 0x14400002#32] := by decide

/-! ### Witnesses: encoding and the step -/

theorem witness_EncodeOfDecode : decode 0x04000000#32 = .ok .nop := by decide

/-- A busy engine whose word at PC is `word`, at the first and at the last LM address. -/
def at0 (word : Word) : State := running [] [(0, word)]
def atLast (word : Word) : State := { running [] [(0xFFF, word)] with pc := 0xFFF#32 }

/-- The same state with a `pass` and a later access of the host due. -/
def passing (s : State) : State := { s with hostMoves := [.pass, .write 0x00C 4 7#32] }

/-- Both ways the engine moves next: no access due, and a `pass` with an access behind it. -/
theorem witness_EngineMoves {s : State} (h : s.hostMoves = []) :
    EngineMoves s s ∧ EngineMoves (passing s) { s with hostMoves := [.write 0x00C 4 7#32] } :=
  ⟨.inl ⟨h, rfl⟩, .inr ⟨_, rfl, rfl⟩⟩

theorem witness_StepRunsTheDecodedCommand :
    (EngineMoves (at0 0x04000000#32) (at0 0x04000000#32) ∧ (at0 0x04000000#32).busy = true ∧
      (at0 0x04000000#32).pc.toNat < (at0 0x04000000#32).lmDepth ∧
      Memory.readWord (at0 0x04000000#32).lm (at0 0x04000000#32).pc.toNat = some 0x04000000#32 ∧
      decode 0x04000000#32 = .ok .nop) ∧
    (EngineMoves (passing (atLast 0x08000000#32)) { atLast 0x08000000#32 with hostMoves := [.write 0x00C 4 7#32] } ∧
      (passing (atLast 0x08000000#32)).busy = true ∧
      (passing (atLast 0x08000000#32)).pc.toNat < (passing (atLast 0x08000000#32)).lmDepth ∧
      Memory.readWord (passing (atLast 0x08000000#32)).lm (passing (atLast 0x08000000#32)).pc.toNat =
        some 0x08000000#32 ∧ decode 0x08000000#32 = .ok .halt) :=
  ⟨⟨(witness_EngineMoves rfl).1, by decide +kernel⟩, (witness_EngineMoves rfl).2, by decide +kernel⟩

/-- PC = LM_DEPTH, and the last PC with a later access due. -/
theorem witness_FetchOutsideLmFaults :
    (EngineMoves { running [] [] with pc := 0x1000#32 } { running [] [] with pc := 0x1000#32 } ∧
      { running [] [] with pc := 0x1000#32 }.busy = true ∧
      { running [] [] with pc := 0x1000#32 }.lmDepth ≤ { running [] [] with pc := 0x1000#32 }.pc.toNat) ∧
    ((∃ u, EngineMoves (passing { running [] [] with pc := 0xFFFFFFFF#32 }) u) ∧
      (passing { running [] [] with pc := 0xFFFFFFFF#32 }).busy = true ∧
      (passing { running [] [] with pc := 0xFFFFFFFF#32 }).lmDepth ≤ (0xFFFFFFFF#32).toNat) :=
  ⟨⟨(witness_EngineMoves rfl).1, by decide +kernel⟩, ⟨_, (witness_EngineMoves rfl).2⟩, by decide +kernel⟩

/-- One word for each check of R89, with and without a later access due. -/
theorem witness_IllegalWordFaults :
    (∀ w, EngineMoves (at0 w) (at0 w) ∧ ∃ u, EngineMoves (passing (at0 w)) u) ∧
    [0x00000000#32, 0x04000001#32, 0x18C84000#32].all (fun w =>
      (at0 w).busy = true ∧ (passing (at0 w)).busy = true ∧ (at0 w).pc.toNat < (at0 w).lmDepth ∧
        Memory.readWord (at0 w).lm (at0 w).pc.toNat = some w ∧
        ¬ (opAssigned w = true ∧ unusedFieldsZero w = true ∧ reservedBitsZero w = true)) = true :=
  ⟨fun _ => ⟨(witness_EngineMoves rfl).1, _, (witness_EngineMoves rfl).2⟩, by decide +kernel⟩

theorem witness_UnwrittenFetchStops :
    EngineMoves (running [] []) (running [] []) ∧ (∃ u, EngineMoves (passing (running [] [])) u) ∧
    (running [] []).busy = true ∧ (running [] []).pc.toNat < (running [] []).lmDepth ∧
      Memory.readWord (running [] []).lm (running [] []).pc.toNat = none :=
  ⟨(witness_EngineMoves rfl).1, ⟨_, (witness_EngineMoves rfl).2⟩, by decide +kernel⟩

theorem witness_IdleEngineTakesNoStep :
    (idle [] [] []).busy = false ∧ (idle [] [] []).hostMoves = [] ∧
      (idle [] [] [.pass, .powerOn]).busy = false ∧ (idle [] [] [.pass, .powerOn]).hostMoves = [.pass, .powerOn] := by
  decide +kernel

/-- A commit, a fault, and HALT. -/
theorem witness_CommandCommitsOrFaultsWhole :
    (∃ t, exec .nop (running [] []) = .next t ∧ t.err = false) ∧
    (∃ t, exec (.mul 3 1 2) (running [(1, 0x00020FFF#32)] []) = .next t ∧ t.err = true) ∧
    ∃ t, exec .halt (running [] []) = .next t ∧ t.err = false :=
  ⟨exists_next_err (by decide +kernel), exists_next_err (by decide +kernel), exists_next_err (by decide +kernel)⟩

/-- LZCA of a written word and an unwritten one, the last of LM. -/
theorem witness_CommandsStopOnlyAtUnwrittenWords :
    ∃ f, exec (.lzca 3 2) (running [(2, 0x00020FFE#32)] [(0xFFE, 0#32)]) = .fault f := by
  refine ⟨.readUnwritten 0xFFF, ?_⟩
  have h : lzcaBody 3 2 (running [(2, 0x00020FFE#32)] [(0xFFE, 0#32)]) = .error (.model (.readUnwritten 0xFFF)) := by
    have hv : val (running [(2, 0x00020FFE#32)] [(0xFFE, 0#32)]) 0x00020FFE#32 =
      .error (.model (.readUnwritten 0xFFF)) := by decide +kernel
    have hr : getReg (running [(2, 0x00020FFE#32)] [(0xFFE, 0#32)]) 2 = 0x00020FFE#32 := by decide +kernel
    have hb : checkBounds (running [(2, 0x00020FFE#32)] [(0xFFE, 0#32)]) 0x00020FFE#32 = .ok () := by decide +kernel
    simp only [lzcaBody, hr, hb, hv, bind, Except.bind]
  simp only [exec, execLzca, h, finish]

/-- A commit, a fault and an idle engine; a commit with a later access due. -/
theorem witness_EngineMovesPcByAtMostOne :
    (EngineMoves (at0 0x04000000#32) (at0 0x04000000#32) ∧ ∃ t, step (at0 0x04000000#32) = .next t) ∧
    (EngineMoves (at0 0#32) (at0 0#32) ∧ ∃ t, step (at0 0#32) = .next t) ∧
    (EngineMoves (idle [] [] []) (idle [] [] []) ∧ ∃ t, step (idle [] [] []) = .next t) ∧
    ((∃ u, EngineMoves (passing (at0 0x04000000#32)) u) ∧ ∃ t, step (passing (at0 0x04000000#32)) = .next t) :=
  ⟨⟨(witness_EngineMoves rfl).1, exists_next (by decide +kernel)⟩,
    ⟨(witness_EngineMoves rfl).1, exists_next (by decide +kernel)⟩,
    ⟨(witness_EngineMoves rfl).1, exists_next (by decide +kernel)⟩,
    ⟨_, (witness_EngineMoves rfl).2⟩, exists_next (by decide +kernel)⟩

/-! ### Witnesses: the multiplier -/

/-- 0xFFFF words from 0x10 pass LM, 0x10 words do not; every window holds one written word or none. -/
def mulState : State :=
  running [(1, 0x00010FFF#32), (2, 0x00000FFF#32), (3, 0x00010000#32), (4, 0x00011000#32), (5, 0x00000000#32),
    (6, 0xFFFFFFFF#32), (7, 0x00000001#32), (8, 0x00021000#32), (9, 0x00001000#32), (10, 0x00000020#32)]
    [(0xFFF, 3#32), (0, 0x80000000#32)]

/-- BOUNDS by one word for X, Y and Z; CAPACITY with one limb short; a window of just the limbs needed, and of none. -/
theorem witness_MulRule :
    ¬ (base (getReg mulState 4) + len (getReg mulState 4) ≤ mulState.lmDepth) ∧
    (base (getReg mulState 1) + len (getReg mulState 1) ≤ mulState.lmDepth ∧
      base (getReg mulState 3) + len (getReg mulState 3) ≤ mulState.lmDepth ∧
      val mulState (getReg mulState 1) = .ok 3 ∧ val mulState (getReg mulState 3) = .ok 0x80000000 ∧
      len (getReg mulState 3) < limbs 3 + limbs 0x80000000) ∧
    (base (getReg mulState 2) + len (getReg mulState 2) ≤ mulState.lmDepth ∧ val mulState (getReg mulState 2) = .ok 0 ∧
      limbs 0 + limbs 3 ≤ len (getReg mulState 3)) ∧
    (val mulState (getReg mulState 5) = .ok 0 ∧ limbs 0 + limbs 0 ≤ len (getReg mulState 5) ∧
      base (getReg mulState 5) + len (getReg mulState 5) ≤ mulState.lmDepth) := by decide +kernel

/-- BOUNDS by one word; the last word; a window of no limbs at LM_DEPTH itself. -/
theorem witness_Muladd1Rule :
    ¬ (base (getReg mulState 4) + len (getReg mulState 4) ≤ mulState.lmDepth) ∧
    (base (getReg mulState 1) + len (getReg mulState 1) ≤ mulState.lmDepth ∧
      val mulState (getReg mulState 1) = .ok 3) ∧
    (base (getReg mulState 9) + len (getReg mulState 9) ≤ mulState.lmDepth ∧
      val mulState (getReg mulState 9) = .ok 0) := by decide +kernel

theorem witness_Muladd1LosesNothing : val mulState (getReg mulState 1) = .ok 3 ∧ mulState.err = false ∧
    ∃ t, exec (.muladd1 0 1 6 6) mulState = .next t ∧ t.err = false :=
  ⟨by decide +kernel, by decide +kernel, exists_next_err (by decide +kernel)⟩

/-- A commit and a fault. -/
theorem witness_MulCommutes : (∃ t, exec (.mul 3 1 2) mulState = .next t) ∧ ∃ t, exec (.mul 3 1 4) mulState = .next t :=
  ⟨exists_next (by decide +kernel), exists_next (by decide +kernel)⟩

/-! ### Witnesses: the divider -/

/-- X two limbs at 0x100 (2^32), Y one limb at 0x102 (3), a zero Y at 0x103, windows Q at 0x110 and R at 0x120. -/
def divState : State :=
  running [(1, 0x00020100#32), (2, 0x00010102#32), (3, 0x00020110#32), (4, 0x00010120#32), (5, 0x00010103#32),
    (6, 0x00010111#32), (7, 0x00010110#32), (8, 0x00000120#32), (9, 0x00011000#32), (10, 0x00010102#32),
    (11, 0x00000110#32), (12, 0x00000FFF#32), (13, 0x00001000#32), (14, 0x00001001#32)]
    [(0x100, 1#32), (0x101, 0#32), (0x102, 3#32), (0x103, 0#32)]

/-- The four windows that DIVMOD checks are in bounds. -/
def divInBounds (ra rb rd rc : Reg) : Bool :=
  [ra, rb, rd, rc].all (fun r => base (getReg divState r) + len (getReg divState r) ≤ divState.lmDepth)

/-- BOUNDS by one word, and by an empty window one word past the end; OVERLAP by one word; then, in windows that share no
word, DIVZERO, CAPACITY of Q and of R, a commit with a full quotient, and one with X shorter than Y and no quotient. -/
theorem witness_DivmodRule :
    ¬ divInBounds 1 2 3 9 ∧ ¬ divInBounds 1 2 3 14 ∧ divInBounds 1 2 3 13 ∧
    (divInBounds 1 2 3 6 ∧ base (getReg divState 3) ≤ 0x111 ∧
      0x111 < base (getReg divState 3) + len (getReg divState 3) ∧ base (getReg divState 6) ≤ 0x111 ∧
      0x111 < base (getReg divState 6) + len (getReg divState 6)) ∧
    (divInBounds 1 5 3 4 ∧ ¬ Overlap (getReg divState 3) (getReg divState 4) ∧ val divState (getReg divState 5) = .ok 0) ∧
    (divInBounds 1 2 7 4 ∧ ¬ Overlap (getReg divState 7) (getReg divState 4) ∧
      val divState (getReg divState 1) = .ok 0x100000000 ∧ val divState (getReg divState 2) = .ok 3 ∧
      len (getReg divState 7) < limbs 0x100000000 - limbs 3 + 1) ∧
    (divInBounds 1 2 3 8 ∧ ¬ Overlap (getReg divState 3) (getReg divState 8) ∧
      len (getReg divState 8) < min (limbs 0x100000000) (limbs 3)) ∧
    (divInBounds 1 2 3 4 ∧ limbs 3 ≤ limbs 0x100000000 ∧ limbs 0x100000000 - limbs 3 + 1 ≤ len (getReg divState 3) ∧
      min (limbs 0x100000000) (limbs 3) ≤ len (getReg divState 4)) ∧
    (divInBounds 2 1 11 4 ∧ ¬ Overlap (getReg divState 11) (getReg divState 4) ∧
      ¬ limbs 0x100000000 ≤ limbs 3 ∧ min (limbs 3) (limbs 0x100000000) ≤ len (getReg divState 4)) := by decide +kernel

/-- BOUNDS by one word; DIVZERO, also at width 0 at the end of LM; a commit, also at width 0. -/
theorem witness_Divrem1Rule :
    ¬ (base (getReg divState 9) + len (getReg divState 9) ≤ divState.lmDepth) ∧
    (base (getReg divState 13) + len (getReg divState 13) ≤ divState.lmDepth ∧ (getReg divState 0).toNat = 0) ∧
    ((getReg divState 1).toNat ≠ 0 ∧ base (getReg divState 1) + len (getReg divState 1) ≤ divState.lmDepth ∧
      val divState (getReg divState 1) = .ok 0x100000000) ∧
    val divState (getReg divState 13) = .ok 0 := by decide +kernel

theorem witness_DivisionIsExact :
    (3 : Reg) ≠ 4 ∧ divState.err = false ∧ (∃ t, exec (.divmod 3 1 2 4) divState = .next t ∧ t.err = false) ∧
    ∃ t, exec (.divrem1 5 1 2) divState = .next t ∧ t.err = false :=
  ⟨by decide, by decide +kernel, exists_next_err (by decide +kernel), exists_next_err (by decide +kernel)⟩

/-! ### Witnesses: the shifter and the counter -/

/-- X = 1 at 0x100, a zero limb at 0x101, windows of 0, 1, 2, 3 limbs at 0x110; amounts 31, 32, 0, 2^31 - 1, -2^31, -1. -/
def shiftState : State :=
  running [(0, 0x00000110#32), (1, 0x00010100#32), (2, 0x00010110#32), (3, 0x00020110#32), (4, 0x00030110#32),
    (5, 31#32), (6, 32#32), (7, 0#32), (8, 0x7FFFFFFF#32), (9, 0x80000000#32), (10, 0xFFFFFFFF#32), (11, 0x00011000#32),
    (12, 0x00010101#32), (13, 1#32), (14, 2#32), (15, 0x00010FFF#32)]
    [(0x100, 1#32), (0x101, 0#32), (0xFFF, 0x80000000#32)]

/-- The window of a register is in bounds. -/
def shiftInBounds (r : Reg) : Bool := base (getReg shiftState r) + len (getReg shiftState r) ≤ shiftState.lmDepth

/-- BOUNDS; OUTOFRANGE at 32; BADLEN one below and two above; INVALIDOP at 31; a commit at 31 and one limb more. -/
theorem witness_NormRule :
    ¬ shiftInBounds 11 ∧ (∀ r ∈ [0, 1, 2, 3, 4, 15], shiftInBounds r) ∧ 32 ≤ (getReg shiftState 6).toNat ∧
    ((getReg shiftState 5).toNat < 32 ∧ len (getReg shiftState 0) ≠ len (getReg shiftState 1) ∧
      len (getReg shiftState 0) ≠ len (getReg shiftState 1) + 1 ∧
      len (getReg shiftState 4) ≠ len (getReg shiftState 1) ∧
      len (getReg shiftState 4) ≠ len (getReg shiftState 1) + 1) ∧
    (len (getReg shiftState 2) = len (getReg shiftState 15) ∧ val shiftState (getReg shiftState 15) = .ok 0x80000000 ∧
      2 ^ (32 * len (getReg shiftState 2)) ≤ 0x80000000 * 2 ^ (getReg shiftState 13).toNat) ∧
    (len (getReg shiftState 3) = len (getReg shiftState 15) + 1 ∧
      0x80000000 * 2 ^ (getReg shiftState 5).toNat < 2 ^ (32 * len (getReg shiftState 3))) ∧
    (len (getReg shiftState 2) = len (getReg shiftState 1) ∧ val shiftState (getReg shiftState 1) = .ok 1 ∧
      1 * 2 ^ (getReg shiftState 5).toNat < 2 ^ (32 * len (getReg shiftState 2))) := by decide +kernel

/-- BOUNDS; CAPACITY at 32 in one limb; commits at 31 in one limb, 0 limbs at -1, and at -2^31. -/
theorem witness_ShlRule :
    ¬ shiftInBounds 11 ∧ (∀ r ∈ [0, 1, 2, 3], shiftInBounds r) ∧ val shiftState (getReg shiftState 1) = .ok 1 ∧
    (0 ≤ (getReg shiftState 6).toInt ∧ len (getReg shiftState 2) < limbs (1 * 2 ^ (getReg shiftState 6).toInt.toNat)) ∧
    (0 ≤ (getReg shiftState 5).toInt ∧ limbs (1 * 2 ^ (getReg shiftState 5).toInt.toNat) ≤ len (getReg shiftState 2)) ∧
    (¬ 0 ≤ (getReg shiftState 10).toInt ∧
      limbs (1 / 2 ^ (-(getReg shiftState 10).toInt).toNat) ≤ len (getReg shiftState 0)) ∧
    ¬ 0 ≤ (getReg shiftState 9).toInt := by decide +kernel

/-- BOUNDS; CAPACITY of a left shift by 1 out of one limb; commits at 1 and, to the left, at -1. -/
theorem witness_ShrRule :
    ¬ shiftInBounds 11 ∧ (∀ r ∈ [0, 1, 2, 15], shiftInBounds r) ∧ val shiftState (getReg shiftState 1) = .ok 1 ∧
    val shiftState (getReg shiftState 15) = .ok 0x80000000 ∧
    (¬ 0 ≤ (getReg shiftState 10).toInt ∧
      len (getReg shiftState 2) < limbs (0x80000000 * 2 ^ (-(getReg shiftState 10).toInt).toNat) ∧
      limbs (1 * 2 ^ (-(getReg shiftState 10).toInt).toNat) ≤ len (getReg shiftState 2)) ∧
    (0 ≤ (getReg shiftState 13).toInt ∧
      limbs (1 / 2 ^ (getReg shiftState 13).toInt.toNat) ≤ len (getReg shiftState 0)) := by decide +kernel

/-- BOUNDS; BADSIGN for a sign of 2, for sign 0 of a nonzero and sign 1 of a zero magnitude; CAPACITY; commits for the signs
-1, 0 and 1, at a right and at a left shift. -/
theorem witness_SarRule :
    ¬ shiftInBounds 11 ∧ (∀ r ∈ [0, 1, 2, 12], shiftInBounds r) ∧ val shiftState (getReg shiftState 1) = .ok 1 ∧
    val shiftState (getReg shiftState 12) = .ok 0 ∧
    (getReg shiftState 14).toInt = 2 ∧ ((getReg shiftState 7).toInt = 0 ∧ ¬ (0 = (0 : Int) ↔ 1 = 0)) ∧
    ((getReg shiftState 13).toInt = 1 ∧ ¬ ((1 : Int) = 0 ↔ 0 = 0)) ∧
    ((getReg shiftState 10).toInt = -1 ∧ len (getReg shiftState 0) < limbs ((-1 * 1 : Int) / 2 ^ 1).natAbs ∧
      limbs ((-1 * 1 : Int) / 2 ^ 1).natAbs ≤ len (getReg shiftState 2)) ∧
    limbs ((1 * 1 : Int) / 2 ^ 1).natAbs ≤ len (getReg shiftState 0) ∧
    limbs ((1 * 1 : Int) * 2 ^ (-(getReg shiftState 10).toInt).toNat).natAbs ≤ len (getReg shiftState 2) ∧
    limbs ((0 * 0 : Int) * 2 ^ 1).natAbs ≤ len (getReg shiftState 0) := by decide +kernel

/-- Words 0, whose count is 32, and 1 and one with bit 31 set; every state meets the rest. -/
theorem witness_ClzRule :
    getReg shiftState 7 = 0#32 ∧ getReg shiftState 13 = 1#32 ∧ (getReg shiftState 9).getLsbD 31 = true ∧
    IsLeadingZeros 32 32 0 ∧ ¬ IsLeadingZeros 31 32 0 ∧
    reads (exec (.clz 2 7) shiftState) (getReg · 2) = some 32#32 := by
  refine ⟨by decide +kernel, by decide +kernel, by decide +kernel, ?_, ?_, by decide +kernel⟩ <;>
    unfold IsLeadingZeros <;> decide

/-- BOUNDS by one word; the last word; an all-zero window of one word; an empty window. -/
theorem witness_LzcaRule :
    ¬ shiftInBounds 11 ∧ shiftInBounds 15 ∧ val shiftState (getReg shiftState 15) = .ok 0x80000000 ∧
    (shiftInBounds 12 ∧ len (getReg shiftState 12) = 1 ∧ val shiftState (getReg shiftState 12) = .ok 0 ∧
      reads (exec (.lzca 2 12) shiftState) (getReg · 2) = some 32#32) ∧
    (shiftInBounds 0 ∧ len (getReg shiftState 0) = 0 ∧ val shiftState (getReg shiftState 0) = .ok 0 ∧
      reads (exec (.lzca 2 0) shiftState) (getReg · 2) = some 0#32) := by decide +kernel

/-- A commit, for 1 and -1, and a fault. -/
theorem witness_ShlIsShrByTheNegative :
    getReg shiftState 10 = - getReg shiftState 13 ∧ getReg shiftState 13 ≠ 0x80000000#32 ∧
    (∃ t, exec (.shl 2 1 13) shiftState = .next t) ∧ ∃ t, exec (.shl 11 1 13) shiftState = .next t :=
  ⟨by decide +kernel, by decide +kernel, exists_next (by decide +kernel), exists_next (by decide +kernel)⟩

theorem witness_SarOfPositiveIsShr :
    (2 : Reg) ≠ 13 ∧ getReg shiftState 13 = 1#32 ∧ val shiftState (getReg shiftState 1) = .ok 1 ∧ (1 : Nat) ≠ 0 ∧
      shiftState.err = false ∧ ∃ t, exec (.shr 2 1 13) shiftState = .next t ∧ t.err = false :=
  ⟨by decide, by decide +kernel, by decide +kernel, by decide, by decide +kernel, exists_next_err (by decide +kernel)⟩

theorem witness_LzcaOfOneLimbIsClz :
    len (getReg shiftState 1) = 1 ∧ base (getReg shiftState 1) + 1 ≤ shiftState.lmDepth ∧
    Memory.readWord shiftState.lm (base (getReg shiftState 1)) = some (getReg shiftState 13) ∧
    ∃ t, exec (.clz 2 13) shiftState = .next t :=
  ⟨by decide +kernel, by decide +kernel, by decide +kernel, exists_next (by decide +kernel)⟩

/-! ### Witnesses: frames -/

theorem witness_FrameOfNopAndHalt : (∃ t, exec .nop shiftState = .next t) ∧ ∃ t, exec .halt shiftState = .next t :=
  ⟨exists_next (by decide +kernel), exists_next (by decide +kernel)⟩

theorem witness_FrameOfRegisterCommands :
    (∃ t, exec (.lil 2 0) shiftState = .next t) ∧ (∃ t, exec (.lih 2 0) shiftState = .next t) ∧
    (∃ t, exec (.mov 2 1) shiftState = .next t) ∧ (∃ t, exec (.clz 2 1) shiftState = .next t) ∧
    (∃ t, exec (.lzca 2 1) shiftState = .next t) ∧ ∃ t, exec (.lzca 2 11) shiftState = .next t :=
  ⟨exists_next (by decide +kernel), exists_next (by decide +kernel), exists_next (by decide +kernel),
    exists_next (by decide +kernel), exists_next (by decide +kernel), exists_next (by decide +kernel)⟩

theorem witness_FrameOfCanonicalCommands :
    (∃ t, exec (.mul 3 1 15) shiftState = .next t) ∧ (∃ t, exec (.shl 2 1 5) shiftState = .next t) ∧
    (∃ t, exec (.shr 2 1 5) shiftState = .next t) ∧ ∃ t, exec (.shr 11 1 5) shiftState = .next t :=
  ⟨exists_next (by decide +kernel), exists_next (by decide +kernel), exists_next (by decide +kernel),
    exists_next (by decide +kernel)⟩

theorem witness_FrameOfInPlaceCommands :
    (∃ t, exec (.muladd1 2 1 5 5) shiftState = .next t) ∧ (∃ t, exec (.divrem1 2 1 5) shiftState = .next t) ∧
    ∃ t, exec (.divrem1 2 11 5) shiftState = .next t :=
  ⟨exists_next (by decide +kernel), exists_next (by decide +kernel), exists_next (by decide +kernel)⟩

theorem witness_FrameOfNormAndSar :
    (∃ t, exec (.norm 2 1 5) shiftState = .next t) ∧ (∃ t, exec (.sar 2 1 5 13) shiftState = .next t) ∧
    ∃ t, exec (.sar 11 1 5 13) shiftState = .next t :=
  ⟨exists_next (by decide +kernel), exists_next (by decide +kernel), exists_next (by decide +kernel)⟩

theorem witness_FrameOfDivmod :
    (∃ t, exec (.divmod 3 1 2 4) divState = .next t) ∧ ∃ t, exec (.divmod 3 1 2 9) divState = .next t :=
  ⟨exists_next (by decide +kernel), exists_next (by decide +kernel)⟩

/-! ### Witnesses: the host interface -/

theorem witness_HostReadsControlRegisters :
    (idle [] [] [.read 0x000 4]).hostMoves = [.read 0x000 4] ∧ (idle [] [] [.read 0x014 4]).hostMoves = [.read 0x014 4] ∧
    (idle [] [] [.read 0x010 4]).hostMoves = [.read 0x010 4] ∧ (idle [] [] [.read 0x004 4]).hostMoves = [.read 0x004 4] ∧
    (idle [] [] [.read 0x008 4]).hostMoves = [.read 0x008 4] := ⟨rfl, rfl, rfl, rfl, rfl⟩

/-- x0, x15; a written LM[0], an unwritten LM[4095], at the last offset of the window. -/
theorem witness_HostReadsWhileIdle :
    (idle [] [(0, 7#32)] [.read 0x00C 4]).busy = false ∧
    ((0x040 : Fin 0x50000).val = 0x040 + 4 * (0 : Reg).toNat ∧ (0x07C : Fin 0x50000).val = 0x040 + 4 * (15 : Reg).toNat) ∧
    (0 < (idle [] [(0, 7#32)] []).lmDepth ∧ (0x10000 : Fin 0x50000).val = 0x10000 + 4 * 0 ∧
      Memory.readWord (idle [] [(0, 7#32)] []).lm 0 = some 7#32) ∧
    (4095 < (idle [] [(0, 7#32)] []).lmDepth ∧ (0x13FFC : Fin 0x50000).val = 0x10000 + 4 * 4095 ∧
      Memory.readWord (idle [] [(0, 7#32)] []).lm 4095 = none) := by decide +kernel

theorem witness_HostWritesWhileIdle :
    (idle [] [] [.write 0x00C 4 1#32]).busy = false ∧
    ((0x040 : Fin 0x50000).val = 0x040 + 4 * (0 : Reg).toNat ∧ (0x07C : Fin 0x50000).val = 0x040 + 4 * (15 : Reg).toNat) ∧
    (4095 < (idle [] [] []).lmDepth ∧ (0x13FFC : Fin 0x50000).val = 0x10000 + 4 * 4095) := by decide +kernel

/-- PC; the first and last offsets of the X window and of the LM window. -/
theorem witness_BusyAccessIsRefused :
    (running [] []).busy = true ∧ [0x00C, 0x040, 0x07C, 0x10000, 0x13FFC].all (fun o =>
      o < 0x50000 ∧ o % 4 = 0 ∧
        (o = 0x00C ∨ (0x040 ≤ o ∧ o < 0x080) ∨ (0x10000 ≤ o ∧ o < 0x10000 + 4 * (running [] []).lmDepth))) = true := by
  decide +kernel

/-- A half word; an unaligned word; the first and last offsets of each reserved range. -/
theorem witness_AccessNotPerformedSetsHacc :
    [(0x000, 2), (0x002, 4), (0x018, 4), (0x03C, 4), (0x080, 4), (0xFFFC, 4), (0x14000, 4), (0x4FFFC, 4)].all (fun p =>
      p.1 < 0x50000 ∧ ((p.2 ≠ 4 ∨ p.1 % 4 ≠ 0) ∨ (0x018 ≤ p.1 ∧ p.1 < 0x040) ∨ (0x080 ≤ p.1 ∧ p.1 < 0x10000) ∨
        (0x10000 + 4 * (running [] []).lmDepth ≤ p.1))) = true := by decide +kernel

/-- Idle and busy, with START; without. -/
theorem witness_StartRule :
    (0xD#32).getLsbD 1 = false ∧ (0xD#32).getLsbD 0 = true ∧ (0xC#32).getLsbD 1 = false ∧ (0xC#32).getLsbD 0 = false ∧
    (idle [] [] [.write 0x004 4 0xD#32]).busy = false ∧
    (idle [] [] [.write 0x004 4 0xD#32]).hostMoves = [.write 0x004 4 0xD#32] ∧ (running [] []).busy = true := by
  decide +kernel

/-- SRST beside START, idle and busy; power-on. -/
theorem witness_ResetsClearEverythingButLm :
    (0x3#32).getLsbD 1 = true ∧ (idle [] [] [.write 0x004 4 0x3#32]).hostMoves = [.write 0x004 4 0x3#32] ∧
    { running [] [] with hostMoves := [.write 0x004 4 0x3#32] }.hostMoves = [.write 0x004 4 0x3#32] ∧
    (idle [] [] [.powerOn]).hostMoves = [.powerOn] := by decide +kernel

theorem witness_StatusWriteRule :
    (idle [] [] [.write 0x008 4 0xE#32]).hostMoves = [.write 0x008 4 0xE#32] := rfl

/-! ### Witnesses: the whole machine and the algorithms -/

/-- A command, a fault, and a host write of LM, from states that meet the invariant. -/
theorem witness_StepKeepsTheInvariant :
    (StateInv (at0 0x04000000#32) ∧ ∃ t, step (at0 0x04000000#32) = .next t) ∧
    (StateInv (at0 0#32) ∧ ∃ t, step (at0 0#32) = .next t) ∧
    (StateInv (idle [] [] [.write 0x13FFC 4 5#32]) ∧ ∃ t, step (idle [] [] [.write 0x13FFC 4 5#32]) = .next t) :=
  ⟨⟨by decide +kernel, exists_next (by decide +kernel)⟩, ⟨by decide +kernel, exists_next (by decide +kernel)⟩,
    by decide +kernel, exists_next (by decide +kernel)⟩

/-- From the last LM address, and from beyond it. -/
theorem witness_EveryRunEnds :
    (DepthInRange (atLast 0x04000000#32) ∧ (atLast 0x04000000#32).busy = true ∧ (atLast 0x04000000#32).hostMoves = []) ∧
    (DepthInRange { running [] [] with pc := 0x1000#32 } ∧ { running [] [] with pc := 0x1000#32 }.busy = true ∧
      { running [] [] with pc := 0x1000#32 }.hostMoves = []) ∧
    ∃ t, run 2 (atLast 0x04000000#32) = .next t :=
  ⟨by decide +kernel, by decide +kernel, exists_next (by decide +kernel)⟩

/-- "Knuth D add-back, shift 0" (5.1), and its value. -/
theorem witness_KnuthDividesExactly :
    trimLimbs [1#32, 1#32, 1#32, 0x80000000#32] = [1#32, 1#32, 1#32, 0x80000000#32] ∧
    trimLimbs [0x80000000#32, 0x80000000#32, 0xC1AC1198#32] = [0x80000000#32, 0x80000000#32, 0xC1AC1198#32] ∧
    2 ≤ [0x80000000#32, 0x80000000#32, 0xC1AC1198#32].length ∧
    limbsValue [0x80000000#32, 0x80000000#32, 0xC1AC1198#32] < limbsValue [1#32, 1#32, 1#32, 0x80000000#32] ∧
    knuthDivide [1#32, 1#32, 1#32, 0x80000000#32] [0x80000000#32, 0x80000000#32, 0xC1AC1198#32] =
      (1, limbsValue [0x80000000#32, 0x80000000#32, 0xBE53EE68#32]) := by decide +kernel

theorem witness_ShortDivisionIsExact : 0 < 1 ∧ shortDivide 1 0 [5#32, 6#32] = ([5#32, 6#32], 0) := by decide +kernel

/-- Shifts 0 and 31; a last carry of 0 and one that is not. -/
theorem witness_NormalizeLoopShifts :
    0 < 32 ∧ 31 < 32 ∧ (normalizeLoop 31 [1#32]).2 = 0 ∧ (normalizeLoop 31 [2#32]).2 ≠ 0 := by decide +kernel

/-! ### Witnesses: limb order and descriptors, the interrupt output, unwritten sources -/

/-- Two words, the empty window, and the order: 1 at the lower address counts 2^32; descriptors of length 2 and 0. -/
theorem witness_WindowsAreBigEndian :
    Memory.readWord (lmOf [(0x100, 1#32), (0x101, 5#32)]) (0x100 + 0) = some 1#32 ∧
    Memory.readWord (lmOf [(0x100, 1#32), (0x101, 5#32)]) (0x100 + 1) = some 5#32 ∧
    memRead (lmOf [(0x100, 1#32), (0x101, 5#32)]) 0x100 2 = .ok 0x100000005 ∧
    memRead (lmOf []) 0x100 0 = .ok 0 ∧
    (len 0x00020100#32 = 2 ∧ base 0x00020100#32 = 0x100 ∧
      val (running [] [(0x100, 1#32), (0x101, 5#32)]) 0x00020100#32 = .ok 0x100000005) ∧
    len 0x0000FFFF#32 = 0 ∧ base 0x0000FFFF#32 = 0xFFFF := by decide +kernel

/-- A fault and a HALT that raise the line; a STATUS write that lowers it and one that does not; CTRL writes with SRST, with
START while idle, that enable DONE, and while busy; power-on. -/
theorem witness_InterruptOutputRule :
    (EngineMoves { running [] [] with pc := 0x1000#32, ieErr := true } { running [] [] with pc := 0x1000#32, ieErr := true } ∧
      reads (step { running [] [] with pc := 0x1000#32, ieErr := true }) irq = some true) ∧
    reads (exec .halt { running [] [] with ieDone := true }) irq = some true ∧
    reads (step { idle [] [] [.write 0x008 4 0x4#32] with err := true, ieErr := true }) irq = some false ∧
    reads (step { idle [] [] [.write 0x008 4 0x2#32] with err := true, ieErr := true }) irq = some true ∧
    reads (step { idle [] [] [.write 0x004 4 0xE#32] with err := true, ieErr := true }) irq = some false ∧
    reads (step { idle [] [] [.write 0x004 4 0xD#32] with err := true, ieErr := true }) irq = some false ∧
    reads (step { idle [] [] [.write 0x004 4 0x4#32] with done := true }) irq = some true ∧
    reads (step { idle [] [] [.write 0x004 4 0x8#32] with done := true, ieDone := true }) irq = some false ∧
    reads (step { running [] [] with hostMoves := [.write 0x004 4 0xD#32], ieDone := true }) irq = some false ∧
    reads (step { idle [] [] [.powerOn] with err := true, ieErr := true }) irq = some false :=
  ⟨⟨(witness_EngineMoves rfl).1, by decide +kernel⟩, by decide +kernel, by decide +kernel, by decide +kernel,
    by decide +kernel, by decide +kernel, by decide +kernel, by decide +kernel, by decide +kernel, by decide +kernel⟩

/-- X is the two last words of LM, the last unwritten; Y is one unwritten word; Z and R are empty windows. -/
def holedState : State :=
  running [(1, 0x00020FFE#32), (2, 0x00010200#32), (3, 0x00020300#32), (4, 0x00000300#32), (5, 31#32), (6, 0x00010FFE#32)]
    [(0xFFE, 1#32)]

/-- The window of a register is in bounds. -/
def holedInBounds (r : Reg) : Bool := base (getReg holedState r) + len (getReg holedState r) ≤ holedState.lmDepth

/-- An unwritten word behind a written one at the end of LM; the same behind a readable X in Y; the checks before the read. -/
theorem witness_UnwrittenSourceStops :
    FirstUnwritten holedState (getReg holedState 1) 0xFFF ∧ FirstUnwritten holedState (getReg holedState 2) 0x200 ∧
    val holedState (getReg holedState 6) = .ok 1 ∧ (∀ r ∈ [1, 2, 3, 4, 6], holedInBounds r) ∧
    getReg holedState 5 ≠ 0#32 ∧ (getReg holedState 5).toNat < 32 ∧
    len (getReg holedState 3) = len (getReg holedState 1) ∧ ¬ Overlap (getReg holedState 3) (getReg holedState 4) := by
  refine ⟨⟨by decide +kernel, by decide +kernel, by decide +kernel, ?_⟩,
    ⟨by decide +kernel, by decide +kernel, by decide +kernel, ?_⟩, by decide +kernel⟩
  · intro b h1 h2
    have e : base (getReg holedState 1) = 0xFFE := by decide +kernel
    obtain rfl : b = 0xFFE := by omega
    decide +kernel
  · intro b h1 h2
    have e : base (getReg holedState 2) = 0x200 := by decide +kernel
    omega

end Sys2Proof.Tests
end

section
/-! PROOF. O58: the limb order of windows (R9, R10) and the two halves of a descriptor (R64). -/

namespace Sys2Proof.Machine

/-- A window of written words reads as their sum, each word weighted by the number of words above it (R9). -/
theorem memRead_eq_sum {m : Memory} {a n : Nat} {f : Nat → Word}
    (h : ∀ i, i < n → Memory.readWord m (a + i) = some (f i)) :
    memRead m a n = .ok (∑ i ∈ Finset.range n, (f i).toNat * 2 ^ (32 * (n - 1 - i))) := by
  induction n generalizing a f with
  | zero => rfl
  | succ n ih =>
    have hhead : Memory.readWord m a = some (f 0) := h 0 n.succ_pos
    have htail : ∀ i, i < n → Memory.readWord m (a + 1 + i) = some (f (i + 1)) := fun i hi => by
      rw [Nat.add_assoc, Nat.add_comm 1]
      exact h (i + 1) (by omega)
    rw [memRead, hhead, ih htail, Finset.sum_range_succ']
    simp only [Nat.add_sub_cancel, Nat.sub_zero, Nat.sub_sub, Nat.add_comm 1, Nat.add_comm (∑ _ ∈ _, _)]

/-- Word i of a written window is the value's 32 bits of that word's weight (R10). -/
theorem readWord_memWrite_div (m : Memory) {a n i : Nat} (v : Nat) (h : i < n) :
    Memory.readWord (memWrite m a n v) (a + i) = some (BitVec.ofNat 32 (v / 2 ^ (32 * (n - 1 - i)))) := by
  rw [readWord_memWrite (Nat.le_add_right a i) (by omega), Nat.add_sub_cancel_left, Nat.shiftRight_eq_div_pow]

theorem base_eq_mod (d : Word) : base d = d.toNat % 2 ^ 16 := by
  rw [base, BitVec.extractLsb'_toNat, Nat.shiftRight_zero]

theorem len_eq_div (d : Word) : len d = d.toNat / 2 ^ 16 := by
  rw [len, BitVec.extractLsb'_toNat, Nat.shiftRight_eq_div_pow, Nat.mod_eq_of_lt]
  have := d.isLt
  omega

/-- A source of length 0 has value 0 (R66). -/
theorem val_of_len_zero (s : State) {d : Word} (h : len d = 0) : val s d = .ok 0 := by
  rw [val, h, memRead]

/-- Settles O58, by the sum of a window's words, the words and the frame of a window write, and the two halves of a
descriptor. -/
theorem windowsAreBigEndian : Obligations.WindowsAreBigEndian :=
  ⟨fun m _ _ => ⟨fun _ hf => memRead_eq_sum hf,
      fun v => ⟨fun _ hi => readWord_memWrite_div m v hi, fun _ hk => readByte_memWrite_outside m v hk⟩⟩,
    fun s d => ⟨base_eq_mod d, len_eq_div d, val_of_len_zero s, fun _ hf => memRead_eq_sum hf⟩⟩

end Sys2Proof.Machine
end

section
/-! PROOF. O47, O48, O49: the host's writes of CTRL (R33, R34, R35) and STATUS (R42), and power-on reset (R250). -/

namespace Sys2Proof.Machine

/-! ### A write of CTRL, by the bits of the value -/

/-- A CTRL write is performed as `writeCtrl`, busy or not (R33). -/
theorem step_write_ctrl {s : State} {rest : List HostMove} {v : Word} (h : s.hostMoves = .write 0x004 4 v :: rest) :
    step s = .next (writeCtrl { s with hostMoves := rest } v) := step_write h

theorem writeCtrl_of_srst (s : State) {v : Word} (hsrst : v.getLsbD 1 = true) : writeCtrl s v = softReset s :=
  if_pos hsrst

/-- START while idle starts the engine, with the IE bits of the same write (R34). -/
theorem writeCtrl_of_start_idle (s : State) {v : Word} (hsrst : v.getLsbD 1 = false) (hstart : v.getLsbD 0 = true)
    (hidle : s.busy = false) :
    writeCtrl s v = start { s with ieDone := v.getLsbD 2, ieErr := v.getLsbD 3 } := by
  simp only [writeCtrl, hsrst, hstart, hidle, Bool.false_eq_true, if_true, if_false]

/-- START while busy is refused, and the IE bits of the same write still count (R34). -/
theorem writeCtrl_of_start_busy (s : State) {v : Word} (hsrst : v.getLsbD 1 = false) (hstart : v.getLsbD 0 = true)
    (hbusy : s.busy = true) :
    writeCtrl s v = refuseAccess { s with ieDone := v.getLsbD 2, ieErr := v.getLsbD 3 } := by
  simp only [writeCtrl, hsrst, hstart, hbusy, Bool.false_eq_true, if_true, if_false]

theorem writeCtrl_of_no_start (s : State) {v : Word} (hsrst : v.getLsbD 1 = false) (hstart : v.getLsbD 0 = false) :
    writeCtrl s v = { s with ieDone := v.getLsbD 2, ieErr := v.getLsbD 3 } := by
  simp only [writeCtrl, hsrst, hstart, Bool.false_eq_true, if_false]

/-- Settles O47, by the three cases of a CTRL write without SRST. -/
theorem startRule : Obligations.StartRule := by
  intro s rest v hmove hsrst
  rw [step_write_ctrl hmove]
  refine ⟨fun hstart hidle => ?_, fun hstart hbusy => ?_, fun hstart => ?_⟩
  · rw [writeCtrl_of_start_idle { s with hostMoves := rest } hsrst hstart hidle]; rfl
  · rw [writeCtrl_of_start_busy { s with hostMoves := rest } hsrst hstart hbusy]; rfl
  · rw [writeCtrl_of_no_start _ hsrst hstart]

/-! ### The two resets -/

/-- Soft reset clears every status and interrupt-enable bit, so it lowers the interrupt line (R225, R252). -/
@[simp] theorem irq_softReset (s : State) : irq (softReset s) = false := rfl

@[simp] theorem irq_powerOnReset (s : State) : irq (powerOnReset s) = false := irq_softReset s

@[simp] theorem getReg_powerOnReset (s : State) (r : Reg) : getReg (powerOnReset s) r = 0#32 := getReg_softReset s r

/-- In the LM of power-on no word is written (R22, R250). -/
@[simp] theorem readWord_nil (a : Nat) : Memory.readWord [] a = none := rfl

/-- Settles O48: a CTRL write with SRST is `softReset`, and power-on reset is `softReset` with the empty LM. -/
theorem resetsClearEverythingButLm : Obligations.ResetsClearEverythingButLm := by
  intro s rest
  constructor
  · intro v hsrst hmove
    have hstep : step s = .next (softReset { s with hostMoves := rest }) := by
      rw [step_write_ctrl hmove, writeCtrl_of_srst _ hsrst]
    exact ⟨_, hstep, getReg_softReset _, irq_softReset _, rfl⟩
  · intro hmove
    exact ⟨powerOnReset { s with hostMoves := rest }, step_powerOn hmove, getReg_powerOnReset _, irq_powerOnReset _,
      readWord_nil, rfl⟩

/-! ### A write of STATUS -/

/-- A STATUS write is performed as `writeStatus`, busy or not (R42). -/
theorem step_write_status {s : State} {rest : List HostMove} {v : Word} (h : s.hostMoves = .write 0x008 4 v :: rest) :
    step s = .next (writeStatus { s with hostMoves := rest } v) := step_write h

/-- A bit that is cleared where the mask bit is 1, written as a choice. -/
theorem and_not_eq_ite (b clear : Bool) : (b && !clear) = if clear then false else b := by
  rw [Bool.if_false_left, Bool.decide_eq_true, Bool.and_comm]

@[simp] theorem writeStatus_done (s : State) (v : Word) :
    (writeStatus s v).done = if v.getLsbD 1 then false else s.done := and_not_eq_ite _ _
@[simp] theorem writeStatus_err (s : State) (v : Word) :
    (writeStatus s v).err = if v.getLsbD 2 then false else s.err := and_not_eq_ite _ _
@[simp] theorem writeStatus_hacc (s : State) (v : Word) :
    (writeStatus s v).hacc = if v.getLsbD 3 then false else s.hacc := and_not_eq_ite _ _
@[simp] theorem writeStatus_ecode (s : State) (v : Word) :
    (writeStatus s v).ecode = if v.getLsbD 2 then 0#8 else s.ecode := rfl

/-- A STATUS write touches DONE, ERR, HACC and ECODE alone (R42). -/
theorem writeStatus_frame (s : State) (v : Word) :
    writeStatus s v = { s with
      done := (writeStatus s v).done, err := (writeStatus s v).err, hacc := (writeStatus s v).hacc,
      ecode := (writeStatus s v).ecode } := rfl

/-- Settles O49, by the frame of a STATUS write and its effect on each of the four fields. -/
theorem statusWriteRule : Obligations.StatusWriteRule := by
  intro s rest v hmove
  exact ⟨_, step_write_status hmove, writeStatus_frame _ v, writeStatus_done _ v, writeStatus_err _ v,
    writeStatus_hacc _ v, writeStatus_ecode _ v⟩

end Sys2Proof.Machine
end

section
/-! PROOF. O4: the mask and match columns of R86, which `decode` follows, agree with the three checks of R89. A row's mask is
built from its format: the opcode, the fields the command does not use (R87) and the reserved bits (R88). -/

namespace Sys2Proof

/-! ### The fixed bits of each format -/

/-- The bits a register command fixes: op, the unused ones of rb and rc, and bits [9:0] (R81). -/
def registerBits (rbFixed rcFixed : Bool) : Word :=
  0x3F#6 ++ 0#4 ++ 0#4 ++ (if rbFixed then 0xF#4 else 0#4) ++ (if rcFixed then 0xF#4 else 0#4) ++ 0x3FF#10

theorem registerBits_rb (rcFixed : Bool) : (registerBits true rcFixed).extractLsb' 14 4 = BitVec.allOnes 4 := by
  revert rcFixed; decide

theorem registerBits_rc (rbFixed : Bool) : (registerBits rbFixed true).extractLsb' 10 4 = BitVec.allOnes 4 := by
  revert rbFixed; decide

theorem registerBits_reserved (rbFixed rcFixed : Bool) :
    (registerBits rbFixed rcFixed).extractLsb' 0 10 = BitVec.allOnes 10 := by
  revert rbFixed rcFixed; decide

/-- The bits an immediate command fixes: op and bits [21:16] (R82). -/
def immediateBits : Word := 0x3F#6 ++ 0#4 ++ 0x3F#6 ++ 0#16

/-- The bits a command without operands fixes: all of them (R83). -/
def bareBits : Word := BitVec.allOnes 32

/-- The bits the commands of an opcode fix. -/
def fixedBits (op : BitVec 6) : Word :=
  match formatOf op with
  | some .register => registerBits (rbUnused op) (rcUnused op)
  | some .immediate => immediateBits
  | some .bare => bareBits
  | none => 0#32

/-- The mask column of R86 has the fixed bits of the row's opcode, and its match column the opcode alone. -/
theorem row_eq_fixedBits :
    ∀ r ∈ opcodeRows, r.mask = fixedBits (opField r.pattern) ∧ r.pattern = formatN (opField r.pattern) := by decide

/-- The opcodes with a format are those of the rows. -/
theorem formatOf_isSome_iff (op : BitVec 6) :
    (formatOf op).isSome = true ↔ ∃ r ∈ opcodeRows, op = opField r.pattern := by
  revert op; decide

theorem opAssigned_iff (w : Word) : opAssigned w = true ↔ ∃ r ∈ opcodeRows, opField w = opField r.pattern :=
  formatOf_isSome_iff (opField w)

/-! ### A word whose fixed bits are its opcode alone -/

/-- Below the opcode, format N's word is 0. -/
theorem extractLsb'_formatN (op : BitVec 6) {a n : Nat} (h : a + n ≤ 26) : (formatN op).extractLsb' a n = 0#n := by
  rw [formatN, BitVec.extractLsb'_append_eq_of_add_le h, BitVec.extractLsb'_zero]

/-- A field that is fixed is 0 in a word whose fixed bits are its opcode alone. -/
theorem field_eq_zero_of_and {w m : Word} {op : BitVec 6} {a n : Nat} (h : w &&& m = formatN op) (hle : a + n ≤ 26)
    (hm : m.extractLsb' a n = BitVec.allOnes n) : w.extractLsb' a n = 0#n :=
  (field_of_match a n h hm).trans (extractLsb'_formatN op hle)

theorem and_opcodeMask (op : BitVec 6) : op &&& 0x3F#6 = op := BitVec.and_allOnes

theorem formatR_zero (op : BitVec 6) : formatR op 0#4 0#4 0#4 0#4 = formatN op := by
  revert op; decide

theorem formatI_zero (op : BitVec 6) : formatI op 0#4 0#16 = formatN op := by
  revert op; decide

/-- A field under its mask is 0 when it is 0 wherever it is fixed. -/
theorem and_ite_eq_zero {r : Reg} {fixed : Bool} (h : fixed = true → r = 0#4) :
    r &&& (if fixed then 0xF#4 else 0#4) = 0#4 := by
  cases fixed with
  | false => exact BitVec.and_zero
  | true => rw [h rfl, BitVec.zero_and]

theorem and_registerBits_iff (w : Word) (rbFixed rcFixed : Bool) :
    w &&& registerBits rbFixed rcFixed = formatN (opField w) ↔
      ((rbFixed = true → rbField w = 0#4) ∧ (rcFixed = true → rcField w = 0#4)) ∧ w.extractLsb' 0 10 = 0#10 := by
  constructor
  · intro h
    refine ⟨⟨?_, ?_⟩, field_eq_zero_of_and h (by decide) (registerBits_reserved _ _)⟩
    · rintro rfl
      exact field_eq_zero_of_and h (by decide) (registerBits_rb _)
    · rintro rfl
      exact field_eq_zero_of_and h (by decide) (registerBits_rc _)
  · rintro ⟨⟨hrb, hrc⟩, hzero⟩
    calc w &&& registerBits rbFixed rcFixed
        = formatR (opField w) (rdField w) (raField w) (rbField w) (rcField w) &&& registerBits rbFixed rcFixed := by
          rw [formatR_of_fields hzero]
      _ = formatR (opField w &&& 0x3F#6) (rdField w &&& 0#4) (raField w &&& 0#4) 0#4 0#4 := by
          rw [registerBits, formatR_and, and_ite_eq_zero hrb, and_ite_eq_zero hrc]
      _ = formatN (opField w) := by
          rw [BitVec.and_zero, BitVec.and_zero, and_opcodeMask, formatR_zero]

theorem and_immediateBits_iff (w : Word) :
    w &&& immediateBits = formatN (opField w) ↔ w.extractLsb' 16 6 = 0#6 := by
  constructor
  · intro h
    exact field_eq_zero_of_and h (by decide) (by decide)
  · intro hzero
    calc w &&& immediateBits
        = formatI (opField w) (rdField w) (immField w) &&& immediateBits := by rw [formatI_of_fields hzero]
      _ = formatI (opField w &&& 0x3F#6) (rdField w &&& 0#4) (immField w &&& 0#16) := formatI_and ..
      _ = formatN (opField w) := by rw [BitVec.and_zero, BitVec.and_zero, and_opcodeMask, formatI_zero]

theorem and_bareBits_iff (w : Word) : w &&& bareBits = formatN (opField w) ↔ w.extractLsb' 0 26 = 0#26 := by
  rw [bareBits, BitVec.and_allOnes]
  constructor
  · intro h
    rw [h, extractLsb'_formatN _ (by decide)]
  · intro hzero
    exact (formatN_of_fields hzero).symm

/-! ### The second and the third check of R89, by the format of the opcode -/

theorem checks_register {w : Word} (hf : formatOf (opField w) = some .register) :
    unusedFieldsZero w = true ∧ reservedBitsZero w = true ↔
      ((rbUnused (opField w) = true → rbField w = 0#4) ∧ (rcUnused (opField w) = true → rcField w = 0#4)) ∧
        w.extractLsb' 0 10 = 0#10 := by
  simp only [unusedFieldsZero, reservedBitsZero, hf, forall_const, decide_eq_true_eq, rbField, rcField]

theorem checks_immediate {w : Word} (hf : formatOf (opField w) = some .immediate) :
    unusedFieldsZero w = true ∧ reservedBitsZero w = true ↔ w.extractLsb' 16 6 = 0#6 := by
  simp [unusedFieldsZero, reservedBitsZero, hf]

theorem checks_bare {w : Word} (hf : formatOf (opField w) = some .bare) :
    unusedFieldsZero w = true ∧ reservedBitsZero w = true ↔ w.extractLsb' 0 26 = 0#26 := by
  simp [unusedFieldsZero, reservedBitsZero, hf]

/-- The fixed bits of an assigned opcode's word are the opcode alone exactly when the word passes the second and the third
check of R89. -/
theorem and_fixedBits_iff {w : Word} (h : opAssigned w = true) :
    w &&& fixedBits (opField w) = formatN (opField w) ↔ unusedFieldsZero w = true ∧ reservedBitsZero w = true := by
  obtain ⟨f, hf⟩ := Option.isSome_iff_exists.mp h
  cases f with
  | register => rw [checks_register hf, fixedBits, hf]; exact and_registerBits_iff w _ _
  | immediate => rw [checks_immediate hf, fixedBits, hf]; exact and_immediateBits_iff w
  | bare => rw [checks_bare hf, fixedBits, hf]; exact and_bareBits_iff w

/-- A word with a row's opcode matches the row exactly when it passes the second and the third check of R89. -/
theorem matchesWord_iff {r : OpcodeRow} {w : Word} (hr : r ∈ opcodeRows) (hop : opField w = opField r.pattern) :
    r.matchesWord w = true ↔ unusedFieldsZero w = true ∧ reservedBitsZero w = true := by
  obtain ⟨hmask, hpattern⟩ := row_eq_fixedBits r hr
  rw [← hop] at hmask hpattern
  rw [OpcodeRow.matchesWord, beq_iff_eq, hmask, hpattern]
  exact and_fixedBits_iff ((opAssigned_iff w).mpr ⟨r, hr, hop⟩)

/-- The words that decode are those a row matches. -/
theorem decode_ok_iff (w : Word) : (∃ i, decode w = .ok i) ↔ ∃ r ∈ opcodeRows, r.matchesWord w = true := by
  constructor
  · rintro ⟨i, hi⟩
    obtain ⟨r, hr, hm, -⟩ := row_of_decode hi
    exact ⟨r, hr, beq_iff_eq.mpr hm⟩
  · rintro ⟨r, hr, hm⟩
    exact ⟨_, decode_of_match hr hm⟩

/-- Settles O4: a word has an assigned opcode when it has a row's, and then the row's mask and match make the two other
checks. -/
theorem legalWordsAreWellFormed : Obligations.LegalWordsAreWellFormed := by
  intro w
  rw [decode_ok_iff, opAssigned_iff]
  constructor
  · rintro ⟨r, hr, hm⟩
    have hop := opField_of_match hr hm
    exact ⟨⟨r, hr, hop⟩, (matchesWord_iff hr hop).mp hm⟩
  · rintro ⟨⟨r, hr, hop⟩, hchecks⟩
    exact ⟨r, hr, (matchesWord_iff hr hop).mpr hchecks⟩

end Sys2Proof
end

section
/-! PROOF. O14 to O18: the sequencing commands (R105 to R109). NOP and HALT move no register; LIL, LIH and MOV write one, and
what such a command leaves is said once. -/

namespace Sys2Proof.Machine

/-! ### The state each command commits -/

theorem exec_nop (s : State) : exec .nop s = .next (advance s) := rfl

theorem exec_halt (s : State) : exec .halt s = .next (advance (haltStatus s)) := rfl

theorem exec_lil (rd : Reg) (imm : Half) (s : State) :
    exec (.lil rd imm) s = .next (advance (setReg s rd ((getReg s rd).extractLsb' 16 16 ++ imm))) := rfl

theorem exec_lih (rd : Reg) (imm : Half) (s : State) :
    exec (.lih rd imm) s = .next (advance (setReg s rd (imm ++ (getReg s rd).extractLsb' 0 16))) := rfl

theorem exec_mov (rd ra : Reg) (s : State) :
    exec (.mov rd ra) s = .next (advance (setReg s rd (getReg s ra))) := rfl

/-! ### A commit that writes one register -/

theorem commits_advance_setReg (s : State) (r : Reg) (v : Word) : Commits s (advance (setReg s r v)) := rfl

theorem regsKept_advance_setReg (s : State) (r : Reg) (v : Word) : RegsKept s (advance (setReg s r v)) [r] :=
  fun _ hne => getReg_setReg_ne s v (List.ne_of_not_mem_cons hne)

/-- A command that commits with one register written leaves the value there, and LM and every other register as before. -/
theorem commit_of_setReg {i : Instr} {s : State} {r : Reg} {v : Word}
    (h : exec i s = .next (advance (setReg s r v))) :
    ∃ t, exec i s = .next t ∧ Commits s t ∧ t.lm = s.lm ∧ RegsKept s t [r] ∧ getReg t r = v :=
  ⟨_, h, commits_advance_setReg s r v, rfl, regsKept_advance_setReg s r v, getReg_setReg_same s r v⟩

/-! ### The rules -/

/-- DONE with IE_DONE raises the interrupt line (R225). -/
theorem irq_of_done {s : State} (hdone : s.done = true) (hie : s.ieDone = true) : irq s = true := by
  rw [irq, hdone, hie, Bool.and_self, Bool.true_or]

/-- Settles O14: NOP commits the state it finds. -/
theorem nopRule : Obligations.NopRule :=
  ⟨by decide, exec_nop⟩

/-- Settles O15: HALT commits its status update, after which DONE is 1; START leaves PC alone. -/
theorem haltRule : Obligations.HaltRule :=
  ⟨by decide, fun s => ⟨exec_halt s, fun hie => irq_of_done rfl hie, start_pc _⟩⟩

/-- Settles O16: the register written holds its own high half over imm16. -/
theorem lilRule : Obligations.LilRule := by
  intro rd imm
  refine ⟨(Laws.RowOfWord.lil rd imm).2, fun s => ?_⟩
  obtain ⟨t, hexec, hcommit, hlm, hregs, hrd⟩ := commit_of_setReg (exec_lil rd imm s)
  refine ⟨t, hexec, hcommit, hlm, hregs, ?_, ?_⟩
  · rw [hrd, extractLow_append]
  · rw [hrd, extractHigh_append]

/-- Settles O17: the register written holds imm16 over its own low half. -/
theorem lihRule : Obligations.LihRule := by
  intro rd imm
  refine ⟨(Laws.RowOfWord.lih rd imm).2, fun s => ?_⟩
  obtain ⟨t, hexec, hcommit, hlm, hregs, hrd⟩ := commit_of_setReg (exec_lih rd imm s)
  refine ⟨t, hexec, hcommit, hlm, hregs, ?_, ?_⟩
  · rw [hrd, extractHigh_append]
  · rw [hrd, extractLow_append]

/-- Settles O18: the register written holds x[ra] as it was before, so the case rd = ra needs no split. -/
theorem movRule : Obligations.MovRule :=
  fun rd ra => ⟨(Laws.RowOfWord.mov rd ra).2, fun s => commit_of_setReg (exec_mov rd ra s)⟩

end Sys2Proof.Machine
end

section
/-! PROOF. O20, O21: the multiplier commands (R121, R126). A failed check stops a rule with its fault; a commit writes one window
of LM and one register, and what that leaves is said once for the canonical and once for the raw-width write. -/

namespace Sys2Proof.Machine

/-! ### Checks in sequence -/

/-- A check goes on when its condition holds, and stops the rule with its fault when it fails (R103). -/
theorem need_bind {α : Type} (p : Prop) [Decidable p] (c : FaultCode) (f : Unit → Except Stop α) :
    (need p c >>= f) = if p then f () else .error (.trap c) := by
  unfold need
  split <;> rfl

theorem checkBounds_bind {α : Type} (s : State) (d : Word) (f : Unit → Except Stop α) :
    (checkBounds s d >>= f) = if InBounds s d then f () else .error (.trap .bounds) :=
  need_bind (InBounds s d) .bounds f

/-- A rule goes on with the value it has read. -/
theorem bind_of_ok {α β : Type} {x : Except Stop α} {a : α} (h : x = .ok a) (f : α → Except Stop β) :
    (x >>= f) = f a := by
  rw [h]
  rfl

/-! ### The end of a command whose rule's answer is known -/

/-- Fault entry puts the command word into EINFO, for every fault but FETCH (R216). -/
theorem takeFault_eq_faulted {c : FaultCode} (hc : c ≠ .fetch) (w : Word) (s : State) :
    takeFault c w s = faulted s c.ecode w := by
  rw [takeFault, if_neg hc, faulted]

theorem finish_of_trap {i : Instr} {s : State} {body : Except Stop State} {c : FaultCode}
    (h : body = .error (.trap c)) (hc : c ≠ .fetch) : finish i s body = .next (faulted s c.ecode (encode i)) :=
  finish_eq_next.mpr (.inr ⟨c, h, (takeFault_eq_faulted hc _ s).symm⟩)

theorem finish_of_ok {i : Instr} {s u : State} {body : Except Stop State} (h : body = .ok u) :
    finish i s body = .next (advance u) :=
  finish_eq_next.mpr (.inl ⟨u, h, rfl⟩)

/-! ### A commit that writes one window and one register -/

theorem commits_advance_setReg_setLm (s : State) (m : Memory) (r : Reg) (v : Word) :
    Commits s (advance (setReg (setLm s m) r v)) := rfl

theorem regsKept_advance_setReg_setLm (s : State) (m : Memory) (r : Reg) (v : Word) :
    RegsKept s (advance (setReg (setLm s m) r v)) [r] :=
  regsKept_advance_setReg (setLm s m) r v

/-- The descriptor a canonical write returns names the result (R69). -/
theorem isResultOf_canonDesc {d : Word} {v : Nat} (hv : limbs v ≤ len d) : IsResultOf (canonDesc d v) d v :=
  ⟨base_canonDesc d v, len_canonDesc hv⟩

/-- A command that commits with v written canonically through d, its descriptor in r, leaves v in the window and nothing else
changed (R69). -/
theorem commit_of_writeCanon {i : Instr} {s : State} {d : Word} {v : Nat} {r : Reg} (hv : limbs v ≤ len d)
    (h : exec i s = .next (advance (setReg (writeCanon s d v) r (canonDesc d v)))) :
    ∃ t, exec i s = .next t ∧ Commits s t ∧ RegsKept s t [r] ∧ LmKeptOutside s t d ∧ HoldsCanon t d v ∧
      IsResultOf (getReg t r) d v := by
  refine ⟨_, h, commits_advance_setReg_setLm s _ r _, regsKept_advance_setReg_setLm s _ r _, ?kept, ?holds, ?result⟩
  case kept => exact fun k hk => readByte_writeCanonMem_outside s.lm hv hk
  case holds =>
    exact ⟨memRead_writeCanonMem s.lm d v, fun a hlo hhi => readWord_writeCanonMem_rest s.lm hlo hhi⟩
  case result =>
    rw [getReg_advance, getReg_setReg_same]
    exact isResultOf_canonDesc hv

/-- A command that commits with v written over d's window at its own width, and w in r, leaves v's low limbs in the window, w in
r, and nothing else changed (R70). -/
theorem commit_of_writeRaw {i : Instr} {s : State} {d : Word} {v : Nat} {r : Reg} {w : Word}
    (h : exec i s = .next (advance (setReg (writeRaw s d v) r w))) :
    ∃ t, exec i s = .next t ∧ Commits s t ∧ RegsKept s t [r] ∧ LmKeptOutside s t d ∧
      memRead t.lm (base d) (len d) = .ok (v % 2 ^ (32 * len d)) ∧ getReg t r = w :=
  ⟨_, h, commits_advance_setReg_setLm s _ r w, regsKept_advance_setReg_setLm s _ r w,
    fun _ hk => readByte_memWrite_outside s.lm v hk, memRead_memWrite s.lm (base d) (len d) v,
    getReg_setReg_same (writeRaw s d v) r w⟩

/-! ### MUL -/

theorem exec_mul (rd ra rb : Reg) (s : State) :
    exec (.mul rd ra rb) s = finish (.mul rd ra rb) s (mulBody rd ra rb s) := rfl

theorem mulBody_bounds {rd ra rb : Reg} {s : State}
    (h : ¬ (InBounds s (getReg s ra) ∧ InBounds s (getReg s rb) ∧ InBounds s (getReg s rd))) :
    mulBody rd ra rb s = .error (.trap .bounds) := by
  simp only [mulBody, checkBounds_bind]
  split_ifs with hX hY hZ
  · exact absurd ⟨hX, hY, hZ⟩ h
  all_goals rfl

theorem mulBody_capacity {rd ra rb : Reg} {s : State} {a b : Nat} (hX : InBounds s (getReg s ra))
    (hY : InBounds s (getReg s rb)) (hZ : InBounds s (getReg s rd)) (ha : val s (getReg s ra) = .ok a)
    (hb : val s (getReg s rb) = .ok b) (hcap : len (getReg s rd) < limbs a + limbs b) :
    mulBody rd ra rb s = .error (.trap .capacity) := by
  simp only [mulBody, checkBounds_bind, need_bind, bind_of_ok ha, bind_of_ok hb, if_pos hX, if_pos hY, if_pos hZ,
    if_neg (not_le.mpr hcap)]

/-- Settles O20: the first check of MUL's rule that fails names the fault; where all pass, the product fits its window, since it
needs no more limbs than the capacity check asks for. -/
theorem mulRule : Obligations.MulRule := by
  refine fun rd ra rb => ⟨(Laws.RowOfWord.mul rd ra rb).2, fun s => ⟨fun hout => ?bounds, fun hX hY hZ a b ha hb =>
    ⟨fun hcap => ?capacity, fun hfit => ?commit⟩⟩⟩
  case bounds => exact finish_of_trap (mulBody_bounds hout) (by decide)
  case capacity => exact finish_of_trap (mulBody_capacity hX hY hZ ha hb hcap) (by decide)
  case commit =>
    have hbody := mulBody_ok.mpr ⟨hX, hY, hZ, a, b, ha, hb, hfit, rfl⟩
    have hproduct : limbs (a * b) ≤ len (getReg s rd) := (limbs_mul_le a b).trans hfit
    exact commit_of_writeCanon hproduct ((exec_mul rd ra rb s).trans (finish_of_ok hbody))

/-! ### MULADD1 -/

theorem exec_muladd1 (rd ra rb rc : Reg) (s : State) :
    exec (.muladd1 rd ra rb rc) s = finish (.muladd1 rd ra rb rc) s (muladd1Body rd ra rb rc s) := rfl

theorem muladd1Body_bounds {rd ra rb rc : Reg} {s : State} (h : ¬ InBounds s (getReg s ra)) :
    muladd1Body rd ra rb rc s = .error (.trap .bounds) := by
  simp only [muladd1Body, checkBounds_bind, if_neg h]

/-- The carry-out of a multiply and add by one limb is one limb (R127). -/
theorem mul_add_div_lt {d m c B W : Nat} (hd : d < B) (hm : m < W) (hc : c < W) : (d * m + c) / B < W := by
  rw [Nat.div_lt_iff_lt_mul (Nat.zero_lt_of_lt hd)]
  calc d * m + c < d * W + W := Nat.add_lt_add_of_le_of_lt (Nat.mul_le_mul_left d hm.le) hc
    _ = (d + 1) * W := (Nat.succ_mul d W).symm
    _ ≤ B * W := Nat.mul_le_mul_right W hd
    _ = W * B := Nat.mul_comm B W

/-- The 32-bit register that takes MULADD1's carry-out loses no bit of it (R126). -/
theorem toNat_carry {s : State} {D mult addend : Word} {d : Nat} (hd : val s D = .ok d) :
    (BitVec.ofNat 32 ((d * mult.toNat + addend.toNat) >>> (32 * len D))).toNat =
      (d * mult.toNat + addend.toNat) / 2 ^ (32 * len D) := by
  rw [BitVec.toNat_ofNat, Nat.shiftRight_eq_div_pow]
  exact Nat.mod_eq_of_lt (mul_add_div_lt (val_lt hd) mult.isLt addend.isLt)

/-- Settles O21: the bounds of D are the only check of MULADD1's rule; where it passes, the window takes the low limbs and the
carry-out fits x[rd]. -/
theorem muladd1Rule : Obligations.Muladd1Rule := by
  refine fun rd ra rb rc => ⟨(Laws.RowOfWord.muladd1 rd ra rb rc).2, fun s => ⟨fun hout => ?bounds, fun hD d hd => ?commit⟩⟩
  case bounds => exact finish_of_trap (muladd1Body_bounds hout) (by decide)
  case commit =>
    have hbody := (muladd1Body_ok (rd := rd) (rb := rb) (rc := rc)).mpr ⟨hD, d, hd, rfl⟩
    obtain ⟨t, hexec, hcommit, hregs, houtside, hwindow, hcarry⟩ :=
      commit_of_writeRaw ((exec_muladd1 rd ra rb rc s).trans (finish_of_ok hbody))
    refine ⟨t, hexec, hcommit, hregs, houtside, ?_, ?_⟩
    · rw [hwindow, Nat.mod_mod]
    · rw [hcarry, toNat_carry hd]

end Sys2Proof.Machine
end

section
/-! PROOF. O24, O25: the divider commands (R142, R150). The capacities DIVMOD asks for hold every quotient and remainder (R143),
and windows that share no word can be written one after the other, each keeping its result. -/

namespace Sys2Proof.Machine

/-! ### Two canonical writes through windows that share no word -/

theorem holdsCanon_writeCanon (s : State) (d : Word) (v : Nat) : HoldsCanon (writeCanon s d v) d v :=
  ⟨memRead_writeCanonMem s.lm d v, fun _ hlo hhi => readWord_writeCanonMem_rest s.lm hlo hhi⟩

theorem outside_of_not_overlap {d e : Word} {a : Nat} (h : ¬ Overlap d e) (hlo : base d ≤ a) (hhi : a < base d + len d) :
    a < base e ∨ base e + len e ≤ a := by
  by_contra hin
  exact h ((overlap_iff d e).mpr ⟨a, hlo, hhi, by omega, by omega⟩)

/-- A canonical write leaves the result in a window that shares no word with its own. -/
theorem HoldsCanon.writeCanon_apart {s : State} {d e : Word} {v w : Nat} (h : HoldsCanon s d v) (hv : limbs v ≤ len d)
    (hw : limbs w ≤ len e) (hapart : ¬ Overlap d e) : HoldsCanon (writeCanon s e w) d v := by
  obtain ⟨hvalue, hrest⟩ := h
  have hword : ∀ a, base d ≤ a → a < base d + len d →
      Memory.readWord (writeCanonMem s.lm e w) a = Memory.readWord s.lm a := fun a hlo hhi =>
    readWord_writeCanonMem_outside s.lm hw (outside_of_not_overlap hapart hlo hhi)
  constructor
  · exact (memRead_congr fun a hlo hhi => hword a hlo (by omega)).trans hvalue
  · intro a hlo hhi
    exact (hword a (by omega) hhi).trans (hrest a hlo hhi)

theorem commits_advance_setReg_setReg_setLm (s : State) (m : Memory) (r r' : Reg) (v v' : Word) :
    Commits s (advance (setReg (setReg (setLm s m) r v) r' v')) := rfl

theorem regsKept_advance_setReg_setReg_setLm (s : State) (m : Memory) (r r' : Reg) (v v' : Word) :
    RegsKept s (advance (setReg (setReg (setLm s m) r v) r' v')) [r, r'] := by
  intro k hk
  obtain ⟨hr, hr'⟩ : k ≠ r ∧ k ≠ r' := by simpa using hk
  rw [getReg_advance, getReg_setReg_ne _ _ hr', getReg_setReg_ne _ _ hr, getReg_setLm]

/-- A command that commits with v written canonically through d and then w through e, and their descriptors in r and then r',
leaves both results in their windows when these share no word, and nothing else changed (R69). When r = r' the second descriptor
stays. -/
theorem commit_of_writeCanon_writeCanon {i : Instr} {s : State} {d e : Word} {v w : Nat} {r r' : Reg} (hv : limbs v ≤ len d)
    (hw : limbs w ≤ len e) (hapart : ¬ Overlap d e)
    (h : exec i s = .next
      (advance (setReg (setReg (writeCanon (writeCanon s d v) e w) r (canonDesc d v)) r' (canonDesc e w)))) :
    ∃ t, exec i s = .next t ∧ Commits s t ∧ RegsKept s t [r, r'] ∧
      (∀ k, (k < 4 * base d ∨ 4 * (base d + len d) ≤ k) → (k < 4 * base e ∨ 4 * (base e + len e) ≤ k) →
        Memory.readByte t.lm k = Memory.readByte s.lm k) ∧
      HoldsCanon t d v ∧ HoldsCanon t e w ∧
      (r ≠ r' → IsResultOf (getReg t r) d v) ∧ IsResultOf (getReg t r') e w := by
  refine ⟨_, h, commits_advance_setReg_setReg_setLm s _ r r' _ _, regsKept_advance_setReg_setReg_setLm s _ r r' _ _, ?kept,
    (holdsCanon_writeCanon s d v).writeCanon_apart hv hw hapart, holdsCanon_writeCanon _ e w, ?first, ?second⟩
  case kept =>
    intro k hd he
    exact (readByte_writeCanonMem_outside _ hw he).trans (readByte_writeCanonMem_outside s.lm hv hd)
  case first =>
    intro hne
    rw [getReg_advance, getReg_setReg_ne _ _ hne, getReg_setReg_same]
    exact isResultOf_canonDesc hv
  case second =>
    rw [getReg_advance, getReg_setReg_same]
    exact isResultOf_canonDesc hw

/-! ### DIVMOD -/

theorem exec_divmod (rd ra rb rc : Reg) (s : State) :
    exec (.divmod rd ra rb rc) s = finish (.divmod rd ra rb rc) s (divmodBody rd ra rb rc s) := rfl

/-- The capacity DIVMOD asks of Q holds every quotient (R143). -/
theorem limbs_div_le_quotientNeed {u v : Nat} (hv : v ≠ 0) : limbs (u / v) ≤ quotientNeed (limbs u) (limbs v) := by
  rw [quotientNeed]
  split_ifs with hle
  · exact limbs_div_le hv hle
  · rw [div_eq_zero_of_limbs_lt (not_le.mp hle), limbs_zero]

theorem divmodBody_bounds {rd ra rb rc : Reg} {s : State}
    (h : ¬ (InBounds s (getReg s ra) ∧ InBounds s (getReg s rb) ∧ InBounds s (getReg s rd) ∧ InBounds s (getReg s rc))) :
    divmodBody rd ra rb rc s = .error (.trap .bounds) := by
  simp only [divmodBody, checkBounds_bind]
  split_ifs with hX hY hQ hR
  · exact absurd ⟨hX, hY, hQ, hR⟩ h
  all_goals rfl

section InBounds

variable {rd ra rb rc : Reg} {s : State} (hX : InBounds s (getReg s ra)) (hY : InBounds s (getReg s rb))
  (hQ : InBounds s (getReg s rd)) (hR : InBounds s (getReg s rc))
include hX hY hQ hR

theorem divmodBody_overlap (h : Overlap (getReg s rd) (getReg s rc)) :
    divmodBody rd ra rb rc s = .error (.trap .overlap) := by
  simp only [divmodBody, checkBounds_bind, need_bind, if_pos hX, if_pos hY, if_pos hQ, if_pos hR, if_neg (not_not.mpr h)]

theorem divmodBody_divzero {u : Nat} (hapart : ¬ Overlap (getReg s rd) (getReg s rc)) (hu : val s (getReg s ra) = .ok u)
    (hv : val s (getReg s rb) = .ok 0) : divmodBody rd ra rb rc s = .error (.trap .divzero) := by
  simp only [divmodBody, checkBounds_bind, need_bind, bind_of_ok hu, bind_of_ok hv, if_pos hX, if_pos hY, if_pos hQ, if_pos hR,
    if_pos hapart, if_neg (not_not.mpr limbs_zero)]

theorem divmodBody_capacity {u v : Nat} (hapart : ¬ Overlap (getReg s rd) (getReg s rc)) (hu : val s (getReg s ra) = .ok u)
    (hv : val s (getReg s rb) = .ok v) (hv0 : limbs v ≠ 0)
    (hcap : ¬ (quotientNeed (limbs u) (limbs v) ≤ len (getReg s rd) ∧
      remainderNeed (limbs u) (limbs v) ≤ len (getReg s rc))) :
    divmodBody rd ra rb rc s = .error (.trap .capacity) := by
  simp only [divmodBody, checkBounds_bind, need_bind, bind_of_ok hu, bind_of_ok hv, if_pos hX, if_pos hY, if_pos hQ, if_pos hR,
    if_pos hapart, if_pos hv0, if_neg hcap]

end InBounds

/-- Settles O24: the first check of DIVMOD's rule that fails names the fault; where all pass, quotient and remainder fit their
windows, which share no word, so that writing R's leaves Q's. -/
theorem divmodRule : Obligations.DivmodRule := by
  refine fun rd ra rb rc => ⟨(Laws.RowOfWord.divmod rd ra rb rc).2, fun s => ⟨fun hout => ?bounds, fun hX hY hQ hR =>
    ⟨fun hshare => ?overlap, fun hnoshare u v hu hv => ?apart⟩⟩⟩
  case bounds => exact finish_of_trap (divmodBody_bounds hout) (by decide)
  case overlap => exact finish_of_trap (divmodBody_overlap hX hY hQ hR ((overlap_iff _ _).mpr hshare)) (by decide)
  case apart =>
    have hapart : ¬ Overlap (getReg s rd) (getReg s rc) := (overlap_iff _ _).not.mpr hnoshare
    refine ⟨fun hzero => ?divzero, fun hv0 hshort => ?capacity, fun hv0 hq hr => ?commit⟩
    case divzero => exact finish_of_trap (divmodBody_divzero hX hY hQ hR hapart hu (hzero ▸ hv)) (by decide)
    case capacity =>
      have hcap := not_and_or.mpr (hshort.imp not_le.mpr not_le.mpr)
      exact finish_of_trap (divmodBody_capacity hX hY hQ hR hapart hu hv (limbs_eq_zero.not.mpr hv0) hcap) (by decide)
    case commit =>
      have hbody := divmodBody_ok.mpr ⟨hX, hY, hQ, hR, hapart, u, v, hu, hv, limbs_eq_zero.not.mpr hv0, hq, hr, rfl⟩
      have hquotient : limbs (u / v) ≤ len (getReg s rd) := (limbs_div_le_quotientNeed hv0).trans hq
      have hremainder : limbs (u % v) ≤ len (getReg s rc) := (limbs_mod_le hv0).trans hr
      exact commit_of_writeCanon_writeCanon hquotient hremainder hapart ((exec_divmod rd ra rb rc s).trans (finish_of_ok hbody))

/-! ### DIVREM1 -/

theorem exec_divrem1 (rd ra rb : Reg) (s : State) :
    exec (.divrem1 rd ra rb) s = finish (.divrem1 rd ra rb) s (divrem1Body rd ra rb s) := rfl

theorem divrem1Body_bounds {rd ra rb : Reg} {s : State} (h : ¬ InBounds s (getReg s ra)) :
    divrem1Body rd ra rb s = .error (.trap .bounds) := by
  simp only [divrem1Body, checkBounds_bind, if_neg h]

/-- DIVZERO stands before the read of D, so it is raised whatever D holds (R150). -/
theorem divrem1Body_divzero {rd ra rb : Reg} {s : State} (hD : InBounds s (getReg s ra)) (hzero : (getReg s rb).toNat = 0) :
    divrem1Body rd ra rb s = .error (.trap .divzero) := by
  simp only [divrem1Body, checkBounds_bind, need_bind, if_pos hD, if_neg (not_not.mpr hzero)]

/-- The quotient of D's value fits D's window (R150). -/
theorem div_mod_window {s : State} {D : Word} {u : Nat} (hu : val s D = .ok u) (v : Nat) :
    u / v % 2 ^ (32 * len D) = u / v :=
  Nat.mod_eq_of_lt ((Nat.div_le_self u v).trans_lt (val_lt hu))

/-- A remainder by a register's value fits a register (R150). -/
theorem toNat_remainder (u : Nat) {divisor : Word} (h : divisor.toNat ≠ 0) :
    (BitVec.ofNat 32 (u % divisor.toNat)).toNat = u % divisor.toNat := by
  rw [BitVec.toNat_ofNat]
  exact Nat.mod_eq_of_lt ((Nat.mod_lt u (Nat.pos_of_ne_zero h)).trans divisor.isLt)

/-- Settles O25: the two checks of DIVREM1's rule name its faults; where both pass, the quotient is at most D's value and the
remainder below the divisor, so neither write loses a bit. -/
theorem divrem1Rule : Obligations.Divrem1Rule := by
  refine fun rd ra rb => ⟨(Laws.RowOfWord.divrem1 rd ra rb).2, fun s => ⟨fun hout => ?bounds, fun hD =>
    ⟨fun hzero => ?divzero, fun hv0 u hu => ?commit⟩⟩⟩
  case bounds => exact finish_of_trap (divrem1Body_bounds hout) (by decide)
  case divzero => exact finish_of_trap (divrem1Body_divzero hD hzero) (by decide)
  case commit =>
    have hbody := (divrem1Body_ok (rd := rd)).mpr ⟨hD, hv0, u, hu, rfl⟩
    obtain ⟨t, hexec, hcommit, hregs, houtside, hwindow, hrd⟩ :=
      commit_of_writeRaw ((exec_divrem1 rd ra rb s).trans (finish_of_ok hbody))
    refine ⟨t, hexec, hcommit, hregs, houtside, ?quotient, ?remainder⟩
    case quotient => rw [hwindow, div_mod_window hu]
    case remainder => rw [hrd, toNat_remainder u hv0]

end Sys2Proof.Machine
end

section
/-! PROOF. O27 to O32: the shifter and leading-zero counter commands (R171 to R184). NORM, SHL, SHR and SAR begin with the bounds
of the same two descriptors; both counters are a width less a bit length, which has one characterisation (R170). -/

namespace Sys2Proof.Machine

/-! ### The bounds of a source and a destination -/

/-- Two bounds checks in a row stop a rule with BOUNDS when either descriptor passes LM. -/
theorem checkBounds_pair_of_outside {α : Type} {s : State} {X Z : Word} (f : Unit → Except Stop α)
    (h : ¬ (InBounds s X ∧ InBounds s Z)) :
    (checkBounds s X >>= fun _ => checkBounds s Z >>= f) = .error (.trap .bounds) := by
  simp only [checkBounds_bind]
  split_ifs with hX hZ
  · exact absurd ⟨hX, hZ⟩ h
  all_goals rfl

/-! ### NORM -/

theorem exec_norm (rd ra rb : Reg) (s : State) :
    exec (.norm rd ra rb) s = finish (.norm rd ra rb) s (normBody rd ra rb s) := rfl

theorem normBody_bounds {rd ra rb : Reg} {s : State} (h : ¬ (InBounds s (getReg s ra) ∧ InBounds s (getReg s rd))) :
    normBody rd ra rb s = .error (.trap .bounds) :=
  checkBounds_pair_of_outside _ h

section InBounds

variable {rd ra rb : Reg} {s : State} (hS : InBounds s (getReg s ra)) (hT : InBounds s (getReg s rd))
include hS hT

theorem normBody_outofrange (h : 32 ≤ (getReg s rb).toNat) : normBody rd ra rb s = .error (.trap .outofrange) := by
  simp only [normBody, checkBounds_bind, need_bind, if_pos hS, if_pos hT, if_neg (not_lt.mpr h)]

variable (hk : (getReg s rb).toNat < 32)
include hk

theorem normBody_badlen (h : ¬ (len (getReg s rd) = len (getReg s ra) ∨ len (getReg s rd) = len (getReg s ra) + 1)) :
    normBody rd ra rb s = .error (.trap .badlen) := by
  simp only [normBody, checkBounds_bind, need_bind, if_pos hS, if_pos hT, if_pos hk, if_neg h]

theorem normBody_invalidop {m : Nat}
    (hlen : len (getReg s rd) = len (getReg s ra) ∨ len (getReg s rd) = len (getReg s ra) + 1)
    (hm : val s (getReg s ra) = .ok m) (h : 2 ^ (32 * len (getReg s rd)) ≤ m * 2 ^ (getReg s rb).toNat) :
    normBody rd ra rb s = .error (.trap .invalidop) := by
  have hover := not_lt.mpr ((shiftLeft_eq m (getReg s rb).toNat).symm ▸ h)
  simp only [normBody, checkBounds_bind, need_bind, bind_of_ok hm, if_pos hS, if_pos hT, if_pos hk, if_pos hlen, if_neg hover]

end InBounds

/-- A shift by less than one limb spills into at most one limb more (R175). -/
theorem mul_two_pow_lt_of_limb_more {m n k : Nat} (hm : m < 2 ^ (32 * n)) (hk : k < 32) :
    m * 2 ^ k < 2 ^ (32 * (n + 1)) := by
  rw [Nat.mul_succ, pow_add]
  exact Nat.mul_lt_mul'' hm (Nat.pow_lt_pow_right one_lt_two hk)

/-- A command that commits with v, which fits, written over d's window at its own width leaves v in the window, and every
register and the rest of LM as before (R70). -/
theorem commit_of_writeRaw_alone {i : Instr} {s : State} {d : Word} {v : Nat} (hv : v < 2 ^ (32 * len d))
    (h : exec i s = .next (advance (writeRaw s d v))) :
    ∃ t, exec i s = .next t ∧ Commits s t ∧ RegsKept s t [] ∧ LmKeptOutside s t d ∧
      memRead t.lm (base d) (len d) = .ok v := by
  refine ⟨_, h, rfl, fun r _ => getReg_writeRaw s d v r, fun _ hk => readByte_memWrite_outside s.lm v hk, ?window⟩
  case window =>
    have hread := memRead_memWrite s.lm (base d) (len d) v
    rwa [Nat.mod_eq_of_lt hv] at hread

/-- Settles O27: the first check of NORM's rule that fails names the fault, and the last one cannot fail when T is a limb longer
than S; where all pass, the shifted value fits T's window. -/
theorem normRule : Obligations.NormRule := by
  refine fun rd ra rb => ⟨(Laws.RowOfWord.norm rd ra rb).2, fun s => ⟨fun hout => ?bounds, fun hS hT =>
    ⟨fun hk => ?outofrange, fun hk hsame hmore => ?badlen, fun hk hlen m hm => ⟨fun hover => ⟨?same, ?invalidop⟩,
      fun hfit => ?commit⟩⟩⟩⟩
  case bounds => exact finish_of_trap (normBody_bounds hout) (by decide)
  case outofrange => exact finish_of_trap (normBody_outofrange hS hT hk) (by decide)
  case badlen => exact finish_of_trap (normBody_badlen hS hT hk (not_or.mpr ⟨hsame, hmore⟩)) (by decide)
  case same =>
    refine hlen.resolve_right fun hmore => absurd hover (not_le.mpr ?_)
    rw [hmore]
    exact mul_two_pow_lt_of_limb_more (val_lt hm) hk
  case invalidop => exact finish_of_trap (normBody_invalidop hS hT hk hlen hm hover) (by decide)
  case commit =>
    have hbody := normBody_ok.mpr ⟨hS, hT, hk, hlen, m, hm, (shiftLeft_eq m _).symm ▸ hfit, rfl⟩
    rw [shiftLeft_eq] at hbody
    exact commit_of_writeRaw_alone hfit ((exec_norm rd ra rb s).trans (finish_of_ok hbody))

/-! ### SHL and SHR -/

theorem exec_shl (rd ra rb : Reg) (s : State) :
    exec (.shl rd ra rb) s = finish (.shl rd ra rb) s (shiftBody rd ra (getReg s rb).toInt s) := rfl

theorem exec_shr (rd ra rb : Reg) (s : State) :
    exec (.shr rd ra rb) s = finish (.shr rd ra rb) s (shiftBody rd ra (-(getReg s rb).toInt) s) := rfl

theorem shiftBody_bounds {rd ra : Reg} {k : Int} {s : State}
    (h : ¬ (InBounds s (getReg s ra) ∧ InBounds s (getReg s rd))) :
    shiftBody rd ra k s = .error (.trap .bounds) :=
  checkBounds_pair_of_outside _ h

section InBounds

variable {rd ra : Reg} {k : Int} {s : State} {m v : Nat} (hX : InBounds s (getReg s ra)) (hZ : InBounds s (getReg s rd))
  (hm : val s (getReg s ra) = .ok m) (hv : v = if 0 ≤ k then m * 2 ^ k.toNat else m / 2 ^ (-k).toNat)
include hX hZ hm hv

theorem shiftBody_capacity (hcap : len (getReg s rd) < limbs v) : shiftBody rd ra k s = .error (.trap .capacity) := by
  simp only [shiftBody, checkBounds_bind, bind_of_ok hm, if_pos hX, if_pos hZ]
  exact bind_eq_error.mpr (.inl (shiftMagnitude_stop.mpr ⟨hv ▸ hcap, rfl⟩))

/-- SHL and SHR, where the exact result fits Z, leave it there with its descriptor (R181, R182). -/
theorem commit_of_shiftBody {i : Instr} (hfit : limbs v ≤ len (getReg s rd))
    (hexec : exec i s = finish i s (shiftBody rd ra k s)) :
    ∃ t, exec i s = .next t ∧ Commits s t ∧ RegsKept s t [rd] ∧ LmKeptOutside s t (getReg s rd) ∧
      HoldsCanon t (getReg s rd) v ∧ IsResultOf (getReg t rd) (getReg s rd) v :=
  commit_of_writeCanon hfit (hexec.trans (finish_of_ok (shiftBody_ok.mpr ⟨hX, hZ, m, v, hm, hv, hfit, rfl⟩)))

end InBounds

/-- A right shift by k is a left shift by -k; the two cases meet at k = 0, where both are the identity (R180). -/
theorem shiftRight_eq_shiftLeft_neg (m : Nat) (k : Int) :
    (if 0 ≤ k then m / 2 ^ k.toNat else m * 2 ^ (-k).toNat) =
      if 0 ≤ -k then m * 2 ^ (-k).toNat else m / 2 ^ (- -k).toNat := by
  rw [neg_neg]
  rcases lt_trichotomy k 0 with hneg | rfl | hpos
  · rw [if_neg (by omega), if_pos (by omega)]
  · simp
  · rw [if_pos (by omega), if_neg (by omega)]

/-- Settles O28: SHL is the common rule of the shifts at its own amount. -/
theorem shlRule : Obligations.ShlRule := by
  refine fun rd ra rb => ⟨(Laws.RowOfWord.shl rd ra rb).2, fun s => ⟨fun hout => ?bounds, fun hX hZ m hm =>
    ⟨fun hcap => ?capacity, fun hfit => ?commit⟩⟩⟩
  case bounds => exact finish_of_trap (shiftBody_bounds hout) (by decide)
  case capacity => exact finish_of_trap (shiftBody_capacity hX hZ hm rfl hcap) (by decide)
  case commit => exact commit_of_shiftBody hX hZ hm rfl hfit (exec_shl rd ra rb s)

/-- Settles O29: SHR is the common rule of the shifts at the negative of its amount. -/
theorem shrRule : Obligations.ShrRule := by
  refine fun rd ra rb => ⟨(Laws.RowOfWord.shr rd ra rb).2, fun s => ⟨fun hout => ?bounds, fun hX hZ m hm =>
    ⟨fun hcap => ?capacity, fun hfit => ?commit⟩⟩⟩
  case bounds => exact finish_of_trap (shiftBody_bounds hout) (by decide)
  case capacity =>
    exact finish_of_trap (shiftBody_capacity hX hZ hm (shiftRight_eq_shiftLeft_neg m _) hcap) (by decide)
  case commit => exact commit_of_shiftBody hX hZ hm (shiftRight_eq_shiftLeft_neg m _) hfit (exec_shr rd ra rb s)

/-! ### SAR -/

theorem exec_sar (rd ra rb rc : Reg) (s : State) :
    exec (.sar rd ra rb rc) s = finish (.sar rd ra rb rc) s (sarBody rd ra rb rc s) := rfl

theorem sarBody_bounds {rd ra rb rc : Reg} {s : State} (h : ¬ (InBounds s (getReg s ra) ∧ InBounds s (getReg s rd))) :
    sarBody rd ra rb rc s = .error (.trap .bounds) :=
  checkBounds_pair_of_outside _ h

section InBounds

variable {rd ra rb rc : Reg} {s : State} {m : Nat} (hX : InBounds s (getReg s ra)) (hZ : InBounds s (getReg s rd))
  (hm : val s (getReg s ra) = .ok m)
include hX hZ hm

theorem sarBody_badsign (hsign : ¬ GoodSign (s32 (getReg s rc)) m) :
    sarBody rd ra rb rc s = .error (.trap .badsign) := by
  simp only [sarBody, checkBounds_bind, need_bind, bind_of_ok hm, if_pos hX, if_pos hZ, if_neg hsign]

theorem sarBody_capacity (hsign : GoodSign (s32 (getReg s rc)) m)
    (hcap : len (getReg s rd) < limbs (if 0 ≤ s32 (getReg s rb) then (s32 (getReg s rc) * m) / 2 ^ (s32 (getReg s rb)).toNat
      else s32 (getReg s rc) * m * 2 ^ (- s32 (getReg s rb)).toNat : Int).natAbs) :
    sarBody rd ra rb rc s = .error (.trap .capacity) := by
  simp only [sarBody, checkBounds_bind, need_bind, bind_of_ok hm, if_pos hX, if_pos hZ, if_pos hsign]
  exact bind_eq_error.mpr (.inl ((shiftSigned_stop hsign).mpr ⟨hcap, rfl⟩))

end InBounds

/-- A command that commits with v written canonically through d, its descriptor in r and then w in r', leaves v in the window, w
in r', and nothing else changed (R69). When r = r', w stays. -/
theorem commit_of_writeCanon_setReg {i : Instr} {s : State} {d : Word} {v : Nat} {r r' : Reg} {w : Word}
    (hv : limbs v ≤ len d)
    (h : exec i s = .next (advance (setReg (setReg (writeCanon s d v) r (canonDesc d v)) r' w))) :
    ∃ t, exec i s = .next t ∧ Commits s t ∧ RegsKept s t [r, r'] ∧ LmKeptOutside s t d ∧ HoldsCanon t d v ∧
      (r ≠ r' → IsResultOf (getReg t r) d v) ∧ getReg t r' = w := by
  refine ⟨_, h, commits_advance_setReg_setReg_setLm s _ r r' _ w, regsKept_advance_setReg_setReg_setLm s _ r r' _ w,
    fun _ hk => readByte_writeCanonMem_outside s.lm hv hk, holdsCanon_writeCanon s d v, fun hne => ?result,
    getReg_setReg_same _ r' w⟩
  case result =>
    rw [getReg_advance, getReg_setReg_ne _ _ hne, getReg_setReg_same]
    exact isResultOf_canonDesc hv

/-- Settles O30: the first check of SAR's rule that fails names the fault; where all pass, the magnitude of the exact result fits
Z and the sign word written last reads as its sign. -/
theorem sarRule : Obligations.SarRule := by
  refine fun rd ra rb rc => ⟨(Laws.RowOfWord.sar rd ra rb rc).2, fun s => ⟨fun hout => ?bounds, fun hX hZ m hm =>
    ⟨fun hbad => ?badsign, fun hunit hzero => ⟨fun hcap => ?capacity, fun hfit => ?commit⟩⟩⟩⟩
  case bounds => exact finish_of_trap (sarBody_bounds hout) (by decide)
  case badsign => exact finish_of_trap (sarBody_badsign hX hZ hm (not_and_or.mpr hbad)) (by decide)
  case capacity => exact finish_of_trap (sarBody_capacity hX hZ hm ⟨hunit, hzero⟩ hcap) (by decide)
  case commit =>
    have hbody := sarBody_ok.mpr ⟨hX, hZ, m, _, hm, ⟨hunit, hzero⟩, rfl, hfit, rfl⟩
    obtain ⟨t, hexec, hcommit, hregs, houtside, hholds, hresult, hsign⟩ :=
      commit_of_writeCanon_setReg hfit ((exec_sar rd ra rb rc s).trans (finish_of_ok hbody))
    exact ⟨t, hexec, hcommit, hregs, houtside, hholds, hresult, hsign ▸ toInt_signWord _⟩

/-! ### The leading zeros of a field -/

/-- The leading-zero count of a w-bit field is w less the bit length of its value (R170). -/
theorem isLeadingZeros_sub_bitlen {w v : Nat} (h : bitlen v ≤ w) : IsLeadingZeros (w - bitlen v) w v := by
  rw [IsLeadingZeros, Nat.sub_sub_self h]
  refine ⟨Nat.sub_le w _, lt_two_pow_bitlen v, fun hv => ?_, fun hv => by rw [hv, bitlen_zero, Nat.sub_zero]⟩
  have hpos : bitlen v ≠ 0 := bitlen_eq_zero.not.mpr hv
  calc 2 ^ bitlen v = 2 * 2 ^ (bitlen v - 1) := (mul_pow_sub_one hpos 2).symm
    _ ≤ 2 * v := Nat.mul_le_mul_left 2 (two_pow_bitlen_pred_le hv)

/-! ### CLZ -/

theorem exec_clz (rd ra : Reg) (s : State) :
    exec (.clz rd ra) s = .next (advance (setReg s rd (BitVec.ofNat 32 (clz32 (getReg s ra))))) := rfl

theorem toNat_clz32 (w : Word) : (BitVec.ofNat 32 (clz32 w)).toNat = clz32 w := by
  rw [BitVec.toNat_ofNat]
  exact Nat.mod_eq_of_lt ((clz32_le w).trans_lt (by norm_num))

/-- A word has no leading zero exactly when its bit 31 is set (R171). -/
theorem clz32_eq_zero_iff (w : Word) : clz32 w = 0 ↔ w.getLsbD 31 = true :=
  calc clz32 w = 0 ↔ ¬ bitlen w.toNat ≤ 31 := by rw [clz32]; omega
    _ ↔ 2 ^ 31 ≤ w.toNat := by rw [bitlen_le_iff, not_lt]
    _ ↔ w.msb = true := by rw [BitVec.msb_eq_decide, decide_eq_true_iff]
    _ ↔ w.getLsbD 31 = true := by rw [BitVec.msb_eq_getLsbD_last]

/-- Settles O31: CLZ commits the 32-bit width less the bit length of x[ra]. -/
theorem clzRule : Obligations.ClzRule := by
  refine fun rd ra => ⟨(Laws.RowOfWord.clz rd ra).2, fun s => ?_⟩
  obtain ⟨t, hexec, hcommit, hlm, hregs, hrd⟩ := commit_of_setReg (exec_clz rd ra s)
  refine ⟨t, hexec, hcommit, hlm, hregs, ?count, ?none⟩
  case count =>
    rw [hrd, toNat_clz32]
    exact isLeadingZeros_sub_bitlen (bitlen_word_le _)
  case none => rw [hrd, ← BitVec.toNat_inj, toNat_clz32, BitVec.toNat_zero, clz32_eq_zero_iff]

/-! ### LZCA -/

theorem exec_lzca (rd ra : Reg) (s : State) :
    exec (.lzca rd ra) s = finish (.lzca rd ra) s (lzcaBody rd ra s) := rfl

theorem lzcaBody_bounds {rd ra : Reg} {s : State} (h : ¬ InBounds s (getReg s ra)) :
    lzcaBody rd ra s = .error (.trap .bounds) := by
  simp only [lzcaBody, checkBounds_bind, if_neg h]

/-- A count over a window, at most 32 * 65535, fits a register (R173). -/
theorem toNat_windowCount (A : Word) (v : Nat) :
    (BitVec.ofNat 32 (32 * len A - bitlen v)).toNat = 32 * len A - bitlen v := by
  have hlen := len_lt A
  rw [BitVec.toNat_ofNat]
  exact Nat.mod_eq_of_lt (by omega)

/-- Settles O32: the bounds of A are the only check of LZCA's rule; where it passes, the count is the window's width less the bit
length of its value, which is 0 for the value 0 alone. -/
theorem lzcaRule : Obligations.LzcaRule := by
  refine fun rd ra => ⟨(Laws.RowOfWord.lzca rd ra).2, fun s => ⟨fun hout => ?bounds, fun hA v hv => ?commit⟩⟩
  case bounds => exact finish_of_trap (lzcaBody_bounds hout) (by decide)
  case commit =>
    have hbody := (lzcaBody_ok (rd := rd)).mpr ⟨hA, v, hv, rfl⟩
    obtain ⟨t, hexec, hcommit, hlm, hregs, hrd⟩ := commit_of_setReg ((exec_lzca rd ra s).trans (finish_of_ok hbody))
    have hwidth : bitlen v ≤ 32 * len (getReg s ra) := bitlen_le_iff.mpr (val_lt hv)
    refine ⟨t, hexec, hcommit, hlm, hregs, ?count, ?allZero⟩
    case count =>
      rw [hrd, toNat_windowCount]
      exact isLeadingZeros_sub_bitlen hwidth
    case allZero =>
      rw [hrd, toNat_windowCount, ← bitlen_eq_zero]
      omega

end Sys2Proof.Machine
end

section
/-! PROOF. O7, O8, O59: the two faults of a fetch (R212, R213) and the interrupt output (R225). The state the engine moves in
differs from the one before by the host's list alone, so fetch, BUSY and the two enables are read from either. -/

namespace Sys2Proof.Machine

/-! ### The engine's turn, by what the fetch answers -/

/-- The state in which the engine moves has the host's list shortened at most (log 5). -/
theorem engineMoves_frame {s u : State} (h : EngineMoves s u) : u = { s with hostMoves := u.hostMoves } := by
  obtain ⟨-, rfl⟩ | ⟨rest, -, rfl⟩ := h
  · rfl
  · rfl

theorem busy_of_engineMoves {s u : State} (h : EngineMoves s u) : u.busy = s.busy := by
  rw [engineMoves_frame h]

theorem fetch_of_engineMoves {s u : State} (h : EngineMoves s u) : fetch u = fetch s := by
  rw [engineMoves_frame h]
  rfl

theorem fetch_outside {s : State} (h : s.lmDepth ≤ s.pc.toNat) : fetch s = .error (.trap .fetch) := if_pos h

theorem fetch_written {s : State} {w : Word} (hpc : s.pc.toNat < s.lmDepth)
    (hw : Memory.readWord s.lm s.pc.toNat = some w) : fetch s = .ok w := by
  rw [fetch, if_neg (not_le.mpr hpc), hw]

section EngineMoves

variable {s u : State} (hmoves : EngineMoves s u) (hbusy : s.busy = true)
include hmoves hbusy

/-- A fetch that faults is the whole step, with no word for EINFO (R213). -/
theorem step_of_fetch_trap {c : FaultCode} (hfetch : fetch s = .error (.trap c)) :
    step s = .next (takeFault c 0#32 u) := by
  rw [← fetch_of_engineMoves hmoves] at hfetch
  rw [← busy_of_engineMoves hmoves] at hbusy
  rw [step_of_engineMoves hmoves, engineTurn, if_pos hbusy, hfetch]

/-- A word that does not decode is fetched, and its fault is the whole step (R212). -/
theorem step_of_illegal {w : Word} {e : Illegal} (hfetch : fetch s = .ok w) (hdecode : decode w = .error e) :
    step s = .next (takeFault .illegal w u) := by
  rw [← fetch_of_engineMoves hmoves] at hfetch
  rw [← busy_of_engineMoves hmoves] at hbusy
  rw [step_of_engineMoves hmoves, engineTurn, if_pos hbusy, hfetch]
  simp only [hdecode]

end EngineMoves

/-- Settles O7: outside LM the fetch itself answers FETCH, whose EINFO is 0. -/
theorem fetchOutsideLmFaults : Obligations.FetchOutsideLmFaults :=
  fun _ _ hmoves hbusy hpc => step_of_fetch_trap hmoves hbusy (fetch_outside hpc)

/-- A word that fails one of the three checks of R89 does not decode. -/
theorem decode_error_of_illFormed {w : Word}
    (h : ¬ (opAssigned w = true ∧ unusedFieldsZero w = true ∧ reservedBitsZero w = true)) :
    ∃ e, decode w = .error e := by
  cases hd : decode w with
  | error e => exact ⟨e, rfl⟩
  | ok i => exact absurd ((legalWordsAreWellFormed w).mp ⟨i, hd⟩) h

/-- Settles O8: the ill-formed word is fetched and does not decode (O4), so the step is its ILLEGAL fault. -/
theorem illegalWordFaults : Obligations.IllegalWordFaults := by
  intro s u w hmoves hbusy hpc hw hill
  obtain ⟨e, hdecode⟩ := decode_error_of_illFormed hill
  rw [step_of_illegal hmoves hbusy (fetch_written hpc hw) hdecode, takeFault_eq_faulted (by decide)]
  rfl

/-! ### The interrupt output -/

theorem irq_iff (s : State) : irq s = true ↔ (s.done = true ∧ s.ieDone = true) ∨ (s.err = true ∧ s.ieErr = true) := by
  simp only [irq, Bool.or_eq_true, Bool.and_eq_true]

/-- No command writes an interrupt enable, whether it commits or faults (R36). -/
theorem exec_keeps_enables {i : Instr} {s t : State} (h : exec i s = .next t) :
    t.ieDone = s.ieDone ∧ t.ieErr = s.ieErr := by
  obtain ⟨body, hexec, hok, -⟩ := exec_finish i s
  obtain ⟨u, hbody, rfl⟩ | ⟨c, -, rfl⟩ := finish_eq_next.mp (hexec.symm.trans h)
  · have hframe := (hok u hbody).frame
    rw [hframe]
    exact ⟨rfl, rfl⟩
  · exact ⟨rfl, rfl⟩

theorem engineTurn_keeps_enables {u t : State} (h : EngineTurn u t) : t.ieDone = u.ieDone ∧ t.ieErr = u.ieErr := by
  cases h with
  | idle _ ht => exact ht ▸ ⟨rfl, rfl⟩
  | fetchFault _ _ ht => exact ht ▸ ⟨rfl, rfl⟩
  | illegal _ _ _ _ _ _ ht => exact ht ▸ ⟨rfl, rfl⟩
  | command _ _ _ _ _ _ ht => exact exec_keeps_enables ht

/-- After a step of the engine the enables are still those the step found. -/
theorem irq_of_engine_step {s u t : State} (hmoves : EngineMoves s u) (h : step s = .next t) :
    irq t = true ↔ (t.done = true ∧ s.ieDone = true) ∨ (t.err = true ∧ s.ieErr = true) := by
  have hturn : EngineTurn u t := engineTurn_cases ((step_of_engineMoves hmoves).symm.trans h)
  obtain ⟨hdone, herr⟩ := engineTurn_keeps_enables hturn
  rw [engineMoves_frame hmoves] at hdone herr
  rw [irq_iff, hdone, herr]

/-- A STATUS write lowers the line unless a raised and enabled bit stays (R42). -/
theorem irq_writeStatus (s : State) (v : Word) :
    irq (writeStatus s v) = true ↔
      (s.done = true ∧ v.getLsbD 1 = false ∧ s.ieDone = true) ∨
        (s.err = true ∧ v.getLsbD 2 = false ∧ s.ieErr = true) := by
  simp only [irq, writeStatus, Bool.or_eq_true, Bool.and_eq_true, Bool.not_eq_true', and_assoc]

/-- START while idle clears DONE and ERR, so it lowers the interrupt line (R34). -/
@[simp] theorem irq_start (s : State) : irq (start s) = false := rfl

/-- Where a CTRL write neither resets nor starts the engine, the line follows the enables it writes (R33). -/
theorem irq_writeCtrl {s : State} {v : Word} (hsrst : v.getLsbD 1 = false)
    (hstart : v.getLsbD 0 = false ∨ s.busy = true) :
    irq (writeCtrl s v) = true ↔
      (s.done = true ∧ v.getLsbD 2 = true) ∨ (s.err = true ∧ v.getLsbD 3 = true) := by
  cases hbit : v.getLsbD 0 with
  | false =>
    rw [writeCtrl_of_no_start s hsrst hbit]
    exact irq_iff _
  | true =>
    have hbusy : s.busy = true := hstart.resolve_left (by simp [hbit])
    rw [writeCtrl_of_start_busy s hsrst hbit hbusy]
    exact irq_iff _

/-- Settles O59: an engine step keeps the enables and each host write that bears on the line has its rule. -/
theorem interruptOutputRule : Obligations.InterruptOutputRule := by
  refine ⟨irq_iff, fun s u t hmoves _ hstep => irq_of_engine_step hmoves hstep,
    fun s u hmoves hbusy hpc hie => ?fetchFault, fun s hie => ⟨_, exec_halt s, irq_of_done rfl hie⟩,
    fun s rest v hmove => ⟨_, step_write_status hmove, irq_writeStatus _ v⟩,
    fun s rest v hmove => ⟨_, step_write_ctrl hmove, fun hsrst => ?srst, fun hsrst hstart hidle => ?start,
      fun hsrst hstart => irq_writeCtrl hsrst hstart⟩,
    fun s rest hmove => ⟨_, step_powerOn hmove, irq_powerOnReset _⟩⟩
  case fetchFault =>
    have hstep := fetchOutsideLmFaults s u hmoves hbusy hpc
    exact ⟨_, hstep, (irq_of_engine_step hmoves hstep).mpr (.inr ⟨rfl, hie⟩)⟩
  case srst => rw [writeCtrl_of_srst _ hsrst, irq_softReset]
  case start => rw [writeCtrl_of_start_idle { s with hostMoves := rest } hsrst hstart hidle, irq_start]

end Sys2Proof.Machine
end

section
/-! PROOF. O1, O2, O3, O5: decoding and encoding agree (R86, R91). Each command has one row of R86, which its word matches and
whose fields give the command back; a legal word is put together from its fields, so it encodes what it decodes to. -/

namespace Sys2Proof

/-! ### The row of a command -/

/-- The place of a command's row in the table of R86. -/
def rowIndex (i : Instr) : Fin opcodeRows.length :=
  match i with
  | .nop => ⟨0, by decide⟩
  | .halt => ⟨1, by decide⟩
  | .lil _ _ => ⟨2, by decide⟩
  | .lih _ _ => ⟨3, by decide⟩
  | .mov _ _ => ⟨4, by decide⟩
  | .mul _ _ _ => ⟨5, by decide⟩
  | .muladd1 _ _ _ _ => ⟨6, by decide⟩
  | .divmod _ _ _ _ => ⟨7, by decide⟩
  | .divrem1 _ _ _ => ⟨8, by decide⟩
  | .norm _ _ _ => ⟨9, by decide⟩
  | .shl _ _ _ => ⟨10, by decide⟩
  | .shr _ _ _ => ⟨11, by decide⟩
  | .sar _ _ _ _ => ⟨12, by decide⟩
  | .clz _ _ => ⟨13, by decide⟩
  | .lzca _ _ => ⟨14, by decide⟩

theorem row_mask_pattern (i : Instr) :
    (opcodeRows[rowIndex i].mask, opcodeRows[rowIndex i].pattern) = Laws.RowOfWord.rowOf i := by
  cases i <;> rfl

theorem rowOfWord_statement (i : Instr) : Laws.RowOfWord.Statement i := by
  cases i with
  | nop => exact Laws.RowOfWord.nop
  | halt => exact Laws.RowOfWord.halt
  | lil rd imm => exact Laws.RowOfWord.lil rd imm
  | lih rd imm => exact Laws.RowOfWord.lih rd imm
  | mov rd ra => exact Laws.RowOfWord.mov rd ra
  | mul rd ra rb => exact Laws.RowOfWord.mul rd ra rb
  | muladd1 rd ra rb rc => exact Laws.RowOfWord.muladd1 rd ra rb rc
  | divmod rd ra rb rc => exact Laws.RowOfWord.divmod rd ra rb rc
  | divrem1 rd ra rb => exact Laws.RowOfWord.divrem1 rd ra rb
  | norm rd ra rb => exact Laws.RowOfWord.norm rd ra rb
  | shl rd ra rb => exact Laws.RowOfWord.shl rd ra rb
  | shr rd ra rb => exact Laws.RowOfWord.shr rd ra rb
  | sar rd ra rb rc => exact Laws.RowOfWord.sar rd ra rb rc
  | clz rd ra => exact Laws.RowOfWord.clz rd ra
  | lzca rd ra => exact Laws.RowOfWord.lzca rd ra

/-- A command's word matches the command's row. -/
theorem row_matchesWord_encode (i : Instr) : opcodeRows[rowIndex i].matchesWord (encode i) = true := by
  obtain ⟨-, hmatch⟩ := rowOfWord_statement i
  rw [← row_mask_pattern i] at hmatch
  exact beq_iff_eq.mpr hmatch

/-- The row reads the operands back from the fields the format put them in. -/
theorem row_build_encode (i : Instr) : opcodeRows[rowIndex i].build (encode i) = i := by
  cases i <;> simp [rowIndex, opcodeRows, encode]

/-- Settles O2: a command's word matches its own row, so it decodes by that row, which gives the operands back. -/
theorem decodeOfEncode : Obligations.DecodeOfEncode := by
  intro i
  rw [decode_of_match (List.getElem_mem (rowIndex i).isLt) (row_matchesWord_encode i)]
  exact congrArg Except.ok (row_build_encode i)

/-! ### A legal word from its fields -/

/-- The word put together from w's fields by the format of w's opcode, with 0 for the fields the command does not use. -/
def wordOfFields (w : Word) : Word :=
  match formatOf (opField w) with
  | some .register =>
    formatR (opField w) (rdField w) (raField w) (if rbUnused (opField w) then 0#4 else rbField w)
      (if rcUnused (opField w) then 0#4 else rcField w)
  | some .immediate => formatI (opField w) (rdField w) (immField w)
  | some .bare => formatN (opField w)
  | none => w

theorem ite_zero_eq_self {r : Reg} {unused : Bool} (h : unused = true → r = 0#4) :
    (if unused then 0#4 else r) = r := by
  cases unused with
  | false => rfl
  | true => exact (h rfl).symm

/-- A word whose unused fields and reserved bits are 0 is put together from its fields. -/
theorem wordOfFields_eq {w : Word} (hop : opAssigned w = true)
    (hzero : unusedFieldsZero w = true ∧ reservedBitsZero w = true) : wordOfFields w = w := by
  obtain ⟨f, hf⟩ := Option.isSome_iff_exists.mp hop
  cases f with
  | register =>
    obtain ⟨⟨hrb, hrc⟩, hreserved⟩ := (checks_register hf).mp hzero
    simp only [wordOfFields, hf, ite_zero_eq_self hrb, ite_zero_eq_self hrc]
    exact formatR_of_fields hreserved
  | immediate =>
    simp only [wordOfFields, hf]
    exact formatI_of_fields ((checks_immediate hf).mp hzero)
  | bare =>
    simp only [wordOfFields, hf]
    exact formatN_of_fields ((checks_bare hf).mp hzero)

/-- The command a row builds has the word put together from the fields. -/
theorem encode_build {r : OpcodeRow} {w : Word} (hr : r ∈ opcodeRows) (hop : opField w = opField r.pattern) :
    encode (r.build w) = wordOfFields w := by
  rw [wordOfFields, hop]
  revert r
  simp only [opcodeRows, List.forall_mem_cons, List.not_mem_nil, false_implies, implies_true, and_true]
  and_intros
  all_goals exact fun _ => rfl

/-- Settles O3: a word that decodes is legal (O4), and the command its row builds has the word put together from its fields. -/
theorem encodeOfDecode : Obligations.EncodeOfDecode := by
  intro w i hdecode
  obtain ⟨hop, hzero⟩ := (legalWordsAreWellFormed w).mp ⟨i, hdecode⟩
  obtain ⟨r, hr, hmatch, rfl⟩ := row_of_decode hdecode
  rw [encode_build hr (opField_of_match hr (beq_iff_eq.mpr hmatch)), wordOfFields_eq hop hzero]

/-! ### One row for a word -/

/-- Settles O5: the rows a word matches all have its opcode, and the rows' opcodes are pairwise different. -/
theorem atMostOneRowMatches : Obligations.AtMostOneRowMatches := by
  intro w
  have hnodup : ((opcodeRows.filter (fun r => r.matchesWord w)).map (fun r => opField r.pattern)).Nodup :=
    opcodes_nodup.sublist (List.filter_sublist.map _)
  have hsame : ∀ op ∈ (opcodeRows.filter (fun r => r.matchesWord w)).map (fun r => opField r.pattern), op = opField w := by
    intro op hop
    obtain ⟨r, hr, rfl⟩ := List.mem_map.mp hop
    obtain ⟨hrow, hmatch⟩ := List.mem_filter.mp hr
    exact (opField_of_match hrow hmatch).symm
  rw [List.eq_replicate_of_mem hsame, List.nodup_replicate, List.length_map] at hnodup
  exact hnodup

/-- Settles O1, by decoding the nine words. -/
theorem specWordsDecode : Obligations.SpecWordsDecode := by
  unfold Obligations.SpecWordsDecode
  decide

end Sys2Proof
end

section
/-! PROOF. O6, O9, O10, O11, O12, O13: what a step of the engine does with the word it fetches, and that a command commits whole
or faults with nothing written (R100 to R104, R216). -/

namespace Sys2Proof.Machine

/-! ### A command that answers a next state -/

/-- A command that answers a next state has committed what its rule leaves, or has taken a fault; HALT takes none. -/
theorem exec_next_cases {i : Instr} {s t : State} (h : exec i s = .next t) :
    (∃ u, BodyOk i s u ∧ t = advance u) ∨ (i ≠ .halt ∧ ∃ c : FaultCode, t = faulted s c.ecode (encode i)) := by
  obtain ⟨body, hexec, hok, hstop⟩ := exec_finish i s
  obtain ⟨u, hbody, rfl⟩ | ⟨c, hbody, rfl⟩ := finish_eq_next.mp (hexec.symm.trans h)
  · exact .inl ⟨u, hok u hbody, rfl⟩
  · obtain ⟨c', hc', hhalt, hfetch, -⟩ | ⟨a, ha, -⟩ := hstop _ hbody
    · cases hc'
      exact .inr ⟨hhalt, c, takeFault_eq_faulted hfetch _ s⟩
    · cases ha

/-- A commit of any command but HALT leaves the status bits, so it moves LM, registers and PC alone (R103). -/
theorem BodyOk.commits {i : Instr} {s u : State} (h : BodyOk i s u) (hi : i ≠ .halt) : Commits s (advance u) := by
  obtain ⟨hbusy, hdone⟩ := h.status hi
  have hframe := h.frame
  rw [hbusy, hdone] at hframe
  rw [hframe]
  rfl

theorem commitsOrFaults_of_exec {i : Instr} {s t : State} (hi : i ≠ .halt) (h : exec i s = .next t) :
    CommitsOrFaults i s t := by
  obtain ⟨u, hok, rfl⟩ | ⟨-, c, hc⟩ := exec_next_cases h
  · exact .inl (hok.commits hi)
  · exact .inr ⟨c, hc⟩

/-- Settles O11: every command but HALT commits or faults as its rule says, and HALT's next state is R106's. -/
theorem commandCommitsOrFaultsWhole : Obligations.CommandCommitsOrFaultsWhole := by
  refine fun i s t hexec => ⟨fun hi => commitsOrFaults_of_exec hi hexec, ?halt⟩
  case halt =>
    rintro rfl
    rw [exec_halt] at hexec
    cases hexec
    rfl

theorem exec_ne_refused (i : Instr) (s : State) (r : Refusal) : exec i s ≠ .refused r := by
  obtain ⟨body, hexec, -⟩ := exec_finish i s
  exact hexec ▸ finish_ne_refused i s body r

/-- Settles O12: the end of a command never refuses, and passes on a model stop of the command's rule alone. -/
theorem commandsStopOnlyAtUnwrittenWords : Obligations.CommandsStopOnlyAtUnwrittenWords := by
  refine fun i s => ⟨exec_ne_refused i s, fun f hf => ?_⟩
  obtain ⟨body, hexec, -, hstop⟩ := exec_finish i s
  obtain ⟨c, hc, -⟩ | ⟨a, ha, hinside, hnone⟩ := hstop _ (finish_eq_fault.mp (hexec.symm.trans hf))
  · cases hc
  · exact ⟨a, Stop.model.inj ha, hinside, hnone⟩

/-! ### What the engine's turn leaves -/

/-- No command touches the enables, HACC, LM_DEPTH or the model's own fields. -/
theorem exec_frame {i : Instr} {s t : State} (h : exec i s = .next t) :
    t = { s with
      lm := t.lm, x := t.x, pc := t.pc, busy := t.busy, done := t.done, err := t.err, ecode := t.ecode,
      einfo := t.einfo } := by
  obtain ⟨u, hok, rfl⟩ | ⟨-, c, rfl⟩ := exec_next_cases h
  · have hframe := hok.frame
    rw [hframe]
    rfl
  · rfl

/-- A commit moves PC by one, and a fault leaves it (R103, R216). -/
theorem exec_pc {i : Instr} {s t : State} (h : exec i s = .next t) :
    t.pc = s.pc + 1#32 ∨ (t.pc = s.pc ∧ t.busy = false) := by
  obtain ⟨u, hok, rfl⟩ | ⟨-, c, rfl⟩ := exec_next_cases h
  · left
    rw [advance_pc, hok.frame]
  · exact .inr ⟨rfl, rfl⟩

theorem engineTurn_frame {u t : State} (h : EngineTurn u t) :
    t = { u with
      lm := t.lm, x := t.x, pc := t.pc, busy := t.busy, done := t.done, err := t.err, ecode := t.ecode,
      einfo := t.einfo } := by
  cases h with
  | idle _ ht => rw [ht]
  | fetchFault _ _ ht => rw [ht]; rfl
  | illegal _ _ _ _ _ _ ht => rw [ht]; rfl
  | command _ _ _ _ _ _ ht => exact exec_frame ht

/-- The engine's turn moves PC by one, which only a busy engine does after a fetch inside LM, or leaves PC and ends idle. -/
theorem engineTurn_pc {u t : State} (h : EngineTurn u t) :
    (t.pc = u.pc + 1#32 ∧ u.busy = true ∧ u.pc.toNat < u.lmDepth) ∨ (t.pc = u.pc ∧ t.busy = false) := by
  cases h with
  | idle hidle ht =>
    subst ht
    exact .inr ⟨rfl, hidle⟩
  | fetchFault _ _ ht => exact .inr (ht ▸ ⟨rfl, rfl⟩)
  | illegal _ _ _ _ _ _ ht => exact .inr (ht ▸ ⟨rfl, rfl⟩)
  | command _ _ hbusy hpc _ _ ht => exact (exec_pc ht).imp_left fun hnext => ⟨hnext, hbusy, hpc⟩

/-- Settles O13: the engine's turn moves PC by one or not at all. -/
theorem engineMovesPcByAtMostOne : Obligations.EngineMovesPcByAtMostOne := by
  intro s u t hmoves hstep
  have hpc := engineTurn_pc (engineTurn_cases ((step_of_engineMoves hmoves).symm.trans hstep))
  rw [engineMoves_frame hmoves] at hpc
  exact hpc.symm.imp And.left And.left

/-! ### The step, by what the fetch answers -/

section EngineMoves

variable {s u : State} (hmoves : EngineMoves s u) (hbusy : s.busy = true)
include hmoves hbusy

theorem step_of_command {w : Word} {i : Instr} (hfetch : fetch s = .ok w) (hdecode : decode w = .ok i) :
    step s = exec i u := by
  rw [← fetch_of_engineMoves hmoves] at hfetch
  rw [← busy_of_engineMoves hmoves] at hbusy
  rw [step_of_engineMoves hmoves, engineTurn, if_pos hbusy, hfetch]
  simp only [hdecode]

theorem step_of_fetch_stop {f : Fault} (hfetch : fetch s = .error (.model f)) : step s = .fault f := by
  rw [← fetch_of_engineMoves hmoves] at hfetch
  rw [← busy_of_engineMoves hmoves] at hbusy
  rw [step_of_engineMoves hmoves, engineTurn, if_pos hbusy, hfetch]

end EngineMoves

theorem fetch_unwritten {s : State} (hpc : s.pc.toNat < s.lmDepth) (hw : Memory.readWord s.lm s.pc.toNat = none) :
    fetch s = .error (.model (.fetchUnwritten s.pc.toNat)) := by
  rw [fetch, if_neg (not_le.mpr hpc), hw]

theorem step_of_idle {s u : State} (hmoves : EngineMoves s u) (hidle : s.busy = false) : step s = .next u := by
  rw [← busy_of_engineMoves hmoves] at hidle
  rw [step_of_engineMoves hmoves, engineTurn, hidle, if_neg Bool.false_ne_true]

/-- Settles O6: the fetch answers the word at PC, which decodes to the command. -/
theorem stepRunsTheDecodedCommand : Obligations.StepRunsTheDecodedCommand :=
  fun _ _ _ _ hmoves hbusy hpc hw hdecode => step_of_command hmoves hbusy (fetch_written hpc hw) hdecode

/-- Settles O9: the fetch of an unwritten word inside LM answers the model's stop. -/
theorem unwrittenFetchStops : Obligations.UnwrittenFetchStops :=
  fun _ _ hmoves hbusy hpc hw => step_of_fetch_stop hmoves hbusy (fetch_unwritten hpc hw)

/-- Settles O10: an idle engine's turn leaves the state it moves in. -/
theorem idleEngineTakesNoStep : Obligations.IdleEngineTakesNoStep :=
  fun _ hidle => ⟨fun hnone => step_of_idle (.inl ⟨hnone, rfl⟩) hidle,
    fun rest hpass => step_of_idle (.inr ⟨rest, hpass, rfl⟩) hidle⟩

end Sys2Proof.Machine
end

section
/-! PROOF. O42 to O46: the host's accesses (R29 to R46, R67). The target of an offset is read off the map of R29 once, and each
kind of access has one equation per kind of target. -/

namespace Sys2Proof.Machine

/-! ### The map of R29 -/

/-- Beyond the six control registers the map holds the X window, the LM window and reserved offsets. -/
theorem hostTarget_of_ge {depth o : Nat} (h : 0x018 ≤ o) :
    hostTarget depth o =
      if 0x040 ≤ o ∧ o < 0x080 then .x (BitVec.ofNat 4 ((o - 0x040) / 4))
      else if 0x10000 ≤ o ∧ o < 0x10000 + 4 * depth then .lm ((o - 0x10000) / 4) else .reserved := by
  rw [hostTarget, if_neg (by omega), if_neg (by omega), if_neg (by omega), if_neg (by omega), if_neg (by omega),
    if_neg (by omega)]

theorem hostTarget_xWindow {depth o : Nat} (h : 0x040 ≤ o ∧ o < 0x080) :
    hostTarget depth o = .x (BitVec.ofNat 4 ((o - 0x040) / 4)) := by
  rw [hostTarget_of_ge (by omega), if_pos h]

theorem hostTarget_lmWindow {depth o : Nat} (h : 0x10000 ≤ o ∧ o < 0x10000 + 4 * depth) :
    hostTarget depth o = .lm ((o - 0x10000) / 4) := by
  rw [hostTarget_of_ge (by omega), if_neg (by omega), if_pos h]

theorem hostTarget_of_reserved {depth o : Nat}
    (h : (0x018 ≤ o ∧ o < 0x040) ∨ (0x080 ≤ o ∧ o < 0x10000) ∨ 0x10000 + 4 * depth ≤ o) :
    hostTarget depth o = .reserved := by
  rw [hostTarget_of_ge (by omega), if_neg (by omega), if_neg (by omega)]

/-- The offset of x_i (R29). -/
theorem hostTarget_register (depth : Nat) {o : Nat} {r : Reg} (h : o = 0x040 + 4 * r.toNat) :
    hostTarget depth o = .x r := by
  have hr := r.isLt
  rw [hostTarget_xWindow (by omega), h, Nat.add_sub_cancel_left, Nat.mul_div_cancel_left _ (by decide), BitVec.ofNat_toNat,
    BitVec.setWidth_eq]

/-- The offset of LM word a (R29). -/
theorem hostTarget_lmWord {depth o a : Nat} (ha : a < depth) (h : o = 0x10000 + 4 * a) :
    hostTarget depth o = .lm a := by
  rw [hostTarget_lmWindow (by omega), h, Nat.add_sub_cancel_left, Nat.mul_div_cancel_left _ (by decide)]

/-! ### The width of an access -/

theorem wholeWord_four {o : Nat} (h : o % 4 = 0) : wholeWord o 4 = true := decide_eq_true ⟨rfl, h⟩

theorem wholeWord_eq_false {o bytes : Nat} (h : bytes ≠ 4 ∨ o % 4 ≠ 0) : wholeWord o bytes = false :=
  decide_eq_false (not_and_or.mpr h)

/-! ### Accesses that are performed -/

section Idle

variable {s : State} {o : Nat} (ho : o % 4 = 0) (hidle : s.busy = false)
include ho hidle

theorem hostRead_pc (h : hostTarget s.lmDepth o = .pc) : hostRead s o 4 = returnData s s.pc := by
  simp only [hostRead, wholeWord_four ho, h, hidle, Bool.false_eq_true, if_true, if_false]

theorem hostRead_register {r : Reg} (h : hostTarget s.lmDepth o = .x r) :
    hostRead s o 4 = returnData s (getReg s r) := by
  simp only [hostRead, wholeWord_four ho, h, hidle, Bool.false_eq_true, if_true, if_false]

theorem hostRead_lmWord {a : Nat} (h : hostTarget s.lmDepth o = .lm a) : hostRead s o 4 = readLm s a := by
  simp only [hostRead, wholeWord_four ho, h, hidle, Bool.false_eq_true, if_true, if_false]

theorem hostWrite_pc (h : hostTarget s.lmDepth o = .pc) (v : Word) : hostWrite s o 4 v = { s with pc := v } := by
  simp only [hostWrite, wholeWord_four ho, h, hidle, Bool.false_eq_true, if_true, if_false]

theorem hostWrite_register {r : Reg} (h : hostTarget s.lmDepth o = .x r) (v : Word) :
    hostWrite s o 4 v = setReg s r v := by
  simp only [hostWrite, wholeWord_four ho, h, hidle, Bool.false_eq_true, if_true, if_false]

theorem hostWrite_lmWord {a : Nat} (h : hostTarget s.lmDepth o = .lm a) (v : Word) :
    hostWrite s o 4 v = setLm s (Memory.writeWord s.lm a v) := by
  simp only [hostWrite, wholeWord_four ho, h, hidle, Bool.false_eq_true, if_true, if_false]

end Idle

theorem readLm_written {s : State} {a : Nat} {w : Word} (h : Memory.readWord s.lm a = some w) :
    readLm s a = returnData s w := by
  rw [readLm, h]

theorem readLm_unwritten {s : State} {a : Nat} (h : Memory.readWord s.lm a = none) :
    readLm s a = { returnData s (Config.freeWord s.draws) with draws := s.draws + 1 } := by
  rw [readLm, h]

/-! ### Accesses that are refused -/

/-- The targets that only an idle engine lets the host reach (R30). -/
def IdleOnly (t : HostTarget) : Prop := t = .pc ∨ (∃ r, t = .x r) ∨ ∃ a, t = .lm a

theorem hostRead_busy {s : State} {o : Nat} (hbusy : s.busy = true) (ho : o % 4 = 0)
    (h : IdleOnly (hostTarget s.lmDepth o)) : hostRead s o 4 = returnData (refuseAccess s) 0#32 := by
  obtain h | ⟨r, h⟩ | ⟨a, h⟩ := h
  all_goals simp only [hostRead, wholeWord_four ho, h, hbusy, if_true]

theorem hostWrite_busy {s : State} {o : Nat} (hbusy : s.busy = true) (ho : o % 4 = 0)
    (h : IdleOnly (hostTarget s.lmDepth o)) (v : Word) : hostWrite s o 4 v = refuseAccess s := by
  obtain h | ⟨r, h⟩ | ⟨a, h⟩ := h
  all_goals simp only [hostWrite, wholeWord_four ho, h, hbusy, if_true]

/-- A read that is no aligned 32-bit word, or of a reserved offset, is refused (R41, R67). -/
theorem hostRead_refused (s : State) {o bytes : Nat}
    (h : wholeWord o bytes = false ∨ hostTarget s.lmDepth o = .reserved) :
    hostRead s o bytes = returnData (refuseAccess s) 0#32 := by
  cases hwhole : wholeWord o bytes with
  | false => simp only [hostRead, hwhole, Bool.false_eq_true, if_false]
  | true =>
    have htarget := h.resolve_left (by simp [hwhole])
    simp only [hostRead, hwhole, htarget, if_true]

/-- The targets no write is performed to (R41). -/
def NeverWritten (t : HostTarget) : Prop := t = .reserved ∨ t = .id ∨ t = .einfo ∨ t = .param

theorem hostWrite_refused (s : State) {o bytes : Nat}
    (h : wholeWord o bytes = false ∨ NeverWritten (hostTarget s.lmDepth o)) (v : Word) :
    hostWrite s o bytes v = refuseAccess s := by
  cases hwhole : wholeWord o bytes with
  | false => simp only [hostWrite, hwhole, Bool.false_eq_true, if_false]
  | true =>
    obtain htarget | htarget | htarget | htarget := h.resolve_left (by simp [hwhole])
    all_goals simp only [hostWrite, hwhole, htarget, if_true]

/-! ### The words of CTRL and STATUS, bit by bit -/

theorem getLsbD_bit (b : Bool) (k : Nat) : (bit b).getLsbD k = (decide (k = 0) && b) := BitVec.getLsbD_ofBool b k

/-- CTRL reads its two enables at bits 2 and 3 and 0 elsewhere (R33). -/
theorem getLsbD_ctrlWord (s : State) (k : Nat) :
    (ctrlWord s).getLsbD k = if k = 2 then s.ieDone else if k = 3 then s.ieErr else false := by
  simp only [ctrlWord, BitVec.getLsbD_append, getLsbD_bit, BitVec.getLsbD_zero]
  grind

/-- STATUS reads its four bits at bits 0 to 3, ECODE at bits 8 to 15, and 0 elsewhere (R37). -/
theorem getLsbD_statusWord (s : State) (k : Nat) :
    (statusWord s).getLsbD k =
      if k = 0 then s.busy else if k = 1 then s.done else if k = 2 then s.err else if k = 3 then s.hacc
      else if k < 8 then false else if k < 16 then s.ecode.getLsbD (k - 8) else false := by
  simp only [statusWord, BitVec.getLsbD_append, getLsbD_bit, BitVec.getLsbD_zero]
  grind

theorem ecode_of_statusWord (s : State) : (statusWord s).extractLsb' 8 8 = s.ecode := by
  apply BitVec.eq_of_getLsbD_eq
  intro k hk
  rw [BitVec.getLsbD_extractLsb', getLsbD_statusWord, if_neg (by omega), if_neg (by omega), if_neg (by omega),
    if_neg (by omega), if_neg (by omega), if_pos (by omega), Nat.add_sub_cancel_left, decide_eq_true hk, Bool.true_and]

/-! ### The rules -/

theorem step_of_hostRead {s t : State} {o : Fin 0x50000} {bytes : Nat} {rest : List HostMove}
    (hmove : s.hostMoves = .read o bytes :: rest) (h : hostRead { s with hostMoves := rest } o.val bytes = t) :
    step s = .next t :=
  (step_read hmove).trans (congrArg _ h)

theorem step_of_hostWrite {s t : State} {o : Fin 0x50000} {bytes : Nat} {v : Word} {rest : List HostMove}
    (hmove : s.hostMoves = .write o bytes v :: rest) (h : hostWrite { s with hostMoves := rest } o.val bytes v = t) :
    step s = .next t :=
  (step_write hmove).trans (congrArg _ h)

/-- Settles O42, by the five targets and the bits of CTRL's and STATUS's words. -/
theorem hostReadsControlRegisters : Obligations.HostReadsControlRegisters := by
  refine fun s rest => ⟨fun hmove => step_read hmove, fun hmove => step_read hmove, fun hmove => step_read hmove,
    fun hmove => ⟨ctrlWord s, step_read hmove, getLsbD_ctrlWord s 2, getLsbD_ctrlWord s 3, ?ctrlZeros⟩,
    fun hmove => ⟨statusWord s, step_read hmove, getLsbD_statusWord s 0, getLsbD_statusWord s 1, getLsbD_statusWord s 2,
      getLsbD_statusWord s 3, ecode_of_statusWord s, ?statusZeros⟩⟩
  case ctrlZeros =>
    intro k h2 h3
    rw [getLsbD_ctrlWord, if_neg h2, if_neg h3]
  case statusZeros =>
    intro k hlo hhi
    rw [getLsbD_statusWord, if_neg (by omega), if_neg (by omega), if_neg (by omega), if_neg (by omega)]
    split_ifs with h8 h16
    · rfl
    · omega
    · rfl

/-- Settles O43: each offset's target is reached while idle, and a read returns what stands there. -/
theorem hostReadsWhileIdle : Obligations.HostReadsWhileIdle := by
  refine fun s rest hidle => ⟨fun hmove => ?pc, fun r o ho hmove => ?register,
    fun a o ha ho hmove => ⟨fun w hw => ?written, fun hnone => ?unwritten⟩⟩
  all_goals have hidle : State.busy { s with hostMoves := rest } = false := hidle
  case pc => exact step_of_hostRead hmove (hostRead_pc rfl hidle rfl)
  case register =>
    exact step_of_hostRead hmove (hostRead_register (by omega) hidle (hostTarget_register _ ho))
  case written =>
    exact step_of_hostRead hmove ((hostRead_lmWord (by omega) hidle (hostTarget_lmWord ha ho)).trans (readLm_written hw))
  case unwritten =>
    exact step_of_hostRead hmove ((hostRead_lmWord (by omega) hidle (hostTarget_lmWord ha ho)).trans (readLm_unwritten hnone))

/-- Settles O44: each offset's target is reached while idle, and a write changes what stands there alone. -/
theorem hostWritesWhileIdle : Obligations.HostWritesWhileIdle := by
  refine fun s rest v hidle => ⟨fun hmove => ?pc, fun r o ho hmove => ?register, fun a o ha ho hmove => ?lmWord⟩
  all_goals have hidle : State.busy { s with hostMoves := rest } = false := hidle
  case pc => exact step_of_hostWrite hmove (hostWrite_pc rfl hidle rfl v)
  case register =>
    refine ⟨setReg { s with hostMoves := rest } r v, ?_, rfl, getReg_setReg_same _ r v, fun k hk => ?_⟩
    · exact step_of_hostWrite hmove (hostWrite_register (by omega) hidle (hostTarget_register _ ho) v)
    · exact getReg_setReg_ne _ v (List.ne_of_not_mem_cons hk)
  case lmWord =>
    refine ⟨setLm { s with hostMoves := rest } (Memory.writeWord s.lm a v), ?_, rfl, readWord_writeWord_same s.lm a v,
      fun k hk => readByte_writeWord_outside s.lm v hk⟩
    exact step_of_hostWrite hmove (hostWrite_lmWord (by omega) hidle (hostTarget_lmWord ha ho) v)

/-- Settles O45: PC, the X window and the LM window are the targets that a busy engine refuses. -/
theorem busyAccessIsRefused : Obligations.BusyAccessIsRefused := by
  intro s rest o hbusy halign hwindow
  have hbusy : State.busy { s with hostMoves := rest } = true := hbusy
  have htarget : IdleOnly (hostTarget s.lmDepth o.val) := by
    obtain hpc | hx | hlm := hwindow
    · exact .inl (hpc ▸ rfl)
    · exact .inr (.inl ⟨_, hostTarget_xWindow hx⟩)
    · exact .inr (.inr ⟨_, hostTarget_lmWindow hlm⟩)
  constructor
  · intro hmove
    exact step_of_hostRead hmove (hostRead_busy hbusy halign htarget)
  · intro v hmove
    exact step_of_hostWrite hmove (hostWrite_busy hbusy halign htarget v)

/-- Settles O46: such an access is no aligned word or goes to a reserved offset, and no write reaches the three constants. -/
theorem accessNotPerformedSetsHacc : Obligations.AccessNotPerformedSetsHacc := by
  refine fun s rest o bytes => ⟨fun hrefused => ?refused, fun hconstant v hmove => ?constant⟩
  case refused =>
    have hcause : wholeWord o.val bytes = false ∨ hostTarget s.lmDepth o.val = .reserved :=
      hrefused.imp wholeWord_eq_false hostTarget_of_reserved
    constructor
    · intro hmove
      exact step_of_hostRead hmove (hostRead_refused { s with hostMoves := rest } hcause)
    · intro v hmove
      exact step_of_hostWrite hmove (hostWrite_refused { s with hostMoves := rest } (hcause.imp_right .inl) v)
  case constant =>
    have htarget : NeverWritten (hostTarget s.lmDepth o.val) := by
      obtain hid | heinfo | hparam := hconstant
      · exact .inr (.inl (hid ▸ rfl))
      · exact .inr (.inr (.inl (heinfo ▸ rfl)))
      · exact .inr (.inr (.inr (hparam ▸ rfl)))
    exact step_of_hostWrite hmove (hostWrite_refused { s with hostMoves := rest } (.inr htarget) v)

end Sys2Proof.Machine
end

section
/-! PROOF. O50 to O53: the state after reset, the invariant every step keeps (R21, R22, R37, R38), and that every run ends. -/

namespace Sys2Proof.Machine

/-! ### The invariant, part by part -/

theorem stateInv_iff (s : State) : StateInv s ↔ LmGood s.lm s.lmDepth ∧ StatusConsistent s ∧ DepthInRange s := by
  simp only [StateInv, LmGood, and_assoc]

/-- Settles O51: nothing is written yet, no status bit is set, and the depth is the reference value. -/
theorem resetMeetsTheInvariant : Obligations.ResetMeetsTheInvariant :=
  (stateInv_iff _).mpr ⟨lmGood_nil _, by decide, by decide⟩

/-- Settles O50, field by field; the last step is that of an idle engine. -/
theorem powerOnState : Obligations.PowerOnState :=
  ⟨getReg_reset, rfl, rfl, rfl, by decide, rfl, rfl, readWord_nil, (idleEngineTakesNoStep State.reset rfl).1 rfl⟩

/-- Every fault has a code of R211's table. -/
theorem ecode_range (c : FaultCode) : 1 ≤ c.ecode.toNat ∧ c.ecode.toNat ≤ 10 := by
  cases c <;> decide

/-- Fault entry keeps the invariant: BUSY excludes DONE, so DONE is 0 beside the ERR it sets (R216). -/
theorem stateInv_faulted {s : State} (h : StateInv s) (hbusy : s.busy = true) (c : FaultCode) (w : Word) :
    StateInv (faulted s c.ecode w) := by
  obtain ⟨hlm, ⟨hexclusive, -, -, -⟩, hdepth⟩ := (stateInv_iff s).mp h
  have hdone : s.done = false := (hexclusive hbusy).1
  refine (stateInv_iff _).mpr ⟨hlm, ⟨fun hb => ?_, fun hset => ?_, fun he => ?_, fun _ => ecode_range c⟩, hdepth⟩
  · exact absurd hb Bool.false_ne_true
  · exact absurd (hdone.symm.trans hset) Bool.false_ne_true
  · exact absurd he.symm Bool.false_ne_true

/-- A command of a busy engine keeps the invariant: its rule keeps LM good, and HALT sets DONE where ERR is 0. -/
theorem stateInv_exec {i : Instr} {s t : State} (h : StateInv s) (hbusy : s.busy = true) (hexec : exec i s = .next t) :
    StateInv t := by
  obtain ⟨hlm, hstatus, hdepth⟩ := (stateInv_iff s).mp h
  obtain ⟨u, hok, rfl⟩ | ⟨-, c, rfl⟩ := exec_next_cases hexec
  · have hlmu := hok.lmGood hlm
    by_cases hi : i = .halt
    · obtain rfl := hok.halted hi
      obtain ⟨hexclusive, -, hecode, herr⟩ := hstatus
      exact (stateInv_iff _).mpr ⟨hlm, ⟨by simp, fun _ => (hexclusive hbusy).2, hecode, herr⟩, hdepth⟩
    · have hcommit : advance u = _ := hok.commits hi
      rw [hcommit]
      exact (stateInv_iff _).mpr ⟨hlmu, hstatus, hdepth⟩
  · exact stateInv_faulted h hbusy c _

theorem stateInv_engineTurn {u t : State} (h : StateInv u) (hturn : EngineTurn u t) : StateInv t := by
  cases hturn with
  | idle _ ht => exact ht ▸ h
  | fetchFault hbusy _ ht => exact ht ▸ stateInv_faulted h hbusy _ _
  | illegal _ hbusy _ _ _ _ ht => exact ht ▸ stateInv_faulted h hbusy _ _
  | command _ _ hbusy _ _ _ ht => exact stateInv_exec h hbusy ht

/-! ### The host's moves -/

theorem stateInv_softReset {s : State} (h : StateInv s) : StateInv (softReset s) := by
  obtain ⟨hlm, -, hdepth⟩ := (stateInv_iff s).mp h
  exact (stateInv_iff _).mpr ⟨hlm, by simp [StatusConsistent], hdepth⟩

theorem stateInv_powerOnReset {s : State} (h : StateInv s) : StateInv (powerOnReset s) := by
  obtain ⟨-, hstatus, hdepth⟩ := (stateInv_iff _).mp (stateInv_softReset h)
  exact (stateInv_iff _).mpr ⟨lmGood_nil _, hstatus, hdepth⟩

theorem stateInv_start {s : State} (h : StateInv s) : StateInv (start s) := by
  obtain ⟨hlm, -, hdepth⟩ := (stateInv_iff s).mp h
  exact (stateInv_iff _).mpr ⟨hlm, by simp [StatusConsistent], hdepth⟩

theorem stateInv_writeCtrl {s : State} (h : StateInv s) (v : Word) : StateInv (writeCtrl s v) := by
  cases hsrst : v.getLsbD 1 with
  | true => exact writeCtrl_of_srst s hsrst ▸ stateInv_softReset h
  | false =>
    cases hstart : v.getLsbD 0 with
    | false => exact writeCtrl_of_no_start s hsrst hstart ▸ h
    | true =>
      cases hbusy : s.busy with
      | true => exact writeCtrl_of_start_busy s hsrst hstart hbusy ▸ h
      | false => exact writeCtrl_of_start_idle s hsrst hstart hbusy ▸ stateInv_start (s := { s with
          ieDone := v.getLsbD 2, ieErr := v.getLsbD 3 }) h

/-- A STATUS write only clears bits, and clears ECODE with ERR (R40, R42). -/
theorem stateInv_writeStatus {s : State} (h : StateInv s) (v : Word) : StateInv (writeStatus s v) := by
  obtain ⟨hlm, ⟨hexclusive, hdoneErr, hnoErr, herr⟩, hdepth⟩ := (stateInv_iff s).mp h
  refine (stateInv_iff _).mpr ⟨hlm, ?_, hdepth⟩
  rw [StatusConsistent, writeStatus_done, writeStatus_err, writeStatus_ecode]
  refine ⟨fun hbusy => ?busy, fun hdone => ?done, ?ecode⟩
  case busy =>
    obtain ⟨hd, he⟩ := hexclusive hbusy
    rw [hd, he, ite_self, ite_self]
    exact ⟨rfl, rfl⟩
  case done =>
    have hd : s.done = true := by
      split_ifs at hdone
      exact hdone
    rw [hdoneErr hd, ite_self]
  case ecode =>
    split_ifs
    · exact ⟨fun _ => rfl, by simp⟩
    · exact ⟨hnoErr, herr⟩

theorem lt_of_hostTarget_lm {depth o a : Nat} (h : hostTarget depth o = .lm a) : a < depth := by
  unfold hostTarget at h
  split_ifs at h
  all_goals cases h
  omega

/-- A host write keeps the invariant: what it performs on LM is a word inside LM. -/
theorem stateInv_hostWrite {s : State} (h : StateInv s) (o bytes : Nat) (v : Word) : StateInv (hostWrite s o bytes v) := by
  unfold hostWrite
  split
  · split
    · exact stateInv_writeCtrl h v
    · exact stateInv_writeStatus h v
    · split <;> exact h
    · split <;> exact h
    · rename_i a htarget
      split
      · exact h
      · obtain ⟨hlm, hrest⟩ := (stateInv_iff s).mp h
        exact (stateInv_iff _).mpr ⟨lmGood_writeWord hlm (lt_of_hostTarget_lm htarget) v, hrest⟩
    all_goals exact h
  · exact h

theorem stateInv_readLm {s : State} (h : StateInv s) (a : Nat) : StateInv (readLm s a) := by
  unfold readLm
  split <;> exact h

/-- A host read writes HACC and the model's own fields alone (R41, R71), none of which the invariant names. -/
theorem stateInv_hostRead {s : State} (h : StateInv s) (o bytes : Nat) : StateInv (hostRead s o bytes) := by
  unfold hostRead
  split
  · split
    · exact h
    · exact h
    · exact h
    · exact h
    · exact h
    · split <;> exact h
    · split <;> exact h
    · split
      · exact h
      · exact stateInv_readLm h _
    · exact h
  · exact h

theorem stateInv_hostMove {s : State} (h : StateInv s) (m : HostMove) : StateInv (hostMove m s) := by
  cases m with
  | pass => exact h
  | read o bytes => exact stateInv_hostRead h o.val bytes
  | write o bytes v => exact stateInv_hostWrite h o.val bytes v
  | powerOn => exact stateInv_powerOnReset h

/-- Settles O52: the host's moves and the engine's turn keep the invariant, which does not name the list of moves. -/
theorem stepKeepsTheInvariant : Obligations.StepKeepsTheInvariant := by
  intro s t h hstep
  obtain ⟨m, rest, -, -, rfl⟩ | ⟨-, hturn⟩ | ⟨rest, -, hturn⟩ := step_cases hstep
  · exact stateInv_hostMove (s := { s with hostMoves := rest }) h m
  · exact stateInv_engineTurn h hturn
  · exact stateInv_engineTurn (u := { s with hostMoves := rest }) h hturn

/-! ### Runs -/

theorem run_of_idle {s : State} (hidle : s.busy = false) (hmoves : s.hostMoves = []) (k : Nat) : run k s = .next s := by
  induction k with
  | zero => exact run_zero s
  | succ k ih => rw [run_of_next ((idleEngineTakesNoStep s hidle).1 hmoves), ih]

theorem step_ne_refused {s : State} (hmoves : s.hostMoves = []) (r : Refusal) : step s ≠ .refused r := by
  rw [step_of_no_moves hmoves]
  unfold engineTurn
  split_ifs with hbusy
  · cases fetch s with
    | error e => cases e <;> simp
    | ok w =>
      cases hdecode : decode w with
      | error e => simp [hdecode]
      | ok i =>
        simp only [hdecode]
        exact exec_ne_refused i s r
  · simp

/-- PC inside LM does not wrap around. -/
theorem toNat_pc_succ {p : Word} {depth : Nat} (hp : p.toNat < depth) (hdepth : depth ≤ 65536) :
    (p + 1#32).toNat = p.toNat + 1 := by
  rw [BitVec.toNat_add, BitVec.toNat_ofNat]
  omega

/-- A run that begins busy ends idle within as many steps as words are left above PC, and one for a FETCH fault. -/
theorem run_ends {n : Nat} {s : State} (hdepth : s.lmDepth ≤ 65536) (hmoves : s.hostMoves = [])
    (hn : s.busy = true → s.lmDepth - s.pc.toNat + 1 ≤ n) :
    (∀ t, run n s = .next t → t.busy = false) ∧ ∀ r, run n s ≠ .refused r := by
  induction n generalizing s with
  | zero =>
    have hidle : s.busy = false := by
      cases hbusy : s.busy with
      | false => rfl
      | true => exact absurd (hn hbusy) (by omega)
    rw [run_of_idle hidle hmoves]
    exact ⟨fun t ht => by cases ht; exact hidle, by simp⟩
  | succ n ih =>
    cases hstep : step s with
    | refused r => exact absurd hstep (step_ne_refused hmoves r)
    | fault f =>
      rw [run_of_fault hstep]
      simp
    | next s' =>
      have hturn := engineTurn_cases ((step_of_no_moves hmoves).symm.trans hstep)
      have hframe := engineTurn_frame hturn
      rw [run_of_next hstep]
      have hmoves' : s'.hostMoves = [] := by rw [hframe]; exact hmoves
      have hdepth' : s'.lmDepth = s.lmDepth := by rw [hframe]
      refine ih (hdepth' ▸ hdepth) hmoves' fun hbusy' => ?_
      obtain ⟨hpc, hbusy, hinside⟩ | ⟨-, hidle⟩ := engineTurn_pc hturn
      · have hleft := hn hbusy
        rw [hdepth', hpc, toNat_pc_succ hinside hdepth]
        omega
      · exact absurd (hidle.symm.trans hbusy') Bool.false_ne_true

/-- Settles O53: each step of a busy engine ends idle, or leaves one word fewer above PC. -/
theorem everyRunEnds : Obligations.EveryRunEnds :=
  fun _ hdepth _ hmoves => run_ends hdepth.2 hmoves fun _ => le_rfl

end Sys2Proof.Machine
end

section
/-! PROOF. O19, O36 to O41: the frames of the commands. A fault leaves LM and the registers, so a command leaves what its commit
leaves; each commit is one of a few shapes of writes. -/

namespace Sys2Proof.Machine

/-! ### Commits and faults apart -/

/-- What holds after the commit and after every fault of a command holds after the command. -/
theorem next_of_finish {i : Instr} {s t : State} {body : Except Stop State} {P : State → Prop}
    (hcommit : ∀ u, body = .ok u → P (advance u)) (hfault : ∀ c, P (takeFault c (encode i) s))
    (h : finish i s body = .next t) : P t := by
  obtain ⟨u, hbody, rfl⟩ | ⟨c, -, rfl⟩ := finish_eq_next.mp h
  · exact hcommit u hbody
  · exact hfault c

/-- LM outside one window and the registers but the written ones are as before. -/
def KeptBut (s : State) (d : Word) (written : List Reg) (t : State) : Prop :=
  LmKeptOutside s t d ∧ RegsKept s t written

theorem keptBut_takeFault (s : State) (d : Word) (written : List Reg) (c : FaultCode) (w : Word) :
    KeptBut s d written (takeFault c w s) := ⟨fun _ _ => rfl, fun _ _ => rfl⟩

theorem lmKeptOutside_writeCanon {s : State} {d : Word} {v : Nat} (hv : limbs v ≤ len d) :
    LmKeptOutside s (writeCanon s d v) d :=
  fun _ hk => readByte_writeCanonMem_outside s.lm hv hk

theorem lmKeptOutside_writeRaw (s : State) (d : Word) (v : Nat) : LmKeptOutside s (writeRaw s d v) d :=
  fun _ hk => readByte_memWrite_outside s.lm v hk

/-! ### The pseudo-instruction LI -/

/-- Settles O19: LIL leaves the low half, which LIH keeps under the high half. -/
theorem liLoadsAnyWord : Obligations.LiLoadsAnyWord := by
  intro s rd v
  refine ⟨_, _, _, _, rfl, exec_lil rd _ s, exec_lih rd _ _, ?value, ?regs, ?frame⟩
  case value =>
    rw [getReg_advance, getReg_setReg_same, getReg_advance, getReg_setReg_same, extractLow_append, append_halves]
  case regs =>
    intro r hr
    have hne := List.ne_of_not_mem_cons hr
    rw [getReg_advance, getReg_setReg_ne _ _ hne, getReg_advance, getReg_setReg_ne _ _ hne]
  case frame =>
    have hpc : s.pc + 1#32 + 1#32 = s.pc + 2#32 := BitVec.add_assoc s.pc 1#32 1#32
    rw [← hpc]
    rfl

/-! ### The frames -/

/-- Settles O36, by the states NOP and HALT commit. -/
theorem frameOfNopAndHalt : Obligations.FrameOfNopAndHalt := by
  intro s t i hi hexec
  obtain rfl | rfl := hi
  · rw [exec_nop] at hexec
    cases hexec
    exact ⟨rfl, fun _ => ⟨rfl, rfl⟩⟩
  · rw [exec_halt] at hexec
    cases hexec
    exact ⟨rfl, fun h => by cases h⟩

/-- A commit with one register written leaves LM and the other registers. -/
theorem kept_of_setReg {i : Instr} {s t : State} {r : Reg} {v : Word} (h : exec i s = .next t)
    (hset : exec i s = .next (advance (setReg s r v))) : LmKept s t ∧ RegsKept s t [r] := by
  rw [hset] at h
  cases h
  exact ⟨fun _ => rfl, regsKept_advance_setReg s r v⟩

/-- Settles O37: each of the five writes one register, if it commits. -/
theorem frameOfRegisterCommands : Obligations.FrameOfRegisterCommands := by
  intro s t rd ra imm i hi hexec
  rw [← and_assoc]
  obtain rfl | rfl | rfl | rfl | rfl := hi
  · exact ⟨kept_of_setReg hexec (exec_lil rd imm s), commitsOrFaults_of_exec (by simp) hexec⟩
  · exact ⟨kept_of_setReg hexec (exec_lih rd imm s), commitsOrFaults_of_exec (by simp) hexec⟩
  · exact ⟨kept_of_setReg hexec (exec_mov rd ra s), commitsOrFaults_of_exec (by simp) hexec⟩
  · exact ⟨kept_of_setReg hexec (exec_clz rd ra s), commitsOrFaults_of_exec (by simp) hexec⟩
  · refine ⟨?_, commitsOrFaults_of_exec (by simp) hexec⟩
    rw [exec_lzca] at hexec
    refine next_of_finish (P := fun t => LmKept s t ∧ RegsKept s t [rd]) (fun u hbody => ?_)
      (fun _ => ⟨fun _ => rfl, fun _ _ => rfl⟩) hexec
    obtain ⟨-, v, -, rfl⟩ := lzcaBody_ok.mp hbody
    exact ⟨fun _ => rfl, regsKept_advance_setReg s rd _⟩

theorem keptBut_of_shiftBody {i : Instr} {s t : State} {rd ra : Reg} {k : Int}
    (h : finish i s (shiftBody rd ra k s) = .next t) : KeptBut s (getReg s rd) [rd] t := by
  refine next_of_finish (fun u hbody => ?_) (fun _ => keptBut_takeFault ..) h
  obtain ⟨-, -, m, v, -, -, hfit, rfl⟩ := shiftBody_ok.mp hbody
  exact ⟨lmKeptOutside_writeCanon hfit, regsKept_advance_setReg_setLm _ _ _ _⟩

/-- Settles O38: each of the three writes its result canonically through x[rd], where it fits, and then x[rd]. -/
theorem frameOfCanonicalCommands : Obligations.FrameOfCanonicalCommands := by
  intro s t rd ra rb i hi hexec
  rw [← and_assoc]
  obtain rfl | rfl | rfl := hi
  · refine ⟨?_, commitsOrFaults_of_exec (by simp) hexec⟩
    rw [exec_mul] at hexec
    refine next_of_finish (fun u hbody => ?_) (fun _ => keptBut_takeFault ..) hexec
    obtain ⟨-, -, -, a, b, -, -, hcap, rfl⟩ := mulBody_ok.mp hbody
    exact ⟨lmKeptOutside_writeCanon ((limbs_mul_le a b).trans hcap), regsKept_advance_setReg_setLm _ _ _ _⟩
  · exact ⟨keptBut_of_shiftBody (exec_shl rd ra rb s ▸ hexec), commitsOrFaults_of_exec (by simp) hexec⟩
  · exact ⟨keptBut_of_shiftBody (exec_shr rd ra rb s ▸ hexec), commitsOrFaults_of_exec (by simp) hexec⟩

/-- Settles O39: each of the two writes x[ra]'s window at its own width, and then x[rd]. -/
theorem frameOfInPlaceCommands : Obligations.FrameOfInPlaceCommands := by
  intro s t rd ra rb rc i hi hexec
  rw [← and_assoc]
  obtain rfl | rfl := hi
  · refine ⟨?_, commitsOrFaults_of_exec (by simp) hexec⟩
    rw [exec_muladd1] at hexec
    refine next_of_finish (fun u hbody => ?_) (fun _ => keptBut_takeFault ..) hexec
    obtain ⟨-, d, -, rfl⟩ := muladd1Body_ok.mp hbody
    exact ⟨lmKeptOutside_writeRaw _ _ _, regsKept_advance_setReg_setLm _ _ _ _⟩
  · refine ⟨?_, commitsOrFaults_of_exec (by simp) hexec⟩
    rw [exec_divrem1] at hexec
    refine next_of_finish (fun u hbody => ?_) (fun _ => keptBut_takeFault ..) hexec
    obtain ⟨-, -, u', -, rfl⟩ := divrem1Body_ok.mp hbody
    exact ⟨lmKeptOutside_writeRaw _ _ _, regsKept_advance_setReg_setLm _ _ _ _⟩

/-- Settles O40: NORM writes x[rd]'s window and no register, SAR the window, x[rd] and x[rc]. -/
theorem frameOfNormAndSar : Obligations.FrameOfNormAndSar := by
  intro s t rd ra rb rc i hi hexec
  rw [← and_assoc]
  obtain rfl | rfl := hi
  · refine ⟨?_, commitsOrFaults_of_exec (by simp) hexec⟩
    rw [exec_norm] at hexec
    rw [if_pos rfl]
    refine next_of_finish (fun u hbody => ?_) (fun _ => keptBut_takeFault ..) hexec
    obtain ⟨-, -, -, -, m, -, -, rfl⟩ := normBody_ok.mp hbody
    exact ⟨lmKeptOutside_writeRaw _ _ _, fun _ _ => rfl⟩
  · refine ⟨?_, commitsOrFaults_of_exec (by simp) hexec⟩
    rw [exec_sar] at hexec
    rw [if_neg (by simp)]
    refine next_of_finish (fun u hbody => ?_) (fun _ => keptBut_takeFault ..) hexec
    obtain ⟨-, -, m, w, -, -, -, hfit, rfl⟩ := sarBody_ok.mp hbody
    exact ⟨lmKeptOutside_writeCanon hfit, regsKept_advance_setReg_setReg_setLm _ _ _ _ _ _⟩

/-- Settles O41: DIVMOD writes two results canonically, each where it fits, and then their registers. -/
theorem frameOfDivmod : Obligations.FrameOfDivmod := by
  intro s t rd ra rb rc hexec
  rw [← and_assoc]
  refine ⟨?_, commitsOrFaults_of_exec (by simp) hexec⟩
  rw [exec_divmod] at hexec
  obtain ⟨u, hbody, rfl⟩ | ⟨c, -, rfl⟩ := finish_eq_next.mp hexec
  · obtain ⟨-, -, -, -, -, u, v, -, -, hv, hq, hr, rfl⟩ := divmodBody_ok.mp hbody
    have hv0 : v ≠ 0 := limbs_eq_zero.not.mp hv
    refine ⟨fun k hQ hR => ?_, regsKept_advance_setReg_setReg_setLm _ _ _ _ _ _⟩
    calc _ = Memory.readByte (writeCanonMem s.lm (getReg s rd) (u / v)) k :=
          readByte_writeCanonMem_outside _ ((limbs_mod_le hv0).trans hr) hR
      _ = Memory.readByte s.lm k := readByte_writeCanonMem_outside s.lm ((limbs_div_le_quotientNeed hv0).trans hq) hQ
  · exact ⟨fun _ _ _ => rfl, fun _ _ => rfl⟩

end Sys2Proof.Machine
end

section
/-! PROOF. O22, O23, O26, O33, O34, O35, O60: laws of the commands against each other (R127, R129, R160, R174, R190), and the
stop at an unwritten source word (R22, R222). A law speaks of commits, or of two commands whose rules are one. -/

namespace Sys2Proof.Machine

/-! ### A rule stops where its source cannot be read -/

/-- A rule stops with the value it cannot read. -/
theorem bind_of_error {α β : Type} {x : Except Stop α} {e : Stop} (h : x = .error e) (f : α → Except Stop β) :
    (x >>= f) = .error e := by
  rw [h]
  rfl

section Unreadable

variable {rd ra rb rc : Reg} {s : State} {e : Stop} (hX : InBounds s (getReg s ra))
include hX

theorem lzcaBody_of_unreadable (hread : val s (getReg s ra) = .error e) : lzcaBody rd ra s = .error e := by
  simp only [lzcaBody, checkBounds_bind, if_pos hX, bind_of_error hread]

theorem muladd1Body_of_unreadable (hread : val s (getReg s ra) = .error e) : muladd1Body rd ra rb rc s = .error e := by
  simp only [muladd1Body, checkBounds_bind, if_pos hX, bind_of_error hread]

/-- DIVREM1 reads D once its divisor is known not to be 0 (R150). -/
theorem divrem1Body_of_unreadable (hv : (getReg s rb).toNat ≠ 0) (hread : val s (getReg s ra) = .error e) :
    divrem1Body rd ra rb s = .error e := by
  simp only [divrem1Body, checkBounds_bind, need_bind, if_pos hX, if_pos hv, bind_of_error hread]

variable (hZ : InBounds s (getReg s rd))
include hZ

theorem shiftBody_of_unreadable {k : Int} (hread : val s (getReg s ra) = .error e) : shiftBody rd ra k s = .error e := by
  simp only [shiftBody, checkBounds_bind, if_pos hX, if_pos hZ, bind_of_error hread]

theorem sarBody_of_unreadable (hread : val s (getReg s ra) = .error e) : sarBody rd ra rb rc s = .error e := by
  simp only [sarBody, checkBounds_bind, if_pos hX, if_pos hZ, bind_of_error hread]

/-- NORM reads S once its amount and its two lengths have passed (R175). -/
theorem normBody_of_unreadable (hk : (getReg s rb).toNat < 32)
    (hlen : len (getReg s rd) = len (getReg s ra) ∨ len (getReg s rd) = len (getReg s ra) + 1)
    (hread : val s (getReg s ra) = .error e) : normBody rd ra rb s = .error e := by
  simp only [normBody, checkBounds_bind, need_bind, if_pos hX, if_pos hZ, if_pos hk, if_pos hlen, bind_of_error hread]

variable (hY : InBounds s (getReg s rb))
include hY

/-- MUL reads X before Y (R121). -/
theorem mulBody_of_unreadable
    (hread : val s (getReg s ra) = .error e ∨ (∃ u, val s (getReg s ra) = .ok u) ∧ val s (getReg s rb) = .error e) :
    mulBody rd ra rb s = .error e := by
  obtain hx | ⟨⟨u, hu⟩, hy⟩ := hread
  · simp only [mulBody, checkBounds_bind, if_pos hX, if_pos hY, if_pos hZ, bind_of_error hx]
  · simp only [mulBody, checkBounds_bind, if_pos hX, if_pos hY, if_pos hZ, bind_of_ok hu, bind_of_error hy]

/-- DIVMOD reads X before Y, after the bounds and the overlap of its destinations (R142). -/
theorem divmodBody_of_unreadable (hR : InBounds s (getReg s rc)) (hapart : ¬ Overlap (getReg s rd) (getReg s rc))
    (hread : val s (getReg s ra) = .error e ∨ (∃ u, val s (getReg s ra) = .ok u) ∧ val s (getReg s rb) = .error e) :
    divmodBody rd ra rb rc s = .error e := by
  obtain hx | ⟨⟨u, hu⟩, hy⟩ := hread
  · simp only [divmodBody, checkBounds_bind, need_bind, if_pos hX, if_pos hY, if_pos hZ, if_pos hR, if_pos hapart,
      bind_of_error hx]
  · simp only [divmodBody, checkBounds_bind, need_bind, if_pos hX, if_pos hY, if_pos hZ, if_pos hR, if_pos hapart,
      bind_of_ok hu, bind_of_error hy]

end Unreadable

/-- Settles O60: the read stops at the first unwritten word, and each rule with it, once the checks before it have passed. -/
theorem unwrittenSourceStops : Obligations.UnwrittenSourceStops := by
  intro s rd ra rb rc a
  refine ⟨fun hfirst hX => ⟨?lzca, ?muladd1, fun hY => ?divrem1, fun hZ => ⟨?shl, ?shr, ?sar, fun hk hlen => ?norm⟩⟩,
    fun hfirst hX hY hZ => ⟨?mul, fun hR hnoshare => ?divmod⟩⟩
  case lzca => exact finish_eq_fault.mpr (lzcaBody_of_unreadable hX (val_of_firstUnwritten hfirst))
  case muladd1 => exact finish_eq_fault.mpr (muladd1Body_of_unreadable hX (val_of_firstUnwritten hfirst))
  case divrem1 =>
    have hv : (getReg s rb).toNat ≠ 0 := fun h => hY (BitVec.eq_of_toNat_eq h)
    exact finish_eq_fault.mpr (divrem1Body_of_unreadable hX hv (val_of_firstUnwritten hfirst))
  case shl => exact finish_eq_fault.mpr (shiftBody_of_unreadable hX hZ (val_of_firstUnwritten hfirst))
  case shr => exact finish_eq_fault.mpr (shiftBody_of_unreadable hX hZ (val_of_firstUnwritten hfirst))
  case sar => exact finish_eq_fault.mpr (sarBody_of_unreadable hX hZ (val_of_firstUnwritten hfirst))
  case norm => exact finish_eq_fault.mpr (normBody_of_unreadable hX hZ hk hlen (val_of_firstUnwritten hfirst))
  all_goals
    have hread : val s (getReg s ra) = .error (.model (.readUnwritten a)) ∨
        (∃ u, val s (getReg s ra) = .ok u) ∧ val s (getReg s rb) = .error (.model (.readUnwritten a)) :=
      hfirst.imp val_of_firstUnwritten (And.imp_right val_of_firstUnwritten)
  case mul => exact finish_eq_fault.mpr (mulBody_of_unreadable hX hZ hY hread)
  case divmod =>
    exact finish_eq_fault.mpr (divmodBody_of_unreadable hX hZ hY hR ((overlap_iff _ _).not.mpr hnoshare) hread)

/-! ### Laws of a commit -/

/-- A fault sets ERR, so a command that leaves ERR 0 has committed (R216). -/
theorem commit_of_no_err {i : Instr} {s t : State} {body : Except Stop State} (herr : t.err = false)
    (h : finish i s body = .next t) : ∃ u, body = .ok u ∧ t = advance u := by
  obtain hcommit | ⟨c, -, rfl⟩ := finish_eq_next.mp h
  · exact hcommit
  · exact absurd herr.symm Bool.false_ne_true

/-- Settles O22: the window takes the sum's low limbs and x[rd] the rest of it. -/
theorem muladd1LosesNothing : Obligations.Muladd1LosesNothing := by
  intro s t rd ra rb rc d hd _ herr hexec
  obtain ⟨u, hbody, rfl⟩ := commit_of_no_err herr hexec
  obtain ⟨-, d', hd', rfl⟩ := muladd1Body_ok.mp hbody
  obtain rfl : d = d' := Except.ok.inj (hd.symm.trans hd')
  refine ⟨_, memRead_memWrite s.lm _ _ _, ?_⟩
  rw [getReg_advance, getReg_setReg_same, toNat_carry hd, Nat.mod_mod, Nat.div_add_mod']

/-- A descriptor of a canonical result reads it back (R69). -/
theorem val_of_isResultOf {s : State} {r d : Word} {v : Nat} (hr : IsResultOf r d v) (hd : HoldsCanon s d v) :
    val s r = .ok v := by
  obtain ⟨hbase, hlen⟩ := hr
  rw [val, hbase, hlen]
  exact hd.1

/-- Settles O26: both commands leave Nat's quotient and remainder, which their windows and registers hold whole. -/
theorem divisionIsExact : Obligations.DivisionIsExact := by
  refine ⟨fun s t rd ra rb rc hne _ herr hexec => ?divmod, fun s t rd ra rb _ herr hexec => ?divrem1⟩
  case divmod =>
    obtain ⟨u, hbody, rfl⟩ := commit_of_no_err herr hexec
    obtain ⟨-, -, -, -, hapart, x, y, hx, hy, hy0, hq, hr, rfl⟩ := divmodBody_ok.mp hbody
    have hy0 : y ≠ 0 := limbs_eq_zero.not.mp hy0
    obtain ⟨t, hnext, -, -, -, hholdsQ, hholdsR, hresultQ, hresultR⟩ := commit_of_writeCanon_writeCanon
      ((limbs_div_le_quotientNeed hy0).trans hq) ((limbs_mod_le hy0).trans hr) hapart hexec
    obtain rfl := Host.Outcome.next.inj (hexec.symm.trans hnext)
    exact ⟨x, y, x / y, x % y, hx, hy, val_of_isResultOf (hresultQ hne) hholdsQ, val_of_isResultOf hresultR hholdsR,
      Nat.div_add_mod' x y, Nat.mod_lt x (Nat.pos_of_ne_zero hy0), (hresultQ hne).2, hresultR.2⟩
  case divrem1 =>
    obtain ⟨u, hbody, rfl⟩ := commit_of_no_err herr hexec
    obtain ⟨-, hv, d, hd, rfl⟩ := divrem1Body_ok.mp hbody
    refine ⟨d, d / (getReg s rb).toNat, hd, ?window, ?exact, ?below⟩
    case window =>
      have hread := memRead_memWrite s.lm (base (getReg s ra)) (len (getReg s ra)) (d / (getReg s rb).toNat)
      rwa [div_mod_window hd] at hread
    all_goals rw [getReg_advance, getReg_setReg_same, toNat_remainder d hv]
    case exact => exact Nat.div_add_mod' d _
    case below => exact Nat.mod_lt d (Nat.pos_of_ne_zero hv)

/-! ### Commands with one rule -/

/-- Two commands with one rule answer alike, but for the EINFO of a fault. -/
theorem next_of_same_body {i j : Instr} {s t : State} {body : Except Stop State} (h : finish i s body = .next t) :
    ∃ u, finish j s body = .next u ∧ u.lm = t.lm ∧ u.x = t.x ∧ u.pc = t.pc ∧ u.ecode = t.ecode := by
  obtain ⟨u, hbody, rfl⟩ | ⟨c, hbody, rfl⟩ := finish_eq_next.mp h
  · exact ⟨_, finish_of_ok hbody, rfl, rfl, rfl, rfl⟩
  · exact ⟨_, finish_eq_next.mpr (.inr ⟨c, hbody, rfl⟩), rfl, rfl, rfl, rfl⟩

/-- Where both sources can be read, or a window passes LM, MUL's rule is the same with its sources exchanged. -/
theorem mulBody_comm {rd ra rb : Reg} {s : State} (h : ∀ f, mulBody rd ra rb s ≠ .error (.model f)) :
    mulBody rd rb ra s = mulBody rd ra rb s := by
  by_cases hin : InBounds s (getReg s ra) ∧ InBounds s (getReg s rb) ∧ InBounds s (getReg s rd)
  · obtain ⟨hX, hY, hZ⟩ := hin
    cases ha : val s (getReg s ra) with
    | error e =>
      obtain ⟨a, -, -, -, rfl⟩ := val_error ha
      exact absurd (mulBody_of_unreadable hX hZ hY (.inl ha)) (h _)
    | ok a =>
      cases hb : val s (getReg s rb) with
      | error e =>
        obtain ⟨b, -, -, -, rfl⟩ := val_error hb
        exact absurd (mulBody_of_unreadable hX hZ hY (.inr ⟨⟨a, ha⟩, hb⟩)) (h _)
      | ok b =>
        simp only [mulBody, checkBounds_bind, if_pos hX, if_pos hY, if_pos hZ, bind_of_ok ha, bind_of_ok hb,
          Nat.mul_comm b a, Nat.add_comm (limbs b)]
  · rw [mulBody_bounds hin, mulBody_bounds fun ⟨hY, hX, hZ⟩ => hin ⟨hX, hY, hZ⟩]

/-- Settles O23: a MUL that answers has read both sources, so its rule is the exchanged one's. -/
theorem mulCommutes : Obligations.MulCommutes := by
  intro s t rd ra rb hexec
  rw [exec_mul] at hexec
  have hread : ∀ f, mulBody rd ra rb s ≠ .error (.model f) := fun f hf => by
    rw [finish_eq_fault.mpr hf] at hexec
    cases hexec
  rw [exec_mul, mulBody_comm hread]
  exact next_of_same_body hexec

/-- Settles O33: the two amounts are each other's negatives, so SHL and SHR have one rule. -/
theorem shlIsShrByTheNegative : Obligations.ShlIsShrByTheNegative := by
  intro s t rd ra rb rb' hneg hmin hexec
  have hamount : -(getReg s rb').toInt = (getReg s rb).toInt := by
    rw [hneg, BitVec.toInt_neg_of_ne_intMin hmin, neg_neg]
  rw [exec_shl] at hexec
  rw [exec_shr, hamount]
  exact next_of_same_body hexec

/-- The sign of a magnitude (R184). -/
theorem signWord_natCast (v : Nat) : signWord v = if v = 0 then 0#32 else 1#32 := by
  split_ifs with hv
  · rw [hv]; decide
  · rw [signWord, Int.sign_eq_one_of_pos (by omega)]; decide

/-- SAR of a positive magnitude shifts it as SHR does (R184, R182). -/
theorem signed_shift_of_positive (m : Nat) (k : Int) :
    (if 0 ≤ k then (1 * m : Int) / 2 ^ k.toNat else 1 * m * 2 ^ (-k).toNat) =
      ((if 0 ≤ -k then m * 2 ^ (-k).toNat else m / 2 ^ (- -k).toNat : Nat) : Int) := by
  rw [← shiftRight_eq_shiftLeft_neg]
  split_ifs
  all_goals
    push_cast
    rw [one_mul]

/-- Settles O34: SAR passes its sign check and shifts the same magnitude to the same result, whose sign it writes last. -/
theorem sarOfPositiveIsShr : Obligations.SarOfPositiveIsShr := by
  intro s t rd ra rb rc m hne hsign hm hm0 hexec _ herr
  obtain ⟨u, hbody, rfl⟩ := commit_of_no_err herr hexec
  obtain ⟨hX, hZ, m', v, hm', hv, hfit, rfl⟩ := shiftBody_ok.mp hbody
  obtain rfl : m = m' := Except.ok.inj (hm.symm.trans hm')
  have hone : s32 (getReg s rc) = 1 := by rw [hsign]; decide
  have hgood : GoodSign (s32 (getReg s rc)) m := by rw [hone]; exact ⟨by simp, by simp [hm0]⟩
  have hw : (v : Int) = if 0 ≤ s32 (getReg s rb) then (s32 (getReg s rc) * m) / 2 ^ (s32 (getReg s rb)).toNat
      else s32 (getReg s rc) * m * 2 ^ (- s32 (getReg s rb)).toNat := by
    rw [hone, signed_shift_of_positive, hv]
  have hsar := sarBody_ok.mpr ⟨hX, hZ, m, v, hm, hgood, hw, hfit, rfl⟩
  refine ⟨_, (exec_sar rd ra rb rc s).trans (finish_of_ok hsar), rfl, rfl, fun r hr => ?regs, ?sign⟩
  case regs => exact getReg_setReg_ne _ _ (List.ne_of_not_mem_cons hr)
  case sign =>
    rw [getReg_advance, getReg_setReg_same, getReg_advance, getReg_setReg_same, signWord_natCast, len_canonDesc hfit]
    simp only [limbs_eq_zero]

theorem memRead_one {m : Memory} {a : Nat} {w : Word} (h : Memory.readWord m a = some w) : memRead m a 1 = .ok w.toNat := by
  simp [memRead, h]

/-- Settles O35: the one-limb window has the limb's value, and both counts are 32 less its bit length. -/
theorem lzcaOfOneLimbIsClz : Obligations.LzcaOfOneLimbIsClz := by
  intro s t rd ra rb hlen hin hword hexec
  have hA : InBounds s (getReg s ra) := by rw [InBounds, hlen]; exact hin
  have hval : val s (getReg s ra) = .ok (getReg s rb).toNat := by rw [val, hlen]; exact memRead_one hword
  have hbody := (lzcaBody_ok (rd := rd)).mpr ⟨hA, _, hval, rfl⟩
  rw [← hexec, exec_clz, exec_lzca, finish_of_ok hbody, hlen]
  rfl

end Sys2Proof.Machine
end

section
/-! PROOF. O54 to O57: the four informative algorithms (R125, R145, R151, R177) compute the values of the rules. Each loop keeps
an equation between the value of what it has written and of what it has read. -/

namespace Sys2Proof.Machine

/-! ### The schoolbook product (R125) -/

theorem schoolbookLoop_succ (x y z : List Word) (i : Nat) : schoolbookLoop x y (i + 1) z =
    schoolbookLoop x y i (schoolbookRow (limbAt x i) y i y.length 0 z) := rfl

/-- The rows from i down add the first i digits of x times y, each at its weight, while z[0] .. z[i-1] are 0. -/
theorem limbsValue_schoolbookLoop {x y : List Word} {i : Nat} {z : List Word} (hi : i ≤ x.length)
    (hz : z.length = x.length + y.length) (hzero : ∀ k < i, limbAt z k = 0) :
    limbsValue (schoolbookLoop x y i z) =
      limbsValue z + limbsValue (x.take i) * limbsValue y * 2 ^ (32 * (x.length - i)) := by
  induction i generalizing z with
  | zero => simp [schoolbookLoop]
  | succ i ih =>
    obtain ⟨hlength, hkept, hvalue⟩ := schoolbookRow_spec (limbAt_lt x i) rfl hi y.length 0 z le_rfl (by norm_num) hz
      (hzero i (Nat.lt_succ_self i))
    have hzero' : ∀ k < i, limbAt (schoolbookRow (limbAt x i) y i y.length 0 z) k = 0 := fun k hk =>
      (hkept k hk).trans (hzero k (Nat.lt_succ_of_lt hk))
    have hweight : x.length + y.length - 1 - (i + y.length) = x.length - (i + 1) := by omega
    have hnext : x.length - i = x.length - (i + 1) + 1 := by omega
    rw [schoolbookLoop_succ, ih (Nat.le_of_succ_le hi) hlength hzero', hvalue, limbsValue_take_succ x hi, hweight, hnext,
      List.take_length, Nat.mul_succ, pow_add]
    ring

theorem limbAt_replicate_zero (n k : Nat) : limbAt (List.replicate n 0#32) k = 0 := by
  rw [limbAt, List.getD_eq_getElem?_getD, List.getElem?_getD_replicate_default_eq]
  rfl

/-- Settles O54: all rows together add x times y to an array of zeros, and trimming keeps the value. -/
theorem schoolbookIsTheProduct : Obligations.SchoolbookIsTheProduct := by
  intro x y
  have hvalue : limbsValue (schoolbook x y) = limbsValue x * limbsValue y := by
    rw [schoolbook, limbsValue_trimLimbs, limbsValue_schoolbookLoop le_rfl (List.length_replicate ..)
      fun k _ => limbAt_replicate_zero _ k]
    simp
  refine ⟨hvalue, ?_⟩
  rw [← hvalue, schoolbook, length_trimLimbs, limbsValue_trimLimbs]

/-! ### Division digit by digit (R151, R145) -/

/-- A quotient taken high part first: the high part's quotient, then that of its remainder with the low part. -/
theorem div_high_low (c b low : Nat) {v : Nat} (hv : 0 < v) :
    (c * b + low) / v = c / v * b + (c % v * b + low) / v := by
  have hsplit : c * b + low = c % v * b + low + c / v * b * v := by
    conv_lhs => rw [← Nat.div_add_mod' c v]
    ring
  rw [hsplit, Nat.add_mul_div_right _ _ hv, Nat.add_comm]

theorem mod_high_low (c b low v : Nat) : (c * b + low) % v = (c % v * b + low) % v :=
  ((Nat.mod_modEq c v).symm.mul_right b).add_right low

/-- A digit that is taken from a remainder below the divisor is one limb. -/
theorem toNat_digit {rem v d : Nat} (hrem : rem < v) (hd : d < 2 ^ 32) :
    (BitVec.ofNat 32 ((rem * 2 ^ 32 + d) / v)).toNat = (rem * 2 ^ 32 + d) / v := by
  rw [BitVec.toNat_ofNat]
  refine Nat.mod_eq_of_lt ((Nat.div_lt_iff_lt_mul (Nat.zero_lt_of_lt hrem)).mpr ?_)
  calc rem * 2 ^ 32 + d < (rem + 1) * 2 ^ 32 := by omega
    _ ≤ v * 2 ^ 32 := Nat.mul_le_mul_right _ hrem
    _ = 2 ^ 32 * v := Nat.mul_comm ..

theorem shortDivide_cons_fst (v rem : Nat) (d : Word) (rest : List Word) : (shortDivide v rem (d :: rest)).1 =
    BitVec.ofNat 32 ((rem * 2 ^ 32 + d.toNat) / v) :: (shortDivide v ((rem * 2 ^ 32 + d.toNat) % v) rest).1 := rfl

theorem shortDivide_cons_snd (v rem : Nat) (d : Word) (rest : List Word) : (shortDivide v rem (d :: rest)).2 =
    (shortDivide v ((rem * 2 ^ 32 + d.toNat) % v) rest).2 := rfl

@[simp] theorem length_shortDivide (v rem : Nat) (data : List Word) : (shortDivide v rem data).1.length = data.length := by
  induction data generalizing rem with
  | nil => rfl
  | cons d rest ih => rw [shortDivide_cons_fst, List.length_cons, ih, List.length_cons]

/-- The value of an array of n + 1 limbs with a running remainder in front of it. -/
theorem value_with_remainder (rem : Nat) (d : Word) {rest : List Word} {n : Nat} (hn : rest.length = n) :
    rem * 2 ^ (32 * (n + 1)) + limbsValue (d :: rest) = (rem * 2 ^ 32 + d.toNat) * 2 ^ (32 * n) + limbsValue rest := by
  rw [limbsValue_cons, hn, Nat.mul_succ, pow_add]
  ring

/-- The scan divides the running remainder and the array after it. -/
theorem shortDivide_value {v rem : Nat} {data : List Word} (hrem : rem < v) :
    limbsValue (shortDivide v rem data).1 = (rem * 2 ^ (32 * data.length) + limbsValue data) / v ∧
      (shortDivide v rem data).2 = (rem * 2 ^ (32 * data.length) + limbsValue data) % v := by
  induction data generalizing rem with
  | nil => simp [shortDivide, Nat.div_eq_of_lt hrem, Nat.mod_eq_of_lt hrem]
  | cons d rest ih =>
    have hv : 0 < v := Nat.zero_lt_of_lt hrem
    obtain ⟨hquotient, hremainder⟩ := ih (Nat.mod_lt (rem * 2 ^ 32 + d.toNat) hv)
    rw [List.length_cons, value_with_remainder _ _ rfl, div_high_low _ _ _ hv]
    constructor
    · rw [shortDivide_cons_fst, limbsValue_cons, length_shortDivide, toNat_digit hrem d.isLt, hquotient]
    · rw [shortDivide_cons_snd, hremainder, ← mod_high_low]

/-- Settles O56, from the running remainder 0. -/
theorem shortDivisionIsExact : Obligations.ShortDivisionIsExact := by
  intro v data hv
  have hscan := shortDivide_value (data := data) hv
  rw [Nat.zero_mul, Nat.zero_add] at hscan
  exact ⟨hscan.1, hscan.2, length_shortDivide v 0 data⟩

/-! ### The one-pass Normalize (R177) -/

theorem normalizeLoop_cons (s : Nat) (d : Word) (rest : List Word) : normalizeLoop s (d :: rest) =
    (BitVec.ofNat 32 ((d.toNat <<< s) ||| (normalizeLoop s rest).2) :: (normalizeLoop s rest).1,
      if s = 0 then 0 else d.toNat >>> (32 - s)) := rfl

@[simp] theorem length_normalizeLoop (s : Nat) (src : List Word) : (normalizeLoop s src).1.length = src.length := by
  induction src with
  | nil => rfl
  | cons d rest ih => rw [normalizeLoop_cons, List.length_cons, ih, List.length_cons]

/-- The carry out of a limb, also for s = 0, where it is 0. -/
theorem carry_eq_div (s : Nat) (d : Word) : (if s = 0 then 0 else d.toNat >>> (32 - s)) = d.toNat / 2 ^ (32 - s) := by
  split_ifs with hs
  · rw [hs, Nat.div_eq_of_lt d.isLt]
  · exact Nat.shiftRight_eq_div_pow ..

theorem normalizeLoop_carry_lt {s : Nat} (hs : s < 32) (src : List Word) : (normalizeLoop s src).2 < 2 ^ s := by
  cases src with
  | nil => exact Nat.two_pow_pos s
  | cons d rest =>
    rw [normalizeLoop_cons]
    simp only [carry_eq_div]
    rw [Nat.div_lt_iff_lt_mul (Nat.two_pow_pos _), ← pow_add, Nat.add_sub_cancel' hs.le]
    exact d.isLt

/-- A shifted limb with the carry from below is its low limb and its carry out. -/
theorem shifted_limb {s c : Nat} (hs : s < 32) (hc : c < 2 ^ s) (d : Word) :
    d.toNat / 2 ^ (32 - s) * 2 ^ 32 + (BitVec.ofNat 32 ((d.toNat <<< s) ||| c)).toNat = d.toNat * 2 ^ s + c := by
  have hor : (d.toNat <<< s) ||| c = d.toNat * 2 ^ s + c := by
    rw [← Nat.shiftLeft_add_eq_or_of_lt hc, Nat.shiftLeft_eq]
  have hcarry : d.toNat / 2 ^ (32 - s) = (d.toNat * 2 ^ s + c) / 2 ^ 32 := by
    have hpow : 2 ^ 32 = 2 ^ s * 2 ^ (32 - s) := by rw [← pow_add, Nat.add_sub_cancel' hs.le]
    rw [hpow, ← Nat.div_div_eq_div_mul, Nat.mul_comm, Nat.mul_add_div (Nat.two_pow_pos s), Nat.div_eq_of_lt hc,
      Nat.add_zero]
  rw [hor, hcarry, BitVec.toNat_ofNat, Nat.div_add_mod']

/-- The limbs written and the last carry in front of them are the shifted value. -/
theorem normalizeLoop_value {s : Nat} (hs : s < 32) (src : List Word) :
    (normalizeLoop s src).2 * 2 ^ (32 * src.length) + limbsValue (normalizeLoop s src).1 = limbsValue src * 2 ^ s := by
  induction src with
  | nil => simp [normalizeLoop]
  | cons d rest ih =>
    have hlimb := shifted_limb hs (normalizeLoop_carry_lt hs rest) d
    rw [normalizeLoop_cons]
    simp only [carry_eq_div]
    rw [List.length_cons, value_with_remainder _ _ (length_normalizeLoop s rest), hlimb, limbsValue_cons, Nat.add_mul,
      Nat.add_assoc, ih]
    ring

/-- Settles O57: the last carry and the limbs are the shifted value, which fits the source's width when the carry is 0. -/
theorem normalizeLoopShifts : Obligations.NormalizeLoopShifts := by
  intro k src hk
  have hvalue := normalizeLoop_value hk src
  have hlimbs := limbsValue_lt (normalizeLoop k src).1
  rw [length_normalizeLoop] at hlimbs
  refine ⟨?wide, by simp [normalizeWide], length_normalizeLoop k src, ⟨fun hcarry => ?fits, fun hfits => ?carry⟩,
    fun hcarry => ?narrow⟩
  case wide =>
    have hcarry : (normalizeLoop k src).2 < 2 ^ 32 :=
      (normalizeLoop_carry_lt hk src).trans (Nat.pow_lt_pow_right one_lt_two hk)
    rw [normalizeWide, limbsValue_cons, length_normalizeLoop, BitVec.toNat_ofNat, Nat.mod_eq_of_lt hcarry, hvalue]
  case fits =>
    rw [hcarry] at hvalue
    omega
  case carry =>
    by_contra hne
    have hone := Nat.mul_le_mul_right (2 ^ (32 * src.length)) (Nat.one_le_iff_ne_zero.mpr hne)
    omega
  case narrow =>
    rw [hcarry] at hvalue
    omega

end Sys2Proof.Machine
end

section
/-! PROOF. O55: Knuth's Algorithm D (R145). Normalizing makes the divisor's first limb at least 2^31 and leaves the dividend's
leading limbs below the divisor; each digit is then exact (R146), and the loop divides as the short scan does, window by
window. -/

namespace Sys2Proof.Machine

/-! ### The digit loop -/

theorem limbsValue_append_cons (high : List Word) (d : Word) (rest : List Word) :
    limbsValue (high ++ d :: rest) =
      (limbsValue high * 2 ^ 32 + d.toNat) * 2 ^ (32 * rest.length) + limbsValue rest := by
  rw [limbsValue_append, List.length_cons, value_with_remainder _ _ rfl]

section KnuthLoop

variable {yn : List Word} {t : Nat} (ht : yn.length = t + 2) (hy : 2 ^ 31 ≤ limbAt yn 0)
include ht hy

/-- The window of the last remainder and one digit more divides exactly, and its remainder again has as many limbs as yn. -/
theorem knuthDigit_window {high : List Word} (hlen : high.length = t + 2) (hlt : limbsValue high < limbsValue yn) (d : Word) :
    knuthDigit yn (high ++ [d]) =
      ((limbsValue high * 2 ^ 32 + d.toNat) / limbsValue yn,
        toLimbs (t + 3) ((limbsValue high * 2 ^ 32 + d.toNat) % limbsValue yn)) := by
  have hvalue : limbsValue (high ++ [d]) = limbsValue high * 2 ^ 32 + d.toNat := by
    rw [limbsValue_append]
    simp
  have hwindow : limbsValue (high ++ [d]) < limbsValue yn * 2 ^ 32 := by
    have := d.isLt
    omega
  rw [knuthDigit_eq ht (by simp [hlen]) hy hwindow, hvalue]

theorem knuthLoop_window {high : List Word} (hlen : high.length = t + 2) (hlt : limbsValue high < limbsValue yn) (d : Word)
    (rest : List Word) :
    knuthLoop yn high (d :: rest) =
      (BitVec.ofNat 32 ((limbsValue high * 2 ^ 32 + d.toNat) / limbsValue yn) ::
        (knuthLoop yn (toLimbs (t + 2) ((limbsValue high * 2 ^ 32 + d.toNat) % limbsValue yn)) rest).1,
        (knuthLoop yn (toLimbs (t + 2) ((limbsValue high * 2 ^ 32 + d.toNat) % limbsValue yn)) rest).2) := by
  rw [knuthLoop_cons, knuthDigit_window ht hy hlen hlt d]
  rfl

/-- The loop divides the limbs of high and low together. -/
theorem knuthLoop_value {high low : List Word} (hlen : high.length = t + 2) (hlt : limbsValue high < limbsValue yn) :
    (knuthLoop yn high low).1.length = low.length ∧
      limbsValue (knuthLoop yn high low).1 = limbsValue (high ++ low) / limbsValue yn ∧
      limbsValue (knuthLoop yn high low).2 = limbsValue (high ++ low) % limbsValue yn := by
  induction low generalizing high with
  | nil => simp [knuthLoop, Nat.div_eq_of_lt hlt, Nat.mod_eq_of_lt hlt]
  | cons d rest ih =>
    have hpos : 0 < limbsValue yn := Nat.zero_lt_of_lt hlt
    have hfits : ∀ n, n % limbsValue yn < 2 ^ (32 * (t + 2)) := fun n =>
      (Nat.mod_lt n hpos).trans (ht ▸ limbsValue_lt yn)
    have hnext := limbsValue_toLimbs_of_lt (hfits (limbsValue high * 2 ^ 32 + d.toNat))
    obtain ⟨hlength, hquotient, hremainder⟩ := ih (length_toLimbs (t + 2) _) (hnext ▸ Nat.mod_lt _ hpos)
    rw [limbsValue_append, hnext] at hquotient hremainder
    rw [knuthLoop_window ht hy hlen hlt d, limbsValue_append_cons]
    refine ⟨congrArg Nat.succ hlength, ?quotient, ?remainder⟩
    case quotient =>
      rw [limbsValue_cons, hlength, toNat_digit hlt d.isLt, hquotient, ← div_high_low _ _ _ hpos]
    case remainder => rw [hremainder, ← mod_high_low]

end KnuthLoop

/-! ### Normalization -/

/-- A trimmed array has as many limbs as its value. -/
theorem length_of_trimmed {a : List Word} (h : trimLimbs a = a) : a.length = limbs (limbsValue a) := by
  rw [← length_trimLimbs, h]

/-- A trimmed array begins with a limb that is not 0. -/
theorem head_ne_zero_of_trimmed {w : Word} {a : List Word} (h : trimLimbs (w :: a) = w :: a) : w ≠ 0#32 := by
  rintro rfl
  have hlen := length_of_trimmed h
  have hlimbs := limbs_le_iff.mpr (limbsValue_lt a)
  simp at hlen
  omega

theorem bitlen_add_clz32 (w : Word) : bitlen w.toNat + clz32 w = 32 := Nat.add_sub_cancel' (bitlen_word_le w)

theorem bitlen_ne_zero {w : Word} (h : w ≠ 0#32) : bitlen w.toNat ≠ 0 :=
  bitlen_eq_zero.not.mpr fun h0 => h (BitVec.eq_of_toNat_eq h0)

/-- Shifting a nonzero limb left by its leading zeros brings its first bit to bit 31. -/
theorem normalized_limb {w : Word} (h : w ≠ 0#32) :
    2 ^ 31 ≤ w.toNat * 2 ^ clz32 w ∧ (w.toNat + 1) * 2 ^ clz32 w ≤ 2 ^ 32 := by
  have hwidth := bitlen_add_clz32 w
  have hpos := bitlen_ne_zero h
  constructor
  · calc 2 ^ 31 = 2 ^ (bitlen w.toNat - 1) * 2 ^ clz32 w := by rw [← pow_add]; congr 1; omega
      _ ≤ w.toNat * 2 ^ clz32 w := Nat.mul_le_mul_right _ (two_pow_bitlen_pred_le (bitlen_eq_zero.not.mp hpos))
  · calc (w.toNat + 1) * 2 ^ clz32 w ≤ 2 ^ bitlen w.toNat * 2 ^ clz32 w :=
          Nat.mul_le_mul_right _ (lt_two_pow_bitlen w.toNat)
      _ = 2 ^ 32 := by rw [← pow_add, hwidth]

section Normalized

variable {w : Word} {rest : List Word} (hw : w ≠ 0#32)
include hw

/-- The normalized divisor fits its own limbs. -/
theorem normalized_lt : limbsValue (w :: rest) * 2 ^ clz32 w < 2 ^ (32 * (rest.length + 1)) := by
  have hrest := limbsValue_lt rest
  calc limbsValue (w :: rest) * 2 ^ clz32 w < (w.toNat + 1) * 2 ^ (32 * rest.length) * 2 ^ clz32 w := by
        refine Nat.mul_lt_mul_of_pos_right ?_ (Nat.two_pow_pos _)
        rw [limbsValue_cons, Nat.succ_mul w.toNat]
        exact Nat.add_lt_add_left hrest _
    _ = (w.toNat + 1) * 2 ^ clz32 w * 2 ^ (32 * rest.length) := Nat.mul_right_comm ..
    _ ≤ 2 ^ 32 * 2 ^ (32 * rest.length) := Nat.mul_le_mul_right _ (normalized_limb hw).2
    _ = 2 ^ (32 * (rest.length + 1)) := by rw [← pow_add]; congr 1; ring

/-- The normalized divisor has bit 31 of its first limb set. -/
theorem le_normalized : 2 ^ 31 * 2 ^ (32 * rest.length) ≤ limbsValue (w :: rest) * 2 ^ clz32 w := by
  calc 2 ^ 31 * 2 ^ (32 * rest.length) ≤ w.toNat * 2 ^ clz32 w * 2 ^ (32 * rest.length) :=
        Nat.mul_le_mul_right _ (normalized_limb hw).1
    _ = w.toNat * 2 ^ (32 * rest.length) * 2 ^ clz32 w := Nat.mul_right_comm ..
    _ ≤ limbsValue (w :: rest) * 2 ^ clz32 w := Nat.mul_le_mul_right _ (Nat.le_add_right _ _)

theorem clz32_lt_of_ne_zero : clz32 w < 32 := by
  have hwidth := bitlen_add_clz32 w
  have hpos := bitlen_ne_zero hw
  omega

/-- As many leading limbs of the normalized dividend as the divisor has are below the normalized divisor. -/
theorem leading_limbs_lt {u : List Word} (hlen : rest.length ≤ u.length) :
    limbsValue u * 2 ^ clz32 w / 2 ^ (32 * (u.length - rest.length)) < limbsValue (w :: rest) * 2 ^ clz32 w := by
  have hs : clz32 w ≤ 31 := Nat.le_of_lt_succ (clz32_lt_of_ne_zero hw)
  rw [Nat.div_lt_iff_lt_mul (Nat.two_pow_pos _)]
  calc limbsValue u * 2 ^ clz32 w < 2 ^ (32 * u.length) * 2 ^ clz32 w :=
        Nat.mul_lt_mul_of_pos_right (limbsValue_lt u) (Nat.two_pow_pos _)
    _ ≤ 2 ^ (32 * u.length) * 2 ^ 31 := Nat.mul_le_mul_left _ (Nat.pow_le_pow_right two_pos hs)
    _ = 2 ^ 31 * 2 ^ (32 * rest.length) * 2 ^ (32 * (u.length - rest.length)) := by
      rw [← pow_add, ← pow_add, ← pow_add]
      congr 1
      omega
    _ ≤ _ := Nat.mul_le_mul_right _ (le_normalized hw)

end Normalized

/-- The first limb of an n-limb form is the value's top 32 bits. -/
theorem limbAt_toLimbs_zero {n v : Nat} (h : v < 2 ^ (32 * (n + 1))) :
    limbAt (toLimbs (n + 1) v) 0 = v / 2 ^ (32 * n) := by
  have htop : v / 2 ^ (32 * n) < 2 ^ 32 := by
    rwa [Nat.div_lt_iff_lt_mul (Nat.two_pow_pos _), ← pow_add, Nat.add_comm, ← Nat.mul_succ]
  rw [toLimbs, limbAt_cons_zero, BitVec.toNat_ofNat, Nat.shiftRight_eq_div_pow, Nat.mod_eq_of_lt htop]

/-- The leading limbs of an array are its value less the limbs after them. -/
theorem limbsValue_take (a : List Word) (k : Nat) : limbsValue (a.take k) = limbsValue a / 2 ^ (32 * (a.length - k)) := by
  have hvalue : limbsValue a = limbsValue (a.take k) * 2 ^ (32 * (a.length - k)) + limbsValue (a.drop k) := by
    rw [← List.length_drop, ← limbsValue_append, List.take_append_drop]
  have hlow := limbsValue_lt (a.drop k)
  rw [List.length_drop] at hlow
  rw [hvalue, Nat.add_comm, Nat.add_mul_div_right _ _ (Nat.two_pow_pos _), Nat.div_eq_of_lt hlow, Nat.zero_add]

/-- The digit loop on the normalized arrays divides the normalized values. -/
theorem knuthLoop_normalized {w : Word} {rest u : List Word} {n : Nat} (hn : rest.length = n + 1) (hw : w ≠ 0#32)
    (hlen : rest.length + 1 ≤ u.length) :
    let yn := toLimbs (rest.length + 1) (limbsValue (w :: rest) * 2 ^ clz32 w)
    let xn := toLimbs (u.length + 1) (limbsValue u * 2 ^ clz32 w)
    let digits := knuthLoop yn (xn.take (rest.length + 1)) (xn.drop (rest.length + 1))
    limbsValue digits.1 = limbsValue u * 2 ^ clz32 w / (limbsValue (w :: rest) * 2 ^ clz32 w) ∧
      limbsValue digits.2 = limbsValue u * 2 ^ clz32 w % (limbsValue (w :: rest) * 2 ^ clz32 w) := by
  intro yn xn digits
  have hY : limbsValue yn = limbsValue (w :: rest) * 2 ^ clz32 w := limbsValue_toLimbs_of_lt (normalized_lt hw)
  have hX : limbsValue xn = limbsValue u * 2 ^ clz32 w :=
    limbsValue_toLimbs_of_lt (mul_two_pow_lt_of_limb_more (limbsValue_lt u) (clz32_lt_of_ne_zero hw))
  have hyn : yn.length = n + 2 := by rw [length_toLimbs, hn]
  have hfirst : 2 ^ 31 ≤ limbAt yn 0 := by
    rw [limbAt_toLimbs_zero (normalized_lt hw), Nat.le_div_iff_mul_le (Nat.two_pow_pos _)]
    exact le_normalized hw
  have hhigh : (xn.take (rest.length + 1)).length = n + 2 := by
    rw [List.length_take, length_toLimbs, hn]
    omega
  have hbelow : limbsValue (xn.take (rest.length + 1)) < limbsValue yn := by
    rw [limbsValue_take, hX, hY, length_toLimbs, Nat.add_sub_add_right]
    exact leading_limbs_lt hw (Nat.le_of_succ_le hlen)
  obtain ⟨-, hquotient, hremainder⟩ := knuthLoop_value hyn hfirst (low := xn.drop (rest.length + 1)) hhigh hbelow
  rw [List.take_append_drop, hX, hY] at hquotient hremainder
  exact ⟨hquotient, hremainder⟩

/-- Settles O55: the normalized values have the values' own quotient, and their remainder shifted. -/
theorem knuthDividesExactly : Obligations.KnuthDividesExactly := by
  intro u v hu hv hlen hlt
  obtain ⟨w, rest, rfl⟩ : ∃ w rest, v = w :: rest := List.exists_cons_of_length_pos (by omega)
  obtain ⟨n, hn⟩ : ∃ n, rest.length = n + 1 := ⟨rest.length - 1, by rw [List.length_cons] at hlen; omega⟩
  have hlonger : rest.length + 1 ≤ u.length := by
    rw [← List.length_cons (a := w), length_of_trimmed hu, length_of_trimmed hv]
    exact limbs_mono hlt.le
  obtain ⟨hquotient, hremainder⟩ := knuthLoop_normalized hn (head_ne_zero_of_trimmed hv) hlonger
  simp only [knuthDivide, List.getD_cons_zero, List.length_cons, Nat.shiftLeft_eq, hquotient, hremainder,
    Nat.shiftRight_eq_div_pow, Nat.mul_div_mul_right _ _ (Nat.two_pow_pos _), Nat.mul_mod_mul_right,
    Nat.mul_div_cancel _ (Nat.two_pow_pos _)]

end Sys2Proof.Machine
end
